-- ==== Sys2Proof/Word.lean ====
section
/-! DEFINITION. The value types of LCDSEQ and the eight colour names.
A DisplayAddress has 7 significant bits (R24), a byte 8 (R9). The widths `OPW` and `RESW` are parameters (R8): the signed
operand `n`, a result and a status are integers, narrowed to the parameter's width where they are formed (R9, R40, R73, R75). -/

namespace Sys2Proof

/-- A byte (R9). -/
abbrev Byte := BitVec 8

/-- A DisplayAddress: the device's address register, 0 to 127 (R24). -/
abbrev Addr := BitVec 7

/-- ColourName, in the order that gives the codes 0 to 7 (R77). -/
inductive ColourName where
  | black | red | yellow | green | cyan | blue | magenta | white
  deriving DecidableEq, Repr

end Sys2Proof
end

