-- ==== Sys2Proof/Config.lean ====
section
/-! DEFINITION. The parameters of LCDSEQ: those the document fixes (R7) as constants, those it leaves open (R8, R81) as
one record that `State` carries, so that a claim can be stated for any values of them (log 14). -/

namespace Sys2Proof

/-- `LCD_LENGTH`: visible columns a row, blanking width, wrap column (R7). -/
def Config.lcdLength : Nat := 16

/-- `SCROLL_MOD`: the modulus of ScrollOffset (R7). -/
def Config.scrollMod : Nat := 40

/-- `ROW_CELLS`: cells of an electrical row (R7). -/
def Config.rowCells : Nat := 40

/-- `ROW1_START`: the DDRAM address of row 1, column 0 (R7). -/
def Config.row1Start : Addr := 0x40#7

/-- `MAX_COL`: the largest column CURSOR_GOTO accepts (R7). -/
def Config.maxCol : Nat := 39

/-- `MAX_ROW`: the largest row CURSOR_GOTO accepts, 2 and not 1 (R7, conflict C2). -/
def Config.maxRow : Nat := 2

/-- `VISIBLE_MAX_COL` (R7). -/
def Config.visibleMaxCol : Nat := 15

/-- The usable length of `emit_formatted`'s buffer, `FMT_CAP` - 1 (R7, R114). -/
def Config.fmtLen : Nat := 80

/-- The usable length of `emit_wrapped`'s buffer, `WRAP_CAP` - 1 (R7, R114). -/
def Config.wrapLen : Nat := 32

/-- `SELFTEST_ITERS` (R7). -/
def Config.selfTestIters : Nat := 81

/-- `SELFTEST_PASS`, the match count required (R7). -/
def Config.selfTestPass : Nat := 80

/-- The configuration record `Cmd`: every command byte the block ever sends (R81, D8). -/
structure Cmd where
  bootstrap   : Byte
  functionSet : Byte
  displayCtrl : Byte
  entryMode   : Byte
  clear       : Byte
  home        : Byte
  cursorLeft  : Byte
  cursorRight : Byte
  shiftLeft   : Byte
  shiftRight  : Byte
  /-- `CMD_SET_DDRAM` before its target is put in: 0x80 in `0x80 | a`. -/
  setDdram    : Byte
  deriving DecidableEq, Repr

/-- The request opcodes (R8, R72). -/
structure Opcodes where
  init          : Byte
  clear         : Byte
  home          : Byte
  emit          : Byte
  emitLineClear : Byte
  emitFormatted : Byte
  emitWrapped   : Byte
  cursorMove    : Byte
  cursorGoto    : Byte
  displayShift  : Byte
  setColour     : Byte
  deriving DecidableEq, Repr

/-- The ColourName codes (R8, R77). -/
structure ColourCodes where
  black   : BitVec 3
  red     : BitVec 3
  yellow  : BitVec 3
  green   : BitVec 3
  cyan    : BitVec 3
  blue    : BitVec 3
  magenta : BitVec 3
  white   : BitVec 3
  deriving DecidableEq, Repr

/-- The `diag` codes (R8, R76). -/
structure DiagCodes where
  none                    : BitVec 3
  transportFailure        : BitVec 3
  addressConsistencyError : BitVec 3
  validationError         : BitVec 3
  selfTestFailure         : BitVec 3
  notReady                : BitVec 3
  illegalRequest          : BitVec 3
  deriving DecidableEq, Repr

/-- The configuration record of R8, one field or record for each row of its table. -/
structure Config where
  /-- `OPW`: the width of the operand `n`. -/
  opw     : Nat
  /-- `RESW`: the width of a result and of a status. -/
  resw    : Nat
  eof     : Int
  chZero  : Byte
  chCr    : Byte
  chLf    : Byte
  chSpace : Byte
  cmd     : Cmd
  opcodes : Opcodes
  colours : ColourCodes
  diags   : DiagCodes
  deriving DecidableEq, Repr

/-- The opcodes, in the order of R72. -/
def Opcodes.toList (o : Opcodes) : List Byte :=
  [o.init, o.clear, o.home, o.emit, o.emitLineClear, o.emitFormatted, o.emitWrapped, o.cursorMove, o.cursorGoto,
    o.displayShift, o.setColour]

/-- The colour codes, in the order of R77. -/
def ColourCodes.toList (c : ColourCodes) : List (BitVec 3) :=
  [c.black, c.red, c.yellow, c.green, c.cyan, c.blue, c.magenta, c.white]

/-- The `diag` codes, in the order of R76. -/
def DiagCodes.toList (d : DiagCodes) : List (BitVec 3) :=
  [d.none, d.transportFailure, d.addressConsistencyError, d.validationError, d.selfTestFailure, d.notReady,
    d.illegalRequest]

/-- The command bytes of R81, `CMD_BOOTSTRAP` at the value of the test vectors. -/
def Cmd.standard : Cmd :=
  { bootstrap := 0x02#8, functionSet := 0x28#8, displayCtrl := 0x0F#8, entryMode := 0x06#8, clear := 0x01#8,
    home := 0x02#8, cursorLeft := 0x10#8, cursorRight := 0x14#8, shiftLeft := 0x18#8, shiftRight := 0x1C#8,
    setDdram := 0x80#8 }

/-- The opcodes of R72. -/
def Opcodes.standard : Opcodes :=
  { init := 0x00#8, clear := 0x01#8, home := 0x02#8, emit := 0x03#8, emitLineClear := 0x04#8, emitFormatted := 0x05#8,
    emitWrapped := 0x06#8, cursorMove := 0x07#8, cursorGoto := 0x08#8, displayShift := 0x09#8, setColour := 0x0A#8 }

/-- The colour codes of R77. -/
def ColourCodes.standard : ColourCodes :=
  { black := 0#3, red := 1#3, yellow := 2#3, green := 3#3, cyan := 4#3, blue := 5#3, magenta := 6#3, white := 7#3 }

/-- The `diag` codes of R76. -/
def DiagCodes.standard : DiagCodes :=
  { none := 0#3, transportFailure := 1#3, addressConsistencyError := 2#3, validationError := 3#3, selfTestFailure := 4#3,
    notReady := 5#3, illegalRequest := 6#3 }

/-- The values R8 takes for the open parameters. -/
def Config.standard : Config :=
  { opw := 16, resw := 32, eof := -1, chZero := 0x30#8, chCr := 0x0D#8, chLf := 0x0A#8, chSpace := 0x20#8,
    cmd := Cmd.standard, opcodes := Opcodes.standard, colours := ColourCodes.standard, diags := DiagCodes.standard }

end Sys2Proof
end

