-- ==== Sys2Proof/Syntax.lean ====
section
/-! DEFINITION. The instructions: one constructor per row of the opcode table. The first eleven are the requests a host
presents to the block (R5, R72); the other eleven are the command bytes of the display device (R80, R81). -/

namespace Sys2Proof

/-- One constructor per row of the opcode table. -/
inductive Instr where
  /-- INIT (R141). -/
  | init
  /-- CLEAR (R134). -/
  | clear
  /-- HOME (R135). -/
  | home
  /-- EMIT of the byte `b` (R112). -/
  | emit (b : Byte)
  /-- EMIT_LINE_CLEAR (R113). -/
  | emitLineClear
  /-- EMIT_FORMATTED of the rendered bytes `str` (R74, R115). -/
  | emitFormatted (str : List Byte)
  /-- EMIT_WRAPPED of the rendered bytes `str` (R74, R117). -/
  | emitWrapped (str : List Byte)
  /-- CURSOR_MOVE by the signed `n` (R126). -/
  | cursorMove (n : Int)
  /-- CURSOR_GOTO (R128). -/
  | cursorGoto (row col : Byte)
  /-- DISPLAY_SHIFT by the signed `n` (R131). -/
  | displayShift (n : Int)
  /-- SET_COLOUR (R156). -/
  | setColour (name : ColourName)
  /-- CMD_CLEAR, the device command byte 0x01 (R57, R81). -/
  | cmdClear
  /-- CMD_HOME, 0x02 (R58, R81). -/
  | cmdHome
  /-- CMD_BOOTSTRAP, the parameter byte that INIT sends first (R81). -/
  | cmdBootstrap
  /-- CMD_ENTRY_MODE, `000001is` (R59, R80). -/
  | cmdEntryMode (inc shift : Bool)
  /-- CMD_DISPLAY_CTRL, `00001dcb` (R59, R80). -/
  | cmdDisplayCtrl (disp cursor blink : Bool)
  /-- CMD_CURSOR_LEFT, 0x10 (R60, R81). -/
  | cmdCursorLeft
  /-- CMD_CURSOR_RIGHT, 0x14 (R60, R81). -/
  | cmdCursorRight
  /-- CMD_SHIFT_LEFT, 0x18 (R60, R81). -/
  | cmdShiftLeft
  /-- CMD_SHIFT_RIGHT, 0x1C (R60, R81). -/
  | cmdShiftRight
  /-- CMD_FUNCTION_SET, `001lnf00` (R59, R80). -/
  | cmdFunctionSet (len lines font : Bool)
  /-- CMD_SET_DDRAM, `1aaaaaaa` (R61, R82). -/
  | cmdSetDdram (a : Addr)
  deriving DecidableEq, Repr

/-- Whether the row is a request to the block; the others are command bytes of the device. -/
def Instr.isRequest : Instr → Bool
  | .init | .clear | .home | .emit _ | .emitLineClear | .emitFormatted _ | .emitWrapped _ => true
  | .cursorMove _ | .cursorGoto _ _ | .displayShift _ | .setColour _ => true
  | .cmdClear | .cmdHome | .cmdBootstrap | .cmdEntryMode _ _ | .cmdDisplayCtrl _ _ _ => false
  | .cmdCursorLeft | .cmdCursorRight | .cmdShiftLeft | .cmdShiftRight => false
  | .cmdFunctionSet _ _ _ | .cmdSetDdram _ => false

end Sys2Proof
end

