-- ==== Sys2Proof/WellFormed.lean ====
section
/-! DEFINITION. Which terms of `Instr` a request can stand for: a string operand has a length that fits 16 bits and
holds no byte 0x00 (R73, R74, R78), and the operand `n` fits `OPW` bits (R8, R73). Every other operand is bounded by its type.
And which configuration records tell their codes apart. -/

namespace Sys2Proof

/-- A two's complement number of `w` bits: at least `-2^(w-1)` and below `2^(w-1)`. -/
def fitsIn (w : Nat) (x : Int) : Bool :=
  decide (-(2 ^ w : Int) ≤ 2 * x) && decide (2 * x < (2 ^ w : Int))

/-- A string operand that can be encoded: `L` fits 16 bits (R73) and no byte is 0x00 (R74, R78). -/
def stringOk (str : List Byte) : Bool :=
  decide (str.length ≤ 65535) && str.all (fun b => b != 0#8)

/-- The well-formed instructions. -/
def Instr.wf (cfg : Config) : Instr → Bool
  | .emitFormatted str => stringOk str
  | .emitWrapped str => stringOk str
  | .cursorMove n => fitsIn cfg.opw n
  | .displayShift n => fitsIn cfg.opw n
  | .init | .clear | .home | .emit _ | .emitLineClear => true
  | .cursorGoto _ _ | .setColour _ => true
  | .cmdClear | .cmdHome | .cmdBootstrap | .cmdEntryMode _ _ | .cmdDisplayCtrl _ _ _ => true
  | .cmdCursorLeft | .cmdCursorRight | .cmdShiftLeft | .cmdShiftRight => true
  | .cmdFunctionSet _ _ _ | .cmdSetDdram _ => true

/-- A record that gives different requests, colours and error kinds different codes. -/
def Config.wf (cfg : Config) : Bool :=
  decide cfg.opcodes.toList.Nodup && decide cfg.colours.toList.Nodup && decide cfg.diags.toList.Nodup

end Sys2Proof
end

