-- ==== Sys2Proof/Decode.lean ====
section
/-! DEFINITION. The two decoders, total on any bytes and rejecting by name, and the encoder.
The request decoder reads the bytes at the block's request port (R70 to R74, R78, R79); the command decoder reads one
byte at the device's command register (R80). -/

namespace Sys2Proof

/-- Why the bytes at the request port are no legal request (R78). -/
inductive DecodeError where
  /-- A byte that is no opcode: 0x0B to 0xFF with the opcodes of R72. -/
  | reservedOpcode (op : Byte)
  /-- A format W request with a bit set above the operand's `OPW` bits; the format of R71 has none (log 14). -/
  | strayOperandBits
  /-- A format C request with a bit 7:3 of byte 1 set. -/
  | strayColourBits
  /-- A colour code that names no colour; with the codes of R77 every code names one (log 14). -/
  | noColour
  /-- A format S request with a 0x00 byte in its string. -/
  | zeroInString
  /-- A request shorter than its format. -/
  | tooShort
  deriving DecidableEq, Repr

/-- What the device does with a command byte: the classes of R80 that the reference device gives an effect. -/
inductive Command where
  | clear
  | home
  | entryMode (inc shift : Bool)
  | displayCtrl (disp cursor blink : Bool)
  | cursorShift (right : Bool)
  | displayShift (right : Bool)
  | functionSet (len lines font : Bool)
  | setDdram (a : Addr)
  deriving DecidableEq, Repr

/-- Why a byte is no command of the opcode table. -/
inductive CommandError where
  /-- 0x00: no bit set, so no class (R80); the reference device does nothing with it (R59). -/
  | noClass
  /-- `01aaaaaa`, set CGRAM address: never sent by the block and refused by the reference device (R61, R84). -/
  | cgram
  deriving DecidableEq, Repr

/-- The colour a code names (R77). -/
def colourOfCode (cc : ColourCodes) (c : BitVec 3) : Option ColourName :=
  if c = cc.black then some .black
  else if c = cc.red then some .red
  else if c = cc.yellow then some .yellow
  else if c = cc.green then some .green
  else if c = cc.cyan then some .cyan
  else if c = cc.blue then some .blue
  else if c = cc.magenta then some .magenta
  else if c = cc.white then some .white
  else none

/-- The code of a ColourName (R77). -/
def codeOfColour (cc : ColourCodes) : ColourName → BitVec 3
  | .black => cc.black
  | .red => cc.red
  | .yellow => cc.yellow
  | .green => cc.green
  | .cyan => cc.cyan
  | .blue => cc.blue
  | .magenta => cc.magenta
  | .white => cc.white

/-- The two's complement number of `w` bits with the low `w` bits of `x`: `sext` of a field, and what wraps (R9, R73, R90). -/
def narrow (w : Nat) (x : Int) : Int := Int.bmod x (2 ^ w)

/-- The 16-bit length field, low byte first (R73). -/
def halfOf (lo hi : Byte) : BitVec 16 := hi ++ lo

/-- The low byte of a 16-bit field. -/
def lowByte (n : BitVec 16) : Byte := n.extractLsb' 0 8

/-- The high byte of a 16-bit field. -/
def highByte (n : BitVec 16) : Byte := n.extractLsb' 8 8

/-- How many bytes the operand `n` takes: two for `OPW` = 16 (R71). -/
def operandBytes (cfg : Config) : Nat := (cfg.opw + 7) / 8

/-- `n` bytes as one unsigned number, low byte first (R73), and the bytes after them. -/
def readLE : Nat → List Byte → Option (Nat × List Byte)
  | 0, bs => some (0, bs)
  | _ + 1, [] => none
  | n + 1, b :: bs =>
    match readLE n bs with
    | some (v, rest) => some (b.toNat + 256 * v, rest)
    | none => none

/-- A number as `n` bytes, low byte first (R73). -/
def writeLE : Nat → Nat → List Byte
  | 0, _ => []
  | n + 1, v => BitVec.ofNat 8 v :: writeLE n (v / 256)

/-- Format B: one operand byte (R71). -/
def decodeB (mk : Byte → Instr) : List Byte → Except DecodeError (Instr × List Byte)
  | b :: rest => .ok (mk b, rest)
  | [] => .error .tooShort

/-- Format W: the signed operand of `OPW` bits, little-endian (R71, R73). -/
def decodeW (cfg : Config) (mk : Int → Instr) (bs : List Byte) : Except DecodeError (Instr × List Byte) :=
  match readLE (operandBytes cfg) bs with
  | some (v, rest) => if v < 2 ^ cfg.opw then .ok (mk (narrow cfg.opw v), rest) else .error .strayOperandBits
  | none => .error .tooShort

/-- Format RC: row, then column (R71). -/
def decodeRC (mk : Byte → Byte → Instr) : List Byte → Except DecodeError (Instr × List Byte)
  | row :: col :: rest => .ok (mk row col, rest)
  | _ => .error .tooShort

/-- Format C: a colour code whose bits 7:3 are 0 (R71, R78). -/
def decodeC (cfg : Config) (mk : ColourName → Instr) : List Byte → Except DecodeError (Instr × List Byte)
  | b :: rest =>
    if b.extractLsb' 3 5 = 0#5 then
      match colourOfCode cfg.colours (b.extractLsb' 0 3) with
      | some name => .ok (mk name, rest)
      | none => .error .noColour
    else .error .strayColourBits
  | [] => .error .tooShort

/-- Format S: the length `L`, little-endian, then `L` bytes, none of them 0x00 (R71, R74, R78, R79). -/
def decodeS (mk : List Byte → Instr) : List Byte → Except DecodeError (Instr × List Byte)
  | lo :: hi :: rest =>
    if rest.length < (halfOf lo hi).toNat then .error .tooShort
    else if (rest.take (halfOf lo hi).toNat).all (fun b => b != 0#8) then
      .ok (mk (rest.take (halfOf lo hi).toNat), rest.drop (halfOf lo hi).toNat)
    else .error .zeroInString
  | _ => .error .tooShort

/-- The request decoder: the instruction and the bytes after it (R72, R79). -/
def decode (cfg : Config) : List Byte → Except DecodeError (Instr × List Byte)
  | [] => .error .tooShort
  | op :: rest =>
    if op = cfg.opcodes.init then .ok (.init, rest)
    else if op = cfg.opcodes.clear then .ok (.clear, rest)
    else if op = cfg.opcodes.home then .ok (.home, rest)
    else if op = cfg.opcodes.emit then decodeB .emit rest
    else if op = cfg.opcodes.emitLineClear then .ok (.emitLineClear, rest)
    else if op = cfg.opcodes.emitFormatted then decodeS .emitFormatted rest
    else if op = cfg.opcodes.emitWrapped then decodeS .emitWrapped rest
    else if op = cfg.opcodes.cursorMove then decodeW cfg .cursorMove rest
    else if op = cfg.opcodes.cursorGoto then decodeRC .cursorGoto rest
    else if op = cfg.opcodes.displayShift then decodeW cfg .displayShift rest
    else if op = cfg.opcodes.setColour then decodeC cfg .setColour rest
    else .error (.reservedOpcode op)

/-- The command decoder: the class is given by the highest set bit (R80); the bits R80 marks `x` are ignored. -/
def decodeCommand (b : Byte) : Except CommandError Command :=
  if b.getLsbD 7 then .ok (.setDdram (b.extractLsb' 0 7))
  else if b.getLsbD 6 then .error .cgram
  else if b.getLsbD 5 then .ok (.functionSet (b.getLsbD 4) (b.getLsbD 3) (b.getLsbD 2))
  else if b.getLsbD 4 then
    if b.getLsbD 3 then .ok (.displayShift (b.getLsbD 2)) else .ok (.cursorShift (b.getLsbD 2))
  else if b.getLsbD 3 then .ok (.displayCtrl (b.getLsbD 2) (b.getLsbD 1) (b.getLsbD 0))
  else if b.getLsbD 2 then .ok (.entryMode (b.getLsbD 1) (b.getLsbD 0))
  else if b.getLsbD 1 then .ok .home
  else if b.getLsbD 0 then .ok .clear
  else .error .noClass

/-- The opcode-table row of a command class. (The bootstrap byte has no class of its own: the device reads it by R80.) -/
def Command.toInstr : Command → Instr
  | .clear => .cmdClear
  | .home => .cmdHome
  | .entryMode i s => .cmdEntryMode i s
  | .displayCtrl d c b => .cmdDisplayCtrl d c b
  | .cursorShift true => .cmdCursorRight
  | .cursorShift false => .cmdCursorLeft
  | .displayShift true => .cmdShiftRight
  | .displayShift false => .cmdShiftLeft
  | .functionSet l n f => .cmdFunctionSet l n f
  | .setDdram a => .cmdSetDdram a

/-- A format S body: length, then the bytes (R71). -/
def encodeS (str : List Byte) : List Byte :=
  lowByte (BitVec.ofNat 16 str.length) :: highByte (BitVec.ofNat 16 str.length) :: str

/-- The set-DDRAM-address byte of the device's command set: a 1, then the address (R80). -/
def setDdramByte (a : Addr) : Byte := 1#1 ++ a

/-- `CMD_SET_DDRAM(tgt)`, the set-address command the block sends: the record's byte `|` the target (R81); with the byte of
R81 it is a 1, then the target (R82). For another byte `|` is the model's choice (DESIGN CHOICE, safe, log 14). -/
def setAddressByte (cmd : Cmd) (tgt : Addr) : Byte := cmd.setDdram ||| tgt.setWidth 8

/-- A format W body: the operand's `OPW` bits, little-endian (R71, R73). -/
def encodeW (cfg : Config) (n : Int) : List Byte :=
  writeLE (operandBytes cfg) (n % (2 ^ cfg.opw : Int)).toNat

/-- The bytes of an instruction (R71, R72, R80, R81). -/
def encode (cfg : Config) : Instr → List Byte
  | .init => [cfg.opcodes.init]
  | .clear => [cfg.opcodes.clear]
  | .home => [cfg.opcodes.home]
  | .emit b => [cfg.opcodes.emit, b]
  | .emitLineClear => [cfg.opcodes.emitLineClear]
  | .emitFormatted str => cfg.opcodes.emitFormatted :: encodeS str
  | .emitWrapped str => cfg.opcodes.emitWrapped :: encodeS str
  | .cursorMove n => cfg.opcodes.cursorMove :: encodeW cfg n
  | .cursorGoto row col => [cfg.opcodes.cursorGoto, row, col]
  | .displayShift n => cfg.opcodes.displayShift :: encodeW cfg n
  | .setColour name => [cfg.opcodes.setColour, 0#5 ++ codeOfColour cfg.colours name]
  | .cmdClear => [0x01#8]
  | .cmdHome => [0x02#8]
  | .cmdBootstrap => [cfg.cmd.bootstrap]
  | .cmdEntryMode i s => [0b000001#6 ++ BitVec.ofBool i ++ BitVec.ofBool s]
  | .cmdDisplayCtrl d c b => [0b00001#5 ++ BitVec.ofBool d ++ BitVec.ofBool c ++ BitVec.ofBool b]
  | .cmdCursorLeft => [0x10#8]
  | .cmdCursorRight => [0x14#8]
  | .cmdShiftLeft => [0x18#8]
  | .cmdShiftRight => [0x1C#8]
  | .cmdFunctionSet l n f => [0b001#3 ++ BitVec.ofBool l ++ BitVec.ofBool n ++ BitVec.ofBool f ++ 0b00#2]
  | .cmdSetDdram a => [setDdramByte a]

/-- The bytes of a table word, the first byte the least significant. -/
def bytesOfWord (nbits w : Nat) : List Byte :=
  (List.range ((nbits + 7) / 8)).map (fun k => BitVec.ofNat 8 (w >>> (8 * k)))

/-- A table word's bytes with the zeros above them: as many as any operand field takes stand for any longer run of them, since
a string of zeros is illegal. -/
def paddedBytes (cfg : Config) (nbits w : Nat) : List Byte :=
  bytesOfWord nbits w ++ List.replicate (max 2 (operandBytes cfg)) 0#8

/-- The instruction read from a table word, with the codes of the table: the request its bytes hold (the bits above `nbits`
zero); where they hold none, the device command that a word of one byte holds (DESIGN CHOICE, safe, log 10). -/
def decodeTableWord (nbits w : Nat) : Option Instr :=
  match decode Config.standard (paddedBytes Config.standard nbits w) with
  | .ok (i, _) => some i
  | .error _ =>
    if nbits ≤ 8 then
      match decodeCommand (BitVec.ofNat 8 w) with
      | .ok c => some c.toInstr
      | .error _ => none
    else none

end Sys2Proof
end

