-- ==== Sys2Proof/Machine/State.lean ====
section
/-! DEFINITION. The machine's state as plain data, its fault and refusal reasons, the state after reset.
Every piece of state that INVENTORY.md lists under its State heading is a field here. -/

namespace Sys2Proof.Machine

/-- The InitializationState machine (R15). -/
inductive Fsm where
  | uninitialized | selfTesting | ready | failed
  deriving DecidableEq, Repr

/-- The error kinds of a response (R76). -/
inductive Diag where
  | none | transportFailure | addressConsistencyError | validationError | selfTestFailure | notReady | illegalRequest
  deriving DecidableEq, Repr

/-- The colour channels: active-low levels, `false` (0) lights the LED (R17). -/
structure Channels where
  red   : Bool
  green : Bool
  blue  : Bool
  deriving DecidableEq, Repr

/-- The registers that hold a value only while one operation runs (R21). The counters are unbounded integers, which R90
allows; R21's ranges are an invariant. -/
structure Transient where
  k   : Nat
  acc : Int
  i   : Nat
  cnt : Nat
  w   : Byte
  r   : Byte
  tgt : Addr
  a   : Addr
  s   : Int
  sum : Int
  j   : Nat
  m   : Nat
  buf : List Byte
  deriving DecidableEq, Repr

/-- The transient registers when no operation runs. DESIGN CHOICE, unsafe (log 6): R21 gives them no value then. -/
def Transient.idle : Transient :=
  { k := 0, acc := 0, i := 0, cnt := 0, w := 0#8, r := 0#8, tgt := 0#7, a := 0#7, s := 0, sum := 0, j := 0, m := 0, buf := [] }

/-- The position inside a running operation: the operation and the index of its next transport call (R20). -/
structure Position where
  op : Instr
  ix : Nat
  deriving DecidableEq, Repr

/-- A transport call (R39, R42). -/
inductive Call where
  | writeControl (b : Byte)
  | writeData (b : Byte)
  | readData
  | readAddress
  | busyWait
  /-- `T.write_port(0, (RED, GREEN))`. -/
  | writePort0 (red green : Bool)
  /-- `T.write_port(1, (BLUE))`. -/
  | writePort1 (blue : Bool)
  deriving DecidableEq, Repr

/-- What a call that returns brings back. A write yields `status` (its low `RESW` bits, R40), `T.read_data` yields `byte`,
`T.read_address` yields `addr`; the rest of the record is not looked at (R39, R41). -/
structure Reply where
  status : Int
  byte   : Byte
  addr   : Addr
  deriving DecidableEq, Repr

/-- The reference device's variants (R63), and one of the model's own: `hangs n` answers `n` more calls and never
returns from the next (DESIGN CHOICE, unsafe, log 17). -/
inductive Fixture where
  | good
  | bad (calls : List Nat)
  | stuck
  | failing
  | hangs (n : Nat)
  deriving DecidableEq, Repr

/-- The transport behind the block: an arbitrary oracle (R41) or the reference device (R55). -/
inductive Link where
  | oracle
  | device (fx : Fixture)
  deriving DecidableEq, Repr

/-- A byte memory: address and byte pairs, addresses strictly rising, no entry equal to what an unlisted address
reads as. -/
abbrev Memory := List Host.Cell

/-- The reference device (R55), its CGRAM (R25) and the fixtures' read counter (R63). -/
structure Device where
  ac      : Addr
  ddram   : Memory
  cgram   : Memory
  shift   : BitVec 6
  idinc   : Bool
  sdisp   : Bool
  dcb     : BitVec 3
  fn      : BitVec 3
  port0   : Bool × Bool
  port1   : Bool
  rdCount : Nat
  deriving DecidableEq, Repr

/-- The machine's state. -/
structure State where
  /-- The configuration record (R8, R81, log 14). -/
  cfg      : Config
  /-- InitializationState (R15). -/
  fsm      : Fsm
  /-- ScrollOffset (R14). -/
  so       : BitVec 6
  /-- ColourChannels (R17). -/
  chan     : Channels
  /-- Whether `chan` has a value yet: R17's "no value" mark (log 5). -/
  chanSet  : Bool
  /-- The result of the last response (R75). -/
  result   : Int
  /-- The error kind of the last response (R18, R76). -/
  diag     : Diag
  /-- 1 from the acceptance of a request to the delivery of its response (R19). -/
  busy     : Bool
  /-- The position inside the running operation, none when there is none (R20). -/
  pos      : Option Position
  /-- The transient registers (R21). -/
  tr       : Transient
  /-- The bytes the host presents at the request port (R70, log 8). -/
  port     : List Byte
  /-- A byte at the device's command register (R35, log 9). -/
  command  : Option Byte
  /-- The reset event is waiting (R185, log 13). -/
  resetReq : Bool
  /-- Which transport answers (R41, log 2). -/
  link     : Link
  /-- The answers an oracle will give; `none` is a call that never returns (R41, R44, log 1). -/
  replies  : List (Option Reply)
  /-- The reference device (R55). -/
  dev      : Device
  /-- The transport calls made so far, oldest first (R48, log 15). -/
  calls    : List Call
  deriving DecidableEq, Repr

/-- Why the machine stops with a fault. -/
inductive Fault where
  /-- Raised by `fetch` when `busy` is 1: a transport call never returned, so no step is enabled but reset (R44).
  Safe: nothing follows. -/
  | stuck
  /-- Raised by the reference device's data reads and writes at an address that is no DDRAM cell (R36, log 12).
  Safe: the real device goes on. -/
  | ddramHole
  deriving DecidableEq, Repr

/-- Why a request or a command has no meaning. -/
inductive Refusal where
  /-- An instruction that exec rejects by name. Safe. -/
  | notModelled (mnemonic : String)
  /-- A request other than INIT while `fsm` is not Ready (R166, R174). Raised by `whenReady`. Safe (log 18). -/
  | notReady
  /-- A request that R78 calls illegal (R167). Raised by `fetch`. Safe (log 18). -/
  | illegalRequest
  /-- A data read or write of the reference device under a mode it is not defined for (R59). Raised by the device.
  Safe (log 11). -/
  | deviceMode
  /-- A set-CGRAM-address command (R61). Raised by the device. Safe. -/
  | deviceCgram
  /-- A set-address command with an address that is no cell (R61). Raised by the device. Safe. -/
  | deviceAddress
  deriving DecidableEq, Repr

/-- A part of an operation: it goes on with a value, it hangs in a call that never returns (R44), or it stops. -/
inductive Run (α : Type) where
  | done (a : α) (s : State)
  | hung (s : State)
  | fault (f : Fault)
  | refused (r : Refusal)
  deriving DecidableEq, Repr

/-- What the device makes of one access. -/
inductive DeviceAnswer where
  | ok (r : Reply) (d : Device)
  | fault (f : Fault)
  | refused (r : Refusal)
  deriving DecidableEq, Repr

/-- The reference device before anything reached it: `idinc` = 1 and a valid AC (R55); the other values are DESIGN
CHOICE, unsafe (log 3, log 4). -/
def Device.reset : Device :=
  { ac := 0#7, ddram := [], cgram := [], shift := 0#6, idinc := true, sdisp := false, dcb := 0#3, fn := 0#3,
    port0 := (false, false), port1 := false, rdCount := 0 }

/-- The machine right after reset (R185). The values of `chan` (log 5), `result` (log 6) and `link` (log 2) are DESIGN
CHOICE, unsafe. -/
def State.reset : State :=
  { cfg := Config.standard, fsm := .uninitialized, so := 0#6, chan := { red := false, green := false, blue := false },
    chanSet := false, result := 0, diag := .none, busy := false, pos := none, tr := Transient.idle, port := [],
    command := none, resetReq := false, link := .device .good, replies := [], dev := Device.reset, calls := [] }

end Sys2Proof.Machine
end

