-- ==== Sys2Proof/Machine/Flags.lean ====
section
/-! DEFINITION. The status flag `ready` and the tests that choose an outcome. The block has no condition codes (R22). -/

namespace Sys2Proof.Machine

/-- `ready`, a function of `fsm` (R16). -/
def Fsm.isReady : Fsm → Bool
  | .uninitialized => false
  | .selfTesting => true
  | .ready => true
  | .failed => false

/-- The 2-bit encoding of `fsm` (R15). -/
def Fsm.code : Fsm → BitVec 2
  | .uninitialized => 0b00#2
  | .selfTesting => 0b01#2
  | .ready => 0b10#2
  | .failed => 0b11#2

/-- The 3-bit `diag` codes (R8, R76). -/
def Diag.code (dc : DiagCodes) : Diag → BitVec 3
  | .none => dc.none
  | .transportFailure => dc.transportFailure
  | .addressConsistencyError => dc.addressConsistencyError
  | .validationError => dc.validationError
  | .selfTestFailure => dc.selfTestFailure
  | .notReady => dc.notReady
  | .illegalRequest => dc.illegalRequest

/-- The `diag` of an operation that looks at a status or a sum: only equality with 0 is tested (R40, R162). -/
def statusDiag (st : Int) : Diag :=
  if st = 0 then .none else .transportFailure

/-- CURSOR_GOTO's validation: `col > 39 or row > 2` (R127). -/
def gotoInvalid (row col : Byte) : Bool :=
  decide (Config.maxCol < col.toNat) || decide (Config.maxRow < row.toNat)

/-- `match(i, w, r)`: the 81st comparison never counts (R144). -/
def selfTestMatch (i : Nat) (w r : Byte) : Bool :=
  decide (i < Config.selfTestPass) && decide (r = w)

end Sys2Proof.Machine
end

