-- ==== Sys2Proof/Machine/Operands.lean ====
section
/-! DEFINITION. Operand forms and the block's arithmetic: the DDRAM address model (R100 to R106), the signed operand `n`
(R73, R90), the floored remainder (R9, R91), the bounded strings (R114), the colour table (R155). -/

namespace Sys2Proof.Machine

/-- `addr_of(row, col)`: any row but 0 addresses row 1 (R101). -/
def addrOf (row col : Byte) : Addr :=
  if row = 0#8 then col.setWidth 7 else Config.row1Start + col.setWidth 7

/-- `rowcol_of(a)`: row bit 6, column bits 5:0 (R102). -/
def rowcolOf (a : Addr) : Nat × Nat :=
  ((a.extractLsb' 6 1).toNat, (a.extractLsb' 0 6).toNat)

/-- `valid(a)`: `a` is a DDRAM cell (R103). -/
def validAddr (a : Addr) : Bool :=
  decide ((a.extractLsb' 0 6).toNat < Config.rowCells)

/-- `lin(a)`: the cell number of an address (R104). -/
def lin (a : Addr) : Nat :=
  Config.rowCells * (rowcolOf a).1 + (rowcolOf a).2

/-- `addr_lin(c)`: the address of a cell number (R104). -/
def addrLin (c : Nat) : Addr :=
  if c < Config.rowCells then BitVec.ofNat 7 c else Config.row1Start + BitVec.ofNat 7 (c - Config.rowCells)

/-- `visible(col)` (R106). -/
def visible (col : Byte) : Bool :=
  decide (col.toNat ≤ Config.visibleMaxCol)

/-- The start of the row an address lies in (R113). -/
def rowStart (a : Addr) : Addr :=
  if a.getLsbD 6 then Config.row1Start else 0#7

/-- `|n|` (R9). -/
def magnitude (n : Int) : Nat :=
  n.natAbs

/-- `n > 0`: the direction test of CURSOR_MOVE and DISPLAY_SHIFT (R126, R131). -/
def isForward (n : Int) : Bool :=
  decide (0 < n)

/-- The step of ScrollOffset's accumulator (R131). -/
def scrollDelta (n : Int) : Int :=
  if isForward n then 1 else -1

/-- `acc mod 40`, floored, in 6 bits (R91, R131). -/
def scrollReduce (acc : Int) : BitVec 6 :=
  BitVec.ofNat 6 (acc % (Config.scrollMod : Int)).toNat

/-- The leading bytes of a string that fit a buffer (R114). -/
def bounded (cap : Nat) (str : List Byte) : List Byte :=
  str.take cap

/-- The colour table (R155): a channel value 0 lights its LED. -/
def channelsOf : ColourName → Channels
  | .black => { red := true, green := true, blue := true }
  | .red => { red := false, green := true, blue := true }
  | .yellow => { red := false, green := false, blue := true }
  | .green => { red := true, green := false, blue := true }
  | .cyan => { red := true, green := false, blue := false }
  | .blue => { red := true, green := true, blue := false }
  | .magenta => { red := false, green := true, blue := false }
  | .white => { red := false, green := false, blue := false }

/-- The byte of self-test iteration `i`, `('0' + i)[7:0]` (R143). -/
def testByte (cfg : Config) (i : Nat) : Byte :=
  cfg.chZero + BitVec.ofNat 8 i

end Sys2Proof.Machine
end

