-- ==== Sys2Proof/Machine/Ops.lean ====
section
/-! DEFINITION. The named operations over memory and registers that the meanings share: byte memory, sequencing of the
parts of an operation, acceptance of a request, the ready gate, the response and the raising of an error kind, the reset
event. -/

namespace Sys2Proof.Machine

/-! ### Byte memory -/

/-- What an unlisted address reads as. DESIGN CHOICE, unsafe (log 4): 0x20, what the clear command leaves (R57). -/
def Memory.blank : Byte := 0x20#8

/-- The byte at an address. -/
def Memory.read : Memory → Nat → Byte
  | [], _ => Memory.blank
  | (x, v) :: rest, a => if x = a then v else Memory.read rest a

/-- The memory without an entry for an address. -/
def Memory.erase : Memory → Nat → Memory
  | [], _ => []
  | (x, v) :: rest, a => if x = a then rest else (x, v) :: Memory.erase rest a

/-- The memory with an entry put at its place in the order of addresses. -/
def Memory.insert : Memory → Nat → Byte → Memory
  | [], a, b => [(a, b)]
  | (x, v) :: rest, a, b =>
    if a < x then (a, b) :: (x, v) :: rest
    else if a = x then (a, b) :: rest
    else (x, v) :: Memory.insert rest a b

/-- Store a byte, keeping the canonical form. -/
def Memory.write (m : Memory) (a : Nat) (b : Byte) : Memory :=
  if b = Memory.blank then Memory.erase m a else Memory.insert m a b

/-- The canonical form: addresses strictly rising, no entry equal to what an unlisted address reads as. -/
abbrev Memory.wf (m : Memory) : Prop :=
  List.Pairwise (fun p q => p.1 < q.1) m ∧ ∀ p ∈ m, p.2 ≠ Memory.blank

/-- Every listed address is a DDRAM cell (R36). -/
abbrev Memory.inCells (m : Memory) : Prop :=
  ∀ p ∈ m, p.1 < 128 ∧ validAddr (BitVec.ofNat 7 p.1) = true

/-! ### Sequencing -/

/-- One part of an operation after another (R92). -/
def Run.bind {α β : Type} (x : Run α) (f : α → State → Run β) : Run β :=
  match x with
  | .done a s => f a s
  | .hung s => .hung s
  | .fault e => .fault e
  | .refused e => .refused e

/-- The outcome of a whole operation: a hang is a state too, with `busy` still 1 (R44, log 7). -/
def finish : Run Unit → Host.Outcome State Fault Refusal
  | .done _ s => .next s
  | .hung s => .next s
  | .fault f => .fault f
  | .refused r => .refused r

/-- A change of the transient registers. -/
def setTr (f : Transient → Transient) (s : State) : State :=
  { s with tr := f s.tr }

/-! ### Acceptance, response, errors -/

/-- Acceptance of a request: `busy` becomes 1, the position is the operation's first call (R19, R20). -/
def accept (i : Instr) (s : State) : State :=
  { s with busy := true, pos := some { op := i, ix := 0 } }

/-- Delivery of the response: the result, in `RESW` bits, and `diag` written, `busy` back to 0, no operation, no transient
value kept (R18 to R21, R75, R170). It is also the return (R171). -/
def respond (v : Int) (d : Diag) (s : State) : State :=
  { s with result := narrow s.cfg.resw v, diag := d, busy := false, pos := none, tr := Transient.idle }

/-- `return v` (R10). -/
def ret (v : Int) (s : State) : Run Unit :=
  .done () (respond v .none s)

/-- `raise K`: the operation ends at once with the error kind and the result its rule gives; nothing is saved, no mode
switches, control goes nowhere (R10, R170). -/
def raise (d : Diag) (v : Int) (s : State) : Run Unit :=
  .done () (respond v d s)

/-- The last step of an operation whose result is a status or a sum: 0, or TransportFailure with that value (R40, R162). -/
def retStatus (st : Int) (s : State) : Run Unit :=
  if st = 0 then ret 0 s else raise .transportFailure st s

/-- The ready gate (R174): outside Ready the request is refused with NotReady, before anything else happens (R166, R169). -/
def whenReady (i : Instr) (body : State → Run Unit) (s : State) : Host.Outcome State Fault Refusal :=
  if s.fsm = .ready then finish (body (accept i s)) else .refused .notReady

/-! ### The reset event -/

/-- Reset of the block (R185): a running operation is abandoned without response, the device, the ports and everything
outside the block are not touched (R186). -/
def resetEvent (s : State) : State :=
  { s with
    fsm := State.reset.fsm, so := State.reset.so, chan := State.reset.chan, chanSet := State.reset.chanSet,
    result := State.reset.result, diag := State.reset.diag, busy := State.reset.busy, pos := State.reset.pos,
    tr := State.reset.tr, resetReq := false }

end Sys2Proof.Machine
end

