-- ==== Sys2Proof/Machine/Device.lean ====
section
/-! DEFINITION. The reference device (R55 to R63), which the spec marks as general knowledge: what a command byte, a data
byte, a read and a port write do to it. -/

namespace Sys2Proof.Machine

/-- `inc`: the next address in two-line mode (R56). -/
def incAddr (a : Addr) : Addr :=
  if a = 0x27#7 then 0x40#7 else if a = 0x67#7 then 0x00#7 else a + 1#7

/-- `dec` (R56). -/
def decAddr (a : Addr) : Addr :=
  if a = 0x00#7 then 0x67#7 else if a = 0x40#7 then 0x27#7 else a - 1#7

/-- `(shift + 1) mod 40` to the right, `(shift - 1) mod 40` to the left (R60). -/
def moveShift (right : Bool) (x : BitVec 6) : BitVec 6 :=
  if right then BitVec.ofNat 6 ((x.toNat + 1) % Config.scrollMod)
  else BitVec.ofNat 6 ((x.toNat + (Config.scrollMod - 1)) % Config.scrollMod)

/-- The reply of a call that succeeds and carries no value. -/
def Reply.zero : Reply :=
  { status := 0, byte := 0#8, addr := 0#7 }

/-- The byte at a DDRAM address (R36). -/
def Device.cell (d : Device) (a : Addr) : Byte :=
  d.ddram.read a.toNat

/-- What each command class does (R57 to R61). -/
def Device.run (d : Device) (c : Command) : DeviceAnswer :=
  match c with
  | .clear => .ok Reply.zero { d with ddram := [], ac := 0#7, shift := 0#6, idinc := true }
  | .home => .ok Reply.zero { d with ac := 0#7, shift := 0#6 }
  | .entryMode i s => .ok Reply.zero { d with idinc := i, sdisp := s }
  | .displayCtrl x y z => .ok Reply.zero { d with dcb := BitVec.ofBool x ++ BitVec.ofBool y ++ BitVec.ofBool z }
  | .cursorShift right => .ok Reply.zero { d with ac := if right then incAddr d.ac else decAddr d.ac }
  | .displayShift right => .ok Reply.zero { d with shift := moveShift right d.shift }
  | .functionSet l n f => .ok Reply.zero { d with fn := BitVec.ofBool l ++ BitVec.ofBool n ++ BitVec.ofBool f }
  | .setDdram a => if validAddr a then .ok Reply.zero { d with ac := a } else .refused .deviceAddress

/-- `T.write_control(b)` on the device: the byte's class, nothing for 0x00, a refusal for set-CGRAM (R59, R61, R80). -/
def Device.control (d : Device) (b : Byte) : DeviceAnswer :=
  match decodeCommand b with
  | .ok c => d.run c
  | .error .noClass => .ok Reply.zero d
  | .error .cgram => .refused .deviceCgram

/-- Whether the device is in the modes it is defined for, `idinc` = 1 and `sdisp` = 0 (R59, log 11). -/
def Device.modeOk (d : Device) : Bool :=
  d.idinc && !d.sdisp

/-- `T.write_data(v)`: the byte goes to the cell at AC, AC advances (R61). -/
def Device.writeData (d : Device) (v : Byte) : DeviceAnswer :=
  if d.modeOk then
    if validAddr d.ac then .ok Reply.zero { d with ddram := d.ddram.write d.ac.toNat v, ac := incAddr d.ac }
    else .fault .ddramHole
  else .refused .deviceMode

/-- `T.read_data()`: the byte of the cell at AC, AC advances (R62); the fixtures' counter counts the call (R63). -/
def Device.readData (d : Device) : DeviceAnswer :=
  if d.modeOk then
    if validAddr d.ac then
      .ok { Reply.zero with byte := d.cell d.ac } { d with ac := incAddr d.ac, rdCount := d.rdCount + 1 }
    else .fault .ddramHole
  else .refused .deviceMode

/-- The device's answer to a transport call (R55 to R62). -/
def Device.answer (d : Device) (c : Call) : DeviceAnswer :=
  match c with
  | .writeControl b => d.control b
  | .writeData b => d.writeData b
  | .readData => d.readData
  | .readAddress => .ok { Reply.zero with addr := d.ac } d
  | .busyWait => .ok Reply.zero d
  | .writePort0 r g => .ok Reply.zero { d with port0 := (r, g) }
  | .writePort1 b => .ok Reply.zero { d with port1 := b }

/-- Whether a call is a write call (R63). -/
def Call.isWrite : Call → Bool
  | .writeControl _ | .writeData _ | .writePort0 _ _ | .writePort1 _ => true
  | .readData | .readAddress | .busyWait => false

/-- How a fixture changes the reply; `n` is the number of `T.read_data()` calls before this one (R63). -/
def Fixture.distort (fx : Fixture) (n : Nat) (c : Call) (r : Reply) : Reply :=
  match fx with
  | .good | .hangs _ => r
  | .bad calls => if c = .readData ∧ n ∈ calls then { r with byte := r.byte ^^^ 1#8 } else r
  | .stuck => if c = .readAddress then { r with addr := 0#7 } else r
  | .failing => if c.isWrite then { r with status := -1 } else r

end Sys2Proof.Machine
end

