-- ==== Sys2Proof/Machine/Transport.lean ====
section
/-! DEFINITION. The transport interface (R39 to R44, R48): how the block issues a call and what comes back, from an
arbitrary oracle or from the reference device. -/

namespace Sys2Proof.Machine

/-- A call goes out: it is recorded, and the position moves past it (R20, R48). DESIGN CHOICE, unsafe (log 23): the index
counts every call issued in the run so far, those of a loop's iterations too, and it moves when the call goes out, before it
returns. -/
def issue (c : Call) (s : State) : State :=
  { s with calls := s.calls ++ [c], pos := s.pos.map (fun p => { p with ix := p.ix + 1 }) }

/-- An oracle answers with its next reply, whatever it is, or never (R41, R44). DESIGN CHOICE, unsafe (log 25): `dev` is not
the device behind an oracle; the call leaves that record as it was, and what the real device then holds (U4, U6) is not in
the state. -/
def oracleCall (s : State) : Run Reply :=
  match s.replies with
  | some r :: rest => .done r { s with replies := rest }
  | none :: rest => .hung { s with replies := rest }
  | [] => .hung s

/-- The reference device answers through a fixture (R55, R63). -/
def deviceCall (fx : Fixture) (c : Call) (s : State) : Run Reply :=
  match s.dev.answer c with
  | .ok r d => .done (fx.distort s.dev.rdCount c r) { s with dev := d }
  | .fault f => .fault f
  | .refused r => .refused r

/-- A device that answers `n` more calls and never returns from the next; it is the good device after that one (log 17). -/
def hangingCall (n : Nat) (c : Call) (s : State) : Run Reply :=
  match n with
  | 0 => .hung { s with link := .device .good }
  | k + 1 => deviceCall .good c { s with link := .device (.hangs k) }

/-- A transport call (R39): issued, then answered. -/
def call (c : Call) (s : State) : Run Reply :=
  match s.link with
  | .oracle => oracleCall (issue c s)
  | .device (.hangs n) => hangingCall n c (issue c s)
  | .device fx => deviceCall fx c (issue c s)

/-- `T.write_control(b)`, yielding its status in `RESW` bits (R40). -/
def writeControl (b : Byte) (s : State) : Run Int :=
  (call (.writeControl b) s).bind fun r s1 => .done (narrow s1.cfg.resw r.status) s1

/-- `T.write_data(b)`, yielding its status in `RESW` bits (R40). -/
def writeData (b : Byte) (s : State) : Run Int :=
  (call (.writeData b) s).bind fun r s1 => .done (narrow s1.cfg.resw r.status) s1

/-- `T.read_data()`. -/
def readData (s : State) : Run Byte :=
  (call .readData s).bind fun r s1 => .done r.byte s1

/-- `T.read_address()`, the current-address query (R105). -/
def readAddress (s : State) : Run Addr :=
  (call .readAddress s).bind fun r s1 => .done r.addr s1

/-- `T.busy_wait()` (R43, R49). -/
def busyWait (s : State) : Run Unit :=
  (call .busyWait s).bind fun _ s1 => .done () s1

/-- `T.write_port(0, (RED, GREEN))` (R42). -/
def writePort0 (red green : Bool) (s : State) : Run Int :=
  (call (.writePort0 red green) s).bind fun r s1 => .done (narrow s1.cfg.resw r.status) s1

/-- `T.write_port(1, (BLUE))` (R42). -/
def writePort1 (blue : Bool) (s : State) : Run Int :=
  (call (.writePort1 blue) s).bind fun r s1 => .done (narrow s1.cfg.resw r.status) s1

/-- CLEAR_SEQ (R133): the clear command, `so <- 0` whatever its status, then the one busy-wait. -/
def clearSeq (s : State) : Run Int :=
  (writeControl s.cfg.cmd.clear s).bind fun st s1 =>
    (busyWait { setTr (fun t => { t with s := st }) s1 with so := 0#6 }).bind fun _ s2 => .done st s2

/-- NEWLINE (R116): one set-address command to the start of row 1, nothing else. -/
def newline (s : State) : Run Int :=
  writeControl (setAddressByte s.cfg.cmd Config.row1Start) s

end Sys2Proof.Machine
end

