-- ==== Sys2Proof/Machine/Colour.lean ====
section
/-! DEFINITION. Colour State: SET_COLOUR (R155 to R158). -/

namespace Sys2Proof.Machine

/-- `chan` takes the selection, before the pushes and for good (R156). -/
def selectColour (c : Channels) (s : State) : State :=
  { s with chan := c, chanSet := true }

/-- Both ports are written, port 0 first, whatever the first status (R156). -/
def pushColour (c : Channels) (s : State) : Run Unit :=
  (writePort0 c.red c.green s).bind fun st0 s1 =>
    (writePort1 c.blue (setTr (fun t => { t with s := st0, sum := st0 }) s1)).bind fun st1 s2 =>
      .done () (setTr (fun t => { t with s := st1, sum := narrow s2.cfg.resw (t.sum + st1) }) s2)

/-- SET_COLOUR (R156): the summed status of the two port writes. -/
def execSetColour (name : ColourName) (s : State) : Host.Outcome State Fault Refusal :=
  whenReady (.setColour name)
    (fun s0 => (pushColour (channelsOf name) (selectColour (channelsOf name) s0)).bind fun _ s1 =>
      retStatus s1.tr.sum s1) s

end Sys2Proof.Machine
end

