-- ==== Sys2Proof/Machine/Command.lean ====
section
/-! DEFINITION. The device's command bytes as instructions of the device (R57 to R61, R80 to R82, log 9). -/

namespace Sys2Proof.Machine

/-- What the device made of a command becomes the step's outcome: only the device changes. -/
def deviceOutcome (x : DeviceAnswer) (s : State) : Host.Outcome State Fault Refusal :=
  match x with
  | .ok _ d => .next { s with dev := d }
  | .fault f => .fault f
  | .refused r => .refused r

/-- CMD_CLEAR (R57). -/
def execCmdClear (s : State) : Host.Outcome State Fault Refusal :=
  deviceOutcome (s.dev.run .clear) s

/-- CMD_HOME (R58). -/
def execCmdHome (s : State) : Host.Outcome State Fault Refusal :=
  deviceOutcome (s.dev.run .home) s

/-- CMD_BOOTSTRAP: the parameter byte, which the device reads by its class (R80, R81). -/
def execCmdBootstrap (s : State) : Host.Outcome State Fault Refusal :=
  deviceOutcome (s.dev.control s.cfg.cmd.bootstrap) s

/-- CMD_ENTRY_MODE (R59). -/
def execCmdEntryMode (inc shift : Bool) (s : State) : Host.Outcome State Fault Refusal :=
  deviceOutcome (s.dev.run (.entryMode inc shift)) s

/-- CMD_DISPLAY_CTRL (R59). -/
def execCmdDisplayCtrl (disp cursor blink : Bool) (s : State) : Host.Outcome State Fault Refusal :=
  deviceOutcome (s.dev.run (.displayCtrl disp cursor blink)) s

/-- CMD_CURSOR_LEFT (R60). -/
def execCmdCursorLeft (s : State) : Host.Outcome State Fault Refusal :=
  deviceOutcome (s.dev.run (.cursorShift false)) s

/-- CMD_CURSOR_RIGHT (R60). -/
def execCmdCursorRight (s : State) : Host.Outcome State Fault Refusal :=
  deviceOutcome (s.dev.run (.cursorShift true)) s

/-- CMD_SHIFT_LEFT (R60). -/
def execCmdShiftLeft (s : State) : Host.Outcome State Fault Refusal :=
  deviceOutcome (s.dev.run (.displayShift false)) s

/-- CMD_SHIFT_RIGHT (R60). -/
def execCmdShiftRight (s : State) : Host.Outcome State Fault Refusal :=
  deviceOutcome (s.dev.run (.displayShift true)) s

/-- CMD_FUNCTION_SET (R59). -/
def execCmdFunctionSet (len lines font : Bool) (s : State) : Host.Outcome State Fault Refusal :=
  deviceOutcome (s.dev.run (.functionSet len lines font)) s

/-- CMD_SET_DDRAM (R61). -/
def execCmdSetDdram (a : Addr) (s : State) : Host.Outcome State Fault Refusal :=
  deviceOutcome (s.dev.run (.setDdram a)) s

end Sys2Proof.Machine
end

