-- ==== Sys2Proof/Machine/Cursor.lean ====
section
/-! DEFINITION. The Cursor and Scroll Tracker: CURSOR_MOVE, CURSOR_GOTO, DISPLAY_SHIFT, CLEAR, HOME (R125 to R136). -/

namespace Sys2Proof.Machine

/-! ### CURSOR_MOVE -/

/-- The single-step command of a cursor move (R126). -/
def cursorByte (cfg : Config) (n : Int) : Byte :=
  if isForward n then cfg.cmd.cursorRight else cfg.cmd.cursorLeft

/-- `repeat k times: T.write_control(c)`, the register `k` counting down (R21, R126). DESIGN CHOICE, unsafe (log 24): `k`
goes down after the call has returned, so while a call is outstanding `k` still counts its step. -/
def repeatControl (c : Byte) : Nat → State → Run Unit
  | 0, s => .done () s
  | n + 1, s => (writeControl c s).bind fun _ s1 => repeatControl c n (setTr (fun t => { t with k := n }) s1)

/-- CURSOR_MOVE (R126): `|n|` steps, then the address read back. -/
def execCursorMove (n : Int) (s : State) : Host.Outcome State Fault Refusal :=
  whenReady (.cursorMove n)
    (fun s0 => (repeatControl (cursorByte s0.cfg n) (magnitude n)
        (setTr (fun t => { t with k := magnitude n }) s0)).bind fun _ s1 =>
      (readAddress s1).bind fun a s2 => ret (a.toNat : Int) (setTr (fun t => { t with a := a }) s2)) s

/-! ### CURSOR_GOTO -/

/-- What CURSOR_GOTO answers to the address read back: the consistency check comes before the visibility code (R128). -/
def gotoAnswer (col : Byte) (s : State) : Run Unit :=
  if s.tr.a = s.tr.tgt then
    if visible col then ret 0 s else ret 1 s
  else raise .addressConsistencyError (-1) s

/-- CURSOR_GOTO (R127, R128). -/
def execCursorGoto (row col : Byte) (s : State) : Host.Outcome State Fault Refusal :=
  whenReady (.cursorGoto row col)
    (fun s0 =>
      if gotoInvalid row col then raise .validationError (-1) s0
      else
        (writeControl (setAddressByte s0.cfg.cmd (addrOf row col))
            (setTr (fun t => { t with tgt := addrOf row col }) s0)).bind fun _ s1 =>
          (readAddress s1).bind fun a s2 => gotoAnswer col (setTr (fun t => { t with a := a }) s2)) s

/-! ### DISPLAY_SHIFT -/

/-- The single-step command of a display shift (R130, R131). -/
def shiftByte (cfg : Config) (n : Int) : Byte :=
  if isForward n then cfg.cmd.shiftRight else cfg.cmd.shiftLeft

/-- `repeat k times`: the command, then the accumulator's step (R131). DESIGN CHOICE, unsafe (log 24): `k` goes down
together with that step, after the call has returned. -/
def repeatShift (c : Byte) (d : Int) : Nat → State → Run Unit
  | 0, s => .done () s
  | n + 1, s =>
    (writeControl c s).bind fun _ s1 => repeatShift c d n (setTr (fun t => { t with k := n, acc := t.acc + d }) s1)

/-- `so <- acc mod 40`, and the new offset is the result (R131). -/
def storeScroll (s : State) : Run Unit :=
  ret ((scrollReduce s.tr.acc).toNat : Int) { s with so := scrollReduce s.tr.acc }

/-- DISPLAY_SHIFT (R131). -/
def execDisplayShift (n : Int) (s : State) : Host.Outcome State Fault Refusal :=
  whenReady (.displayShift n)
    (fun s0 => (repeatShift (shiftByte s0.cfg n) (scrollDelta n) (magnitude n)
        (setTr (fun t => { t with acc := s0.so.toNat, k := magnitude n }) s0)).bind fun _ s1 => storeScroll s1) s

/-! ### CLEAR and HOME -/

/-- CLEAR (R134): the status of the clear command, unchanged. -/
def execClear (s : State) : Host.Outcome State Fault Refusal :=
  whenReady .clear (fun s0 => (clearSeq s0).bind fun st s1 => retStatus st s1) s

/-- HOME (R135): as CLEAR with the home command, and no busy-wait. -/
def execHome (s : State) : Host.Outcome State Fault Refusal :=
  whenReady .home
    (fun s0 => (writeControl s0.cfg.cmd.home s0).bind fun st s1 =>
      retStatus st { setTr (fun t => { t with s := st }) s1 with so := 0#6 }) s

end Sys2Proof.Machine
end

