-- ==== Sys2Proof/Machine/Init.lean ====
section
/-! DEFINITION. Self-Test and Initialization: INIT and the four-state machine (R140 to R150). -/

namespace Sys2Proof.Machine

/-- The mode programming: four command writes, their statuses not examined, no waits (R142). -/
def programModes (s : State) : Run Unit :=
  (writeControl s.cfg.cmd.bootstrap s).bind fun _ s1 =>
    (writeControl s1.cfg.cmd.functionSet s1).bind fun _ s2 =>
      (writeControl s2.cfg.cmd.displayCtrl s2).bind fun _ s3 =>
        (writeControl s3.cfg.cmd.entryMode s3).bind fun _ s4 => .done () s4

/-- The byte of the iteration that register `i` counts enters `w` (R143). -/
def loadTestByte (s : State) : State :=
  setTr (fun t => { t with w := testByte s.cfg t.i }) s

/-- The byte read back enters `r`; a match counts; the next iteration (R143, R144). -/
def countMatch (r : Byte) (s : State) : State :=
  setTr (fun t => { t with r := r, cnt := if selfTestMatch t.i t.w r then t.cnt + 1 else t.cnt, i := t.i + 1 }) s

/-- One iteration of the self-test: write, step back, read, compare (R143). -/
def selfTestRound (s : State) : Run Unit :=
  (writeData (testByte s.cfg s.tr.i) (loadTestByte s)).bind fun _ s1 =>
    (writeControl s1.cfg.cmd.cursorLeft s1).bind fun _ s2 =>
      (readData s2).bind fun r s3 => .done () (countMatch r s3)

/-- `n` iterations, never leaving early (R143). -/
def selfTestLoop : Nat → State → Run Unit
  | 0, s => .done () s
  | n + 1, s => (selfTestRound s).bind fun _ s1 => selfTestLoop n s1

/-- The pass (R145): the display cleared again, Ready, result 0. -/
def initPass (s : State) : Run Unit :=
  (clearSeq s).bind fun _ s1 => ret 0 { s1 with fsm := .ready }

/-- The failure (R146): through Failed back to Uninitialized, SelfTestFailure, no further call. -/
def initFail (s : State) : Run Unit :=
  raise .selfTestFailure (-1) { { s with fsm := .failed } with fsm := .uninitialized }

/-- The phases of INIT after its entry (R149). -/
def initPhases (s : State) : Run Unit :=
  (programModes s).bind fun _ s1 =>
    (clearSeq s1).bind fun _ s2 =>
      (selfTestLoop Config.selfTestIters (setTr (fun t => { t with cnt := 0, i := 0 }) s2)).bind fun _ s3 =>
        if s3.tr.cnt = Config.selfTestPass then initPass s3 else initFail s3

/-- INIT (R141, R149): nothing but the answer 0 when already Ready, else the whole initialization; it runs in either
resting mode (R174). -/
def execInit (s : State) : Host.Outcome State Fault Refusal :=
  if s.fsm = .ready then finish (ret 0 (accept .init s))
  else finish (initPhases { accept .init s with fsm := .selfTesting })

end Sys2Proof.Machine
end

