-- ==== Sys2Proof/Machine/Output.lean ====
section
/-! DEFINITION. The Character Output Engine: EMIT, EMIT_LINE_CLEAR, EMIT_FORMATTED, EMIT_WRAPPED (R110 to R119). -/

namespace Sys2Proof.Machine

/-! ### EMIT -/

/-- The two control bytes, which EMIT does not tell apart (R111). -/
def isControl (cfg : Config) (b : Byte) : Bool :=
  decide (b = cfg.chCr) || decide (b = cfg.chLf)

/-- The body of EMIT up to its status (R112): NEWLINE for the two control bytes, else one data write. -/
def emitWrite (b : Byte) (s : State) : Run Int :=
  (if isControl s.cfg b then newline s else writeData b s).bind fun st s1 =>
    .done st (setTr (fun t => { t with s := st }) s1)

/-- EMIT (R112): the byte's value, or EOF with TransportFailure. -/
def execEmit (b : Byte) (s : State) : Host.Outcome State Fault Refusal :=
  whenReady (.emit b)
    (fun s0 => (emitWrite b s0).bind fun st s1 =>
      if st = 0 then ret (b.toNat : Int) s1 else raise .transportFailure s1.cfg.eof s1) s

/-! ### EMIT_LINE_CLEAR -/

/-- `sum <- add(sum, st)`, which wraps in `RESW` bits (R40, R90). -/
def addStatus (st : Int) (s : State) : State :=
  setTr (fun t => { t with sum := narrow s.cfg.resw (t.sum + st) }) s

/-- Phase 2 (R113): `n` spaces, their statuses added up. -/
def blankCells : Nat → State → Run Unit
  | 0, s => .done () s
  | n + 1, s => (writeData s.cfg.chSpace s).bind fun st s1 => blankCells n (addStatus st s1)

/-- The three phases home, blank, home (R113), after the address has been read. -/
def lineClearPhases (s : State) : Run Unit :=
  (writeControl (setAddressByte s.cfg.cmd s.tr.tgt) s).bind fun st s1 =>
    (blankCells Config.lcdLength (setTr (fun t => { t with sum := st }) s1)).bind fun _ s2 =>
      (writeControl (setAddressByte s2.cfg.cmd s2.tr.tgt) s2).bind fun st3 s3 => .done () (addStatus st3 s3)

/-- EMIT_LINE_CLEAR (R113). -/
def execEmitLineClear (s : State) : Host.Outcome State Fault Refusal :=
  whenReady .emitLineClear
    (fun s0 => (readAddress s0).bind fun a s1 =>
      (lineClearPhases (setTr (fun t => { t with a := a, tgt := rowStart a }) s1)).bind fun _ s2 =>
        retStatus s2.tr.sum s2) s

/-! ### EMIT_FORMATTED -/

/-- The bytes of the buffer, each through the body of EMIT, its result dropped (R115). -/
def emitAll : List Byte → State → Run Unit
  | [], s => .done () s
  | b :: rest, s => (emitWrite b s).bind fun _ s1 => emitAll rest (setTr (fun t => { t with j := t.j + 1 }) s1)

/-- The bounded string enters the buffer (R114): `j` = 0, `m` = the number of bytes to process. -/
def loadBuffer (buf : List Byte) (s : State) : State :=
  setTr (fun t => { t with j := 0, m := buf.length, buf := buf }) s

/-- EMIT_FORMATTED (R115). -/
def execEmitFormatted (str : List Byte) (s : State) : Host.Outcome State Fault Refusal :=
  whenReady (.emitFormatted str)
    (fun s0 => (emitAll (bounded Config.fmtLen str) (loadBuffer (bounded Config.fmtLen str) s0)).bind fun _ s1 =>
      ret (s1.tr.m : Int) s1) s

/-! ### EMIT_WRAPPED -/

/-- The forced newline, right after the 16th character and at no other place (R117). -/
def wrapAfter (s : State) : Run Unit :=
  if s.tr.j + 1 = Config.lcdLength then (newline s).bind fun _ s1 => .done () s1 else .done () s

/-- The bytes of the buffer as raw data writes, with the forced newline (R117). -/
def writeWrapped : List Byte → State → Run Unit
  | [], s => .done () s
  | b :: rest, s =>
    (writeData b s).bind fun _ s1 =>
      (wrapAfter s1).bind fun _ s2 => writeWrapped rest (setTr (fun t => { t with j := t.j + 1 }) s2)

/-- EMIT_WRAPPED (R117): the clear, then the wrapped string. -/
def execEmitWrapped (str : List Byte) (s : State) : Host.Outcome State Fault Refusal :=
  whenReady (.emitWrapped str)
    (fun s0 => (clearSeq s0).bind fun _ s1 =>
      (writeWrapped (bounded Config.wrapLen str) (loadBuffer (bounded Config.wrapLen str) s1)).bind fun _ s2 =>
        ret (s2.tr.m : Int) s2) s

end Sys2Proof.Machine
end

