-- ==== Sys2Proof/Machine/Dispatch.lean ====
section
/-! DEFINITION. One arm per constructor of `Instr`. -/

namespace Sys2Proof.Machine

def exec (i : Instr) (s : State) : Host.Outcome State Fault Refusal :=
  match i with
  | .init => Sys2Proof.Machine.execInit s
  | .clear => Sys2Proof.Machine.execClear s
  | .home => Sys2Proof.Machine.execHome s
  | .emit b => Sys2Proof.Machine.execEmit b s
  | .emitLineClear => Sys2Proof.Machine.execEmitLineClear s
  | .emitFormatted str => Sys2Proof.Machine.execEmitFormatted str s
  | .emitWrapped str => Sys2Proof.Machine.execEmitWrapped str s
  | .cursorMove n => Sys2Proof.Machine.execCursorMove n s
  | .cursorGoto row col => Sys2Proof.Machine.execCursorGoto row col s
  | .displayShift n => Sys2Proof.Machine.execDisplayShift n s
  | .setColour name => Sys2Proof.Machine.execSetColour name s
  | .cmdClear => Sys2Proof.Machine.execCmdClear s
  | .cmdHome => Sys2Proof.Machine.execCmdHome s
  | .cmdBootstrap => Sys2Proof.Machine.execCmdBootstrap s
  | .cmdEntryMode inc shift => Sys2Proof.Machine.execCmdEntryMode inc shift s
  | .cmdDisplayCtrl disp cursor blink => Sys2Proof.Machine.execCmdDisplayCtrl disp cursor blink s
  | .cmdCursorLeft => Sys2Proof.Machine.execCmdCursorLeft s
  | .cmdCursorRight => Sys2Proof.Machine.execCmdCursorRight s
  | .cmdShiftLeft => Sys2Proof.Machine.execCmdShiftLeft s
  | .cmdShiftRight => Sys2Proof.Machine.execCmdShiftRight s
  | .cmdFunctionSet len lines font => Sys2Proof.Machine.execCmdFunctionSet len lines font s
  | .cmdSetDdram a => Sys2Proof.Machine.execCmdSetDdram a s

end Sys2Proof.Machine
end

