-- ==== Sys2Proof/Machine/Fetch.lean ====
section
/-! DEFINITION. What the next step has to do: which agent is enabled, which instruction it takes and from where.
The order (log 9, log 13): the reset event; a block stuck in a call; a byte at the device's command register; a request;
else the block waits. -/

namespace Sys2Proof.Machine

/-- What a step finds. -/
inductive Fetched where
  /-- A step without an instruction: the reset event, a command byte of no class, or waiting. -/
  | skip (s : State)
  /-- The instruction `i`, taken from its port. -/
  | run (i : Instr) (s : State)
  | fault (f : Fault)
  | refused (r : Refusal)
  deriving DecidableEq, Repr

/-- A byte at the device's command register (R59, R61, R80). -/
def fetchCommand (b : Byte) (s : State) : Fetched :=
  match decodeCommand b with
  | .ok c => .run c.toInstr { s with command := none }
  | .error .noClass => .skip { s with command := none }
  | .error .cgram => .refused .deviceCgram

/-- The bytes at the request port (R70, R78, R79): nothing there, and the block waits (R185). -/
def fetchRequest (s : State) : Fetched :=
  match s.port with
  | [] => .skip s
  | b :: rest =>
    match decode s.cfg (b :: rest) with
    | .ok (i, after) => .run i { s with port := after }
    | .error _ => .refused .illegalRequest

/-- What the next step finds. -/
def fetch (s : State) : Fetched :=
  if s.resetReq then .skip (resetEvent s)
  else if s.busy then .fault .stuck
  else
    match s.command with
    | some b => fetchCommand b s
    | none => fetchRequest s

/-- The state with a table word standing where the next step takes its instruction (log 8): the bytes of the request it
holds at the request port. DESIGN CHOICE, safe (log 10): where it holds no request, a word of one byte stands at the device's
command register, and a longer one at the request port, where the step refuses it (R78). -/
def placeWord (s : State) (nbits w : Nat) : State :=
  match decode s.cfg (paddedBytes s.cfg nbits w) with
  | .ok (_, after) =>
    { s with
      resetReq := false, command := none,
      port := (paddedBytes s.cfg nbits w).take ((paddedBytes s.cfg nbits w).length - after.length) }
  | .error _ =>
    if nbits ≤ 8 then { s with resetReq := false, command := some (BitVec.ofNat 8 w) }
    else { s with resetReq := false, command := none, port := paddedBytes s.cfg nbits w }

end Sys2Proof.Machine
end

