-- ==== Sys2Proof/Machine/Step.lean ====
section
/-! DEFINITION. One step: one whole request, one device command, one reset event, or waiting (log 7). -/

namespace Sys2Proof.Machine

/-- One step of the machine. -/
def step (s : State) : Host.Outcome State Fault Refusal :=
  match fetch s with
  | .skip s1 => .next s1
  | .run i s1 => exec i s1
  | .fault f => .fault f
  | .refused r => .refused r

/-- The state with an instruction word where `step` takes its next instruction (log 8, log 10). -/
def State.withFetchWord (s : State) (nbits w : Nat) : State :=
  placeWord s nbits w

end Sys2Proof.Machine
end

