-- ==== Sys2Proof/Safety.lean ====
section
/-! DEFINITION. What counts as a safe run, in the terms claims use: the premises on the transport, the response an
operation leaves, the expected traces of calls, and the machine's invariant. -/

namespace Sys2Proof.Machine

/-! ### Premises -/

/-- Nothing stands in the way of a request: no reset event, no operation running, no byte for the device. -/
structure State.Open (s : State) : Prop where
  noReset   : s.resetReq = false
  notBusy   : s.busy = false
  noCommand : s.command = none

/-- The transport is an oracle whose next answers are `rs`, and then `rest` (R41). -/
structure State.Answers (s : State) (rs : List Reply) (rest : List (Option Reply)) : Prop where
  link    : s.link = .oracle
  replies : s.replies = rs.map some ++ rest

/-- The transport is an oracle that answers `rs` and never returns from the call after those (R41, R44). -/
structure State.HangsAfter (s : State) (rs : List Reply) : Prop where
  link    : s.link = .oracle
  replies : s.replies = rs.map some ∨ ∃ rest, s.replies = rs.map some ++ none :: rest

/-- The transport is the good reference device, in the modes it is defined for and at a cell (R55, R59). -/
structure State.OnDevice (s : State) : Prop where
  link  : s.link = .device .good
  mode  : s.dev.modeOk = true
  valid : validAddr s.dev.ac = true

/-! ### What an operation leaves -/

/-- The state after a response: the calls `cs` made, the response `v`, in `RESW` bits, and `d` delivered, everything else as
in `s` (R18 to R21, R75, R170). -/
def State.responded (s : State) (cs : List Call) (v : Int) (d : Diag) : State :=
  { s with
    calls := s.calls ++ cs, result := narrow s.cfg.resw v, diag := d, busy := false, pos := none, tr := Transient.idle }

/-- The sum of statuses, which wraps in `RESW` bits (R40). -/
def sumStatus (cfg : Config) (rs : List Reply) : Int :=
  narrow cfg.resw (rs.map Reply.status).sum

/-- `so` in a request that `n` calls have answered and that is stuck in the next: the clear sequence writes it between its
command and its busy-wait, HOME and DISPLAY_SHIFT write it after their last call (R131, R133, R135, R142, R143). -/
def hungSo (i : Instr) (n : Nat) (so : BitVec 6) : BitVec 6 :=
  match i with
  | .init => if n < 5 then so else 0#6
  | .clear | .emitWrapped _ => if n < 1 then so else 0#6
  | .home | .emit _ | .emitLineClear | .emitFormatted _ | .cursorMove _ | .cursorGoto _ _ => so
  | .displayShift _ | .setColour _ => so
  | .cmdClear | .cmdHome | .cmdBootstrap | .cmdEntryMode _ _ | .cmdDisplayCtrl _ _ _ => so
  | .cmdCursorLeft | .cmdCursorRight | .cmdShiftLeft | .cmdShiftRight => so
  | .cmdFunctionSet _ _ _ | .cmdSetDdram _ => so

/-! ### Expected traces (R119, R136, R149) -/

/-- The call of EMIT for one byte (R112, R116). -/
def emitCall (cfg : Config) (b : Byte) : Call :=
  if b = cfg.chCr ∨ b = cfg.chLf then .writeControl (setAddressByte cfg.cmd Config.row1Start) else .writeData b

/-- The calls of CLEAR_SEQ (R133). -/
def clearCalls (cfg : Config) : List Call :=
  [.writeControl cfg.cmd.clear, .busyWait]

/-- The data writes of EMIT_WRAPPED with the one forced newline after the 16th (R117). -/
def wrapCalls (cfg : Config) (str : List Byte) : List Call :=
  (str.take 16).map .writeData
    ++ (if 16 ≤ str.length then [.writeControl (setAddressByte cfg.cmd Config.row1Start)] else [])
    ++ (str.drop 16).map .writeData

/-- The three calls of self-test iteration `i` (R143). -/
def roundCalls (cfg : Config) (i : Nat) : List Call :=
  [.writeData (cfg.chZero + BitVec.ofNat 8 i), .writeControl cfg.cmd.cursorLeft, .readData]

/-- The calls of INIT up to the end of the self-test (R149). -/
def initCalls (cfg : Config) : List Call :=
  [.writeControl cfg.cmd.bootstrap, .writeControl cfg.cmd.functionSet, .writeControl cfg.cmd.displayCtrl,
    .writeControl cfg.cmd.entryMode] ++ clearCalls cfg ++ (List.range 81).flatMap (roundCalls cfg)

/-- The home, blank, home calls of EMIT_LINE_CLEAR in the row that the address `a` lies in (R113). -/
def lineClearCalls (cfg : Config) (a : Addr) : List Call :=
  [.writeControl (setAddressByte cfg.cmd (if a.getLsbD 6 then 0x40#7 else 0x00#7))]
    ++ List.replicate 16 (.writeData cfg.chSpace)
    ++ [.writeControl (setAddressByte cfg.cmd (if a.getLsbD 6 then 0x40#7 else 0x00#7))]

/-- All the calls of a request that passes its gate, in issue order, when the transport's answers begin with `rs`: only
EMIT_LINE_CLEAR looks at one of them (R119, R136, R149, R156). INIT's are those of a self-test that passes. -/
def requestCalls (cfg : Config) (i : Instr) (rs : List Reply) : List Call :=
  match i with
  | .init => initCalls cfg ++ clearCalls cfg
  | .clear => clearCalls cfg
  | .home => [.writeControl cfg.cmd.home]
  | .emit b => [emitCall cfg b]
  | .emitLineClear => .readAddress :: lineClearCalls cfg (rs.getD 0 Reply.zero).addr
  | .emitFormatted str => (str.take 80).map (emitCall cfg)
  | .emitWrapped str => clearCalls cfg ++ wrapCalls cfg (str.take 32)
  | .cursorMove n =>
    List.replicate n.natAbs (.writeControl (if 0 < n then cfg.cmd.cursorRight else cfg.cmd.cursorLeft)) ++ [.readAddress]
  | .cursorGoto row col =>
    if 39 < col.toNat ∨ 2 < row.toNat then []
    else [.writeControl (setAddressByte cfg.cmd (addrOf row col)), .readAddress]
  | .displayShift n =>
    List.replicate n.natAbs (.writeControl (if 0 < n then cfg.cmd.shiftRight else cfg.cmd.shiftLeft))
  | .setColour name =>
    [.writePort0 (channelsOf name).red (channelsOf name).green, .writePort1 (channelsOf name).blue]
  | .cmdClear | .cmdHome | .cmdBootstrap | .cmdEntryMode _ _ | .cmdDisplayCtrl _ _ _ => []
  | .cmdCursorLeft | .cmdCursorRight | .cmdShiftLeft | .cmdShiftRight => []
  | .cmdFunctionSet _ _ _ | .cmdSetDdram _ => []

/-- The byte that INIT's self-test reads in iteration `i`, among the answers from its first call on: six calls come before
the loop, and the read is the third of its iteration (R149). -/
def echoOf (rs : List Reply) (i : Nat) : Byte :=
  (rs.getD (8 + 3 * i) Reply.zero).byte

/-- The command bytes the block may send (R84, with the bytes of R81): those of the record, and the set-address command of
a DDRAM cell. -/
def Sendable (b : Byte) : Prop :=
  b ∈ [0x02#8, 0x28#8, 0x0F#8, 0x06#8, 0x01#8, 0x10#8, 0x14#8, 0x18#8, 0x1C#8]
    ∨ ∃ a : Addr, validAddr a = true ∧ b = setDdramByte a

/-- The error kinds an operation's response can carry (R161). -/
def allowedDiag : Instr → List Diag
  | .init => [.none, .selfTestFailure]
  | .clear | .home | .emit _ | .emitLineClear | .setColour _ => [.none, .transportFailure]
  | .emitFormatted _ | .emitWrapped _ | .cursorMove _ | .displayShift _ => [.none]
  | .cursorGoto _ _ => [.none, .addressConsistencyError, .validationError]
  | .cmdClear | .cmdHome | .cmdBootstrap | .cmdEntryMode _ _ | .cmdDisplayCtrl _ _ _ => []
  | .cmdCursorLeft | .cmdCursorRight | .cmdShiftLeft | .cmdShiftRight => []
  | .cmdFunctionSet _ _ _ | .cmdSetDdram _ => []

/-! ### Text on the reference device -/

/-- Where a text lands that is fed to EMIT from an address on: the address after it (R56, R111, R115). -/
def textEnd (cfg : Config) : List Byte → Addr → Addr
  | [], a => a
  | b :: rest, a => textEnd cfg rest (if isControl cfg b then Config.row1Start else incAddr a)

/-- What a cell holds after such a text: the last byte put there, else what it held (R36, R61, R115). -/
def textCell (cfg : Config) : List Byte → Addr → Addr → Byte → Byte
  | [], _, _, old => old
  | b :: rest, a, x, old =>
    if isControl cfg b then textCell cfg rest Config.row1Start x old
    else textCell cfg rest (incAddr a) x (if x = a then b else old)

/-! ### The invariant -/

/-- The ranges of the transient registers (R21): `k` to half of `2^OPW` (2^15), `acc` from minus that to 38 more (-32768 to
32806), `s` and `sum` in `RESW` bits. -/
structure Transient.InRange (cfg : Config) (t : Transient) : Prop where
  k     : 2 * t.k ≤ 2 ^ cfg.opw
  accLo : -(2 ^ cfg.opw : Int) ≤ 2 * t.acc
  accHi : 2 * t.acc < (2 ^ cfg.opw : Int) + 78
  s     : fitsIn cfg.resw t.s = true
  sum   : fitsIn cfg.resw t.sum = true
  i     : t.i ≤ 81
  cnt   : t.cnt ≤ 80
  j     : t.j ≤ 80
  m     : t.m ≤ 80
  buf   : t.buf.length ≤ 80

/-- The device's part of the invariant: its address is a cell, its memory canonical and within the cells, its shift below
40 (R36, R55, R56). -/
structure Device.Inv (d : Device) : Prop where
  ac    : validAddr d.ac = true
  wf    : d.ddram.wf
  cells : d.ddram.inCells
  shift : d.shift.toNat < 40

/-- The block between operations (R15, R20, R21): a resting mode, no position, no transient value. -/
structure State.Resting (s : State) : Prop where
  fsm : s.fsm = .uninitialized ∨ s.fsm = .ready
  pos : s.pos = none
  tr  : s.tr = Transient.idle

/-- A block stuck in a call (R44): an operation is at some position, and `fsm` is SelfTesting in INIT and Ready in every
other operation (R147, R174). -/
def State.Running (s : State) : Prop :=
  ∃ p, s.pos = some p ∧ p.op.isRequest = true ∧ (p.op = .init → s.fsm = .selfTesting) ∧ (p.op ≠ .init → s.fsm = .ready)

/-- The machine's invariant. -/
structure State.Inv (s : State) : Prop where
  scroll  : s.so.toNat < 40
  ranges  : s.tr.InRange s.cfg
  result  : fitsIn s.cfg.resw s.result = true
  device  : s.dev.Inv
  resting : s.busy = false → s.Resting
  running : s.busy = true → s.Running

end Sys2Proof.Machine
end

