-- ==== Sys2Proof/Certificates/Slice0/Obligations.lean ====
section
/-! DEFINITION. The statements for the provers, in the order of the spec's files. Every statement about a request's effect
holds for every configuration record unless it names one, and for every answer of the transport that its premises allow. -/

open Sys2Proof Sys2Proof.Machine

/-! ### Reset, steps, waiting, hanging -/

/-- R185: the state after reset, in the values the spec gives. -/
def Obligations.ResetStateIsUninitializedAndIdle : Prop :=
  State.reset.fsm = .uninitialized ∧ State.reset.fsm.isReady = false ∧ State.reset.so = 0#6
    ∧ State.reset.diag.code State.reset.cfg.diags = 0#3
    ∧ State.reset.busy = false ∧ State.reset.pos = none ∧ State.reset.chanSet = false

/-- R185, R186: the reset event puts the block's registers to their reset values from whatever state, a hung one too,
and touches neither the device nor its ports nor anything else outside the block. -/
def Obligations.ResetEventRestoresTheBlockOnly : Prop :=
  ∀ s : State, s.resetReq = true →
    ∃ t, step s = .next t
      ∧ t.fsm = .uninitialized ∧ t.fsm.isReady = false ∧ t.so = 0#6 ∧ t.diag = .none ∧ t.busy = false ∧ t.pos = none
      ∧ t.chanSet = false ∧ t.resetReq = false
      ∧ t.dev = s.dev ∧ t.link = s.link ∧ t.replies = s.replies ∧ t.cfg = s.cfg ∧ t.port = s.port
      ∧ t.command = s.command ∧ t.calls = s.calls

/-- A step runs the request that stands at the port: `exec` of it, with its bytes taken from the port. -/
def Obligations.StepRunsTheDecodedRequest : Prop :=
  ∀ (s : State) (i : Instr) (rest : List Byte), s.Open → decode s.cfg s.port = .ok (i, rest) →
    step s = exec i { s with port := rest }

/-- A step runs the command that stands at the device's command register, before any request. -/
def Obligations.StepRunsTheDeviceCommand : Prop :=
  ∀ (s : State) (b : Byte) (c : Command), s.resetReq = false → s.busy = false → s.command = some b →
    decodeCommand b = .ok c → step s = exec c.toInstr { s with command := none }

/-- R19, R44: a block stuck in a call takes no step, whatever stands at the ports; with nothing to do it waits (R185). -/
def Obligations.StuckBlockTakesNoStepAndIdleBlockWaits : Prop :=
  (∀ s : State, s.resetReq = false → s.busy = true → step s = .fault .stuck)
    ∧ ∀ s : State, s.Open → s.port = [] → step s = .next s

/-- R44, R150 (h), R192: a request that gets the answers `rs` and no answer to its next call is stuck in it: `busy` 1, the last
response untouched, the calls up to that one made, and the registers written that the request writes before it. INIT, after any
number of answers, stands in SelfTesting, its `so` and that of CLEAR and EMIT_WRAPPED 0 from the busy-wait on (R133, R142,
R143); HOME and DISPLAY_SHIFT have not written `so` (R131, R135); SET_COLOUR has written `chan` (R156). That a hang is a next
state is the model's choice (log 7), and so is what the index of the position counts (log 23). -/
def Obligations.HungRequestLeavesWhatItWrote : Prop :=
  ∀ (i : Instr) (s : State) (rs : List Reply), i.isRequest = true →
    (if i = .init then s.fsm ≠ .ready else s.fsm = .ready) → s.HangsAfter rs →
    rs.length < (requestCalls s.cfg i rs).length →
    (i = .init → rs.length < 249 ∨ ∀ j, j < 80 → echoOf rs j = s.cfg.chZero + BitVec.ofNat 8 j) →
    ∃ t, exec i s = .next t
      ∧ t = { s with
              busy := true, pos := some { op := i, ix := rs.length + 1 },
              calls := s.calls ++ (requestCalls s.cfg i rs).take (rs.length + 1),
              fsm := if i = .init then .selfTesting else .ready, so := hungSo i rs.length s.so,
              chan := t.chan, chanSet := t.chanSet, tr := t.tr, replies := t.replies }
      ∧ (∀ name, i = .setColour name → t.chan = channelsOf name ∧ t.chanSet = true)
      ∧ ((∀ name, i ≠ .setColour name) → t.chan = s.chan ∧ t.chanSet = s.chanSet)

/-! ### Encoding -/

/-- R71 to R74: decoding the bytes of a well-formed request gives it back, with the bytes after it, for every width `OPW`
and all codes that are told apart (R8). -/
def Obligations.RequestDecodesToItself : Prop :=
  ∀ (cfg : Config) (i : Instr) (rest : List Byte), cfg.wf = true → i.isRequest = true → i.wf cfg = true →
    decode cfg (encode cfg i ++ rest) = .ok (i, rest)

/-- Whatever the request decoder accepts is a well-formed request, and the bytes it read are its encoding. -/
def Obligations.AcceptedBytesAreTheEncoding : Prop :=
  ∀ (cfg : Config) (bs : List Byte) (i : Instr) (rest : List Byte), decode cfg bs = .ok (i, rest) →
    i.isRequest = true ∧ i.wf cfg = true ∧ bs = encode cfg i ++ rest

/-- R80, R81: decoding the byte of a device command gives it back (the bootstrap byte 0x02 reads as home). -/
def Obligations.CommandByteDecodesToItself : Prop :=
  (∀ (cfg : Config) (i : Instr), i.isRequest = false → i ≠ .cmdBootstrap →
    ∃ b c, encode cfg i = [b] ∧ decodeCommand b = .ok c ∧ c.toInstr = i)
  ∧ ∃ b c, encode Config.standard .cmdBootstrap = [b] ∧ decodeCommand b = .ok c ∧ c.toInstr = .cmdHome

/-- Words written out from the spec's encodings (R71 to R73, R77, R80 to R82). -/
def Obligations.SpelledOutWordsDecode : Prop :=
  decode Config.standard [0x07#8, 0xFE#8, 0xFF#8] = .ok (.cursorMove (-2), [])
    ∧ decode Config.standard [0x09#8, 0x00#8, 0x80#8] = .ok (.displayShift (-32768), [])
    ∧ decode Config.standard [0x08#8, 0x01#8, 0x03#8] = .ok (.cursorGoto 1#8 3#8, [])
    ∧ decode Config.standard [0x03#8, 0x41#8] = .ok (.emit 0x41#8, [])
    ∧ decode Config.standard [0x0A#8, 0x07#8] = .ok (.setColour .white, [])
    ∧ decode Config.standard [0x06#8, 0x03#8, 0x00#8, 0x61#8, 0x0A#8, 0x62#8, 0x00#8]
        = .ok (.emitWrapped [0x61#8, 0x0A#8, 0x62#8], [0x00#8])
    ∧ decodeCommand 0x06#8 = .ok (.entryMode true false)
    ∧ decodeCommand 0x28#8 = .ok (.functionSet false true false)
    ∧ decodeCommand 0x14#8 = .ok (.cursorShift true)
    ∧ decodeCommand 0xE7#8 = .ok (.setDdram 0x67#7)

/-- R78, R167, R169: each illegal request is refused with IllegalRequest, whatever `fsm` is and whatever the codes are that
tell the requests apart (R8); with the opcodes of R72 the bytes 0x0B to 0xFF are no opcode. -/
def Obligations.IllegalRequestsAreRefused : Prop :=
  ∀ (s : State) (o : Opcodes), s.Open → o = s.cfg.opcodes → o.toList.Nodup →
    (∀ (op : Byte) (rest : List Byte), s.port = op :: rest →
        op ∉ o.toList ∨ (o = Opcodes.standard ∧ 0x0B ≤ op.toNat) → step s = .refused .illegalRequest)
    ∧ (∀ (b : Byte) (rest : List Byte), s.port = o.setColour :: b :: rest → b.extractLsb' 3 5 ≠ 0#5 →
        step s = .refused .illegalRequest)
    ∧ (∀ (op lo hi : Byte) (str rest : List Byte), (op = o.emitFormatted ∨ op = o.emitWrapped) →
        s.port = op :: lo :: hi :: (str ++ rest) → str.length = lo.toNat + 256 * hi.toNat → 0x00#8 ∈ str →
        step s = .refused .illegalRequest)
    ∧ (∀ (op lo hi : Byte) (str : List Byte), (op = o.emitFormatted ∨ op = o.emitWrapped) →
        s.port = op :: lo :: hi :: str → str.length < lo.toNat + 256 * hi.toNat → step s = .refused .illegalRequest)
    ∧ (∀ (op : Byte) (rest : List Byte), s.port = op :: rest →
        ((op = o.emit ∨ op = o.setColour) ∧ rest.length < 1
          ∨ (op = o.emitFormatted ∨ op = o.emitWrapped ∨ op = o.cursorGoto) ∧ rest.length < 2
          ∨ (op = o.cursorMove ∨ op = o.displayShift) ∧ 8 * rest.length < s.cfg.opw) →
        step s = .refused .illegalRequest)

/-- R82: with the byte of R81 the set-address command of a target is a 1 and the target, 0x80 to 0xA7 or 0xC0 to 0xE7 for a
cell, and the device's command register reads it as the set-DDRAM-address command of that target (R80). -/
def Obligations.SetAddressByteIsOneThenTheAddress : Prop :=
  ∀ (cmd : Cmd) (a : Addr), cmd.setDdram = 0x80#8 →
    (setAddressByte cmd a).toNat = 0x80 + a.toNat ∧ setAddressByte cmd a = 1#1 ++ a
      ∧ decodeCommand (setAddressByte cmd a) = .ok (.setDdram a)
      ∧ (validAddr a = true →
        (0x80 ≤ (setAddressByte cmd a).toNat ∧ (setAddressByte cmd a).toNat ≤ 0xA7)
          ∨ (0xC0 ≤ (setAddressByte cmd a).toNat ∧ (setAddressByte cmd a).toNat ≤ 0xE7))

/-! ### The address model -/

/-- R101 to R103: `addr_of` on the range CURSOR_GOTO lets through, its inverse, and the cells. -/
def Obligations.AddressModelPlacesRowsAndColumns : Prop :=
  ∀ row col : Byte, row.toNat ≤ 2 → col.toNat ≤ 39 →
    (addrOf row col).toNat = (if row = 0#8 then col.toNat else 0x40 + col.toNat)
      ∧ validAddr (addrOf row col) = true
      ∧ rowcolOf (addrOf row col) = (if row = 0#8 then 0 else 1, col.toNat)

/-- R103, R104: the valid addresses are the two rows, and the linear view is a bijection of the 80 cell numbers and them. -/
def Obligations.LinearViewIsABijectionOfTheCells : Prop :=
  (∀ a : Addr, validAddr a = true ↔ a.toNat ≤ 0x27 ∨ (0x40 ≤ a.toNat ∧ a.toNat ≤ 0x67))
    ∧ (∀ c : Nat, c < 80 → validAddr (addrLin c) = true ∧ lin (addrLin c) = c)
    ∧ ∀ a : Addr, validAddr a = true → lin a < 80 ∧ addrLin (lin a) = a

/-! ### The ready gate and the whole machine -/

/-- R174, R166: outside Ready every request but INIT is refused with NotReady. -/
def Obligations.RequestsBeforeReadyAreRefused : Prop :=
  ∀ (i : Instr) (s : State), i.isRequest = true → i ≠ .init → s.fsm ≠ .ready → exec i s = .refused .notReady

/-- R15, R14, R17, R157: which operation writes which register. `fsm` is written by INIT only, `chan` by SET_COLOUR only,
`so` by DISPLAY_SHIFT, CLEAR, HOME, EMIT_WRAPPED and INIT only; no request writes the configuration, the ports of the host
or the reset input; a device command writes the device only. It holds of a state an operation hangs in too. -/
def Obligations.EachRegisterHasItsWriters : Prop :=
  ∀ (i : Instr) (s t : State), exec i s = .next t →
    (i ≠ .init → t.fsm = s.fsm)
    ∧ ((∀ c, i ≠ .setColour c) → t.chan = s.chan ∧ t.chanSet = s.chanSet)
    ∧ (i ≠ .init → i ≠ .clear → i ≠ .home → (∀ str, i ≠ .emitWrapped str) → (∀ n, i ≠ .displayShift n) → t.so = s.so)
    ∧ t.cfg = s.cfg ∧ t.port = s.port ∧ t.command = s.command ∧ t.resetReq = s.resetReq
    ∧ (i.isRequest = false → t = { s with dev := t.dev })

/-- R147, R173: a step leaves Ready only by the reset event. -/
def Obligations.ReadyIsLeftOnlyByReset : Prop :=
  ∀ s t : State, step s = .next t → s.fsm = .ready → s.resetReq = false → t.fsm = .ready

/-- R19 to R21, R44, R170: a request that answers a next state has either delivered one response and rests, or is stuck
in a call with `busy` = 1, the last response untouched, at the position its calls have reached. The model's choices in it: the
transient registers go back to their idle values (log 6), a hang is a next state (log 7), the index counts the calls made
(log 23). -/
def Obligations.RequestRespondsOrHangs : Prop :=
  ∀ (i : Instr) (s t : State), i.isRequest = true → exec i s = .next t →
    ∃ new, t.calls = s.calls ++ new
      ∧ ((t.busy = false ∧ t.pos = none ∧ t.tr = Transient.idle)
        ∨ (t.busy = true ∧ t.result = s.result ∧ t.diag = s.diag ∧ t.pos = some { op := i, ix := new.length }))

/-- R161: the error kinds that each operation's response can carry. -/
def Obligations.ResponsesCarryOnlyTheListedKinds : Prop :=
  ∀ (i : Instr) (s t : State), i.isRequest = true → exec i s = .next t → t.busy = false → t.diag ∈ allowedDiag i

/-- R84, R93: with the standard record, every command byte an operation sends is a listed one or the set-address command
of a cell, and no operation makes more than 32769 calls. -/
def Obligations.OnlyListedCommandBytesAreSent : Prop :=
  ∀ (i : Instr) (s t : State), i.isRequest = true → i.wf s.cfg = true → s.cfg = Config.standard →
    exec i s = .next t → ∃ new, t.calls = s.calls ++ new ∧ new.length ≤ 32769 ∧ ∀ b, Call.writeControl b ∈ new → Sendable b

/-- R41: under an oracle what the block does is determined by the request and the answers; the record `dev` does not matter
and stays as it was (it is not the device behind an oracle: the model's choice, log 25). -/
def Obligations.OracleRunsDoNotDependOnTheDevice : Prop :=
  ∀ (i : Instr) (s t : State) (d : Device), i.isRequest = true → s.link = .oracle → exec i s = .next t →
    t.dev = s.dev ∧ exec i { s with dev := d } = .next { t with dev := d }

/-- R35: no step touches the CGRAM. -/
def Obligations.CgramIsNeverTouched : Prop :=
  ∀ s t : State, step s = .next t → t.dev.cgram = s.dev.cgram

/-- The invariant holds after reset. -/
def Obligations.ResetMeetsTheInvariant : Prop :=
  State.reset.Inv

/-- The invariant is kept by every step from every state that meets it. -/
def Obligations.EveryStepKeepsTheInvariant : Prop :=
  ∀ s t : State, s.Inv → step s = .next t → t.Inv

/-! ### Character output -/

/-- R112, R111, R116: EMIT makes one write, NEWLINE for the two control bytes and else the byte as data, and answers the
byte's value or EOF with TransportFailure; nothing else changes. -/
def Obligations.EmitSendsOneWriteAndEchoes : Prop :=
  ∀ (s : State) (b : Byte) (r : Reply) (rest : List (Option Reply)), s.fsm = .ready → s.Answers [r] rest →
    exec (.emit b) s = .next
      { s.responded
          [if b = s.cfg.chCr ∨ b = s.cfg.chLf then .writeControl (setAddressByte s.cfg.cmd 0x40#7) else .writeData b]
          (if narrow s.cfg.resw r.status = 0 then (b.toNat : Int) else s.cfg.eof)
          (if narrow s.cfg.resw r.status = 0 then .none else .transportFailure) with
        replies := rest }

/-- R113: EMIT_LINE_CLEAR reads the address, then writes home, 16 spaces, home in the row its bit 6 names, all of them
whatever the statuses; the result is the wrapped sum of the 18 statuses. -/
def Obligations.EmitLineClearHomesBlanksHomes : Prop :=
  ∀ (s : State) (r : Reply) (ws : List Reply) (rest : List (Option Reply)), s.fsm = .ready → s.Answers (r :: ws) rest →
    ws.length = 18 →
    exec .emitLineClear s = .next
      { s.responded
          ([.readAddress, .writeControl (setAddressByte s.cfg.cmd (if r.addr.getLsbD 6 then 0x40#7 else 0x00#7))]
            ++ List.replicate 16 (.writeData s.cfg.chSpace)
            ++ [.writeControl (setAddressByte s.cfg.cmd (if r.addr.getLsbD 6 then 0x40#7 else 0x00#7))])
          (sumStatus s.cfg ws) (if sumStatus s.cfg ws = 0 then .none else .transportFailure) with
        replies := rest }

/-- R114, R115: EMIT_FORMATTED feeds the leading 80 bytes to EMIT, one write each, drops their results, and answers their
number. -/
def Obligations.EmitFormattedFeedsEachByte : Prop :=
  ∀ (s : State) (str : List Byte) (rs : List Reply) (rest : List (Option Reply)), s.fsm = .ready → s.Answers rs rest →
    rs.length = min str.length 80 →
    exec (.emitFormatted str) s = .next
      { s.responded ((str.take 80).map (emitCall s.cfg)) (min str.length 80 : Nat) .none with
        replies := rest }

/-- R117, R133: EMIT_WRAPPED clears, writes the leading 32 bytes raw with one forced newline right after the 16th, and
answers their number; `so` is 0. -/
def Obligations.EmitWrappedClearsThenWrapsAfterSixteen : Prop :=
  ∀ (s : State) (str : List Byte) (rs : List Reply) (rest : List (Option Reply)), s.fsm = .ready → s.Answers rs rest →
    rs.length = 2 + min str.length 32 + (if 16 ≤ str.length then 1 else 0) →
    exec (.emitWrapped str) s = .next
      { s.responded (clearCalls s.cfg ++ wrapCalls s.cfg (str.take 32)) (min str.length 32 : Nat) .none with
        replies := rest, so := 0#6 }

/-! ### Cursor and scroll -/

/-- R126: CURSOR_MOVE sends `|n|` single steps, right when `n` is positive and left when it is negative, then answers the
address read back. -/
def Obligations.CursorMoveStepsThenReadsBack : Prop :=
  ∀ (s : State) (n : Int) (ws : List Reply) (r : Reply) (rest : List (Option Reply)), s.fsm = .ready →
    s.Answers (ws ++ [r]) rest → ws.length = n.natAbs →
    exec (.cursorMove n) s = .next
      { s.responded
          (List.replicate n.natAbs
              (.writeControl (if 0 < n then s.cfg.cmd.cursorRight else s.cfg.cmd.cursorLeft)) ++ [.readAddress])
          (r.addr.toNat : Int) .none with
        replies := rest }

/-- R127: CURSOR_GOTO with a column above 39 or a row above 2 answers -1 and ValidationError with no call at all, on any
transport; any other row and column, row 2 too, passes: the operation makes its call. -/
def Obligations.CursorGotoRejectsOutOfRange : Prop :=
  ∀ (s : State) (row col : Byte), s.fsm = .ready →
    (39 < col.toNat ∨ 2 < row.toNat →
      exec (.cursorGoto row col) s = .next (s.responded [] (-1) .validationError))
    ∧ (col.toNat ≤ 39 → row.toNat ≤ 2 → ∀ t, exec (.cursorGoto row col) s = .next t →
        (t.busy = false → t.diag ≠ .validationError) ∧ ∃ c new, t.calls = s.calls ++ c :: new)

/-- R128: CURSOR_GOTO in range sends the set-address command once, reads back once, and answers -1 on a mismatch, else 1
for a column above 15, else 0; the status of the write does not matter. -/
def Obligations.CursorGotoSetsThenChecksTheAddress : Prop :=
  ∀ (s : State) (row col : Byte) (w r : Reply) (rest : List (Option Reply)), s.fsm = .ready → s.Answers [w, r] rest →
    col.toNat ≤ 39 → row.toNat ≤ 2 →
    exec (.cursorGoto row col) s = .next
      { s.responded [.writeControl (setAddressByte s.cfg.cmd (addrOf row col)), .readAddress]
          (if r.addr ≠ addrOf row col then -1 else if 15 < col.toNat then 1 else 0)
          (if r.addr ≠ addrOf row col then .addressConsistencyError else .none) with
        replies := rest }

/-- R130, R131: DISPLAY_SHIFT sends `|n|` shift commands, right when `n` is positive and left when it is negative, and
leaves and answers `(so + n) mod 40`, floored, whatever the statuses. -/
def Obligations.DisplayShiftCountsModuloForty : Prop :=
  ∀ (s : State) (n : Int) (ws : List Reply) (rest : List (Option Reply)), s.fsm = .ready → s.Answers ws rest →
    ws.length = n.natAbs →
    exec (.displayShift n) s = .next
      { s.responded
          (List.replicate n.natAbs
              (.writeControl (if 0 < n then s.cfg.cmd.shiftRight else s.cfg.cmd.shiftLeft)))
          (((s.so.toNat : Int) + n) % 40) .none with
        replies := rest, so := BitVec.ofInt 6 (((s.so.toNat : Int) + n) % 40) }

/-- R132 (a): a shift and the opposite shift that both complete restore the offset, on any transport. -/
def Obligations.ShiftAndShiftBackRestoresTheOffset : Prop :=
  ∀ (s t u : State) (n : Int), s.so.toNat < 40 →
    exec (.displayShift n) s = .next t → t.busy = false →
    exec (.displayShift (-n)) t = .next u → u.busy = false → u.so = s.so

/-- R133, R134: CLEAR sends the clear command and busy-waits, sets `so` to 0 whatever the status, and answers the status. -/
def Obligations.ClearResetsScrollAndPassesTheStatus : Prop :=
  ∀ (s : State) (w x : Reply) (rest : List (Option Reply)), s.fsm = .ready → s.Answers [w, x] rest →
    exec .clear s = .next
      { s.responded [.writeControl s.cfg.cmd.clear, .busyWait] w.status
          (if narrow s.cfg.resw w.status = 0 then .none else .transportFailure) with
        replies := rest, so := 0#6 }

/-- R135: HOME sends the home command and does not wait, sets `so` to 0 whatever the status, and answers the status. -/
def Obligations.HomeResetsScrollAndPassesTheStatus : Prop :=
  ∀ (s : State) (w : Reply) (rest : List (Option Reply)), s.fsm = .ready → s.Answers [w] rest →
    exec .home s = .next
      { s.responded [.writeControl s.cfg.cmd.home] w.status
          (if narrow s.cfg.resw w.status = 0 then .none else .transportFailure) with
        replies := rest, so := 0#6 }

/-! ### Initialization -/

/-- R141: INIT of a block that is Ready makes no call, changes no state and answers 0. -/
def Obligations.SecondInitIsANoOp : Prop :=
  ∀ s : State, s.fsm = .ready → exec .init s = .next (s.responded [] 0 .none)

/-- R142 to R145, R149: INIT outside Ready makes its 249 calls and, when each of the first 80 reads returned the byte just
written, clears once more, enters Ready and answers 0, whatever the 81st read and whatever the statuses. -/
def Obligations.InitPassesOnEightyEchoes : Prop :=
  ∀ (s : State) (rs : List Reply) (rest : List (Option Reply)), s.fsm ≠ .ready → s.Answers rs rest → rs.length = 251 →
    (∀ i, i < 80 → echoOf rs i = s.cfg.chZero + BitVec.ofNat 8 i) →
    exec .init s = .next
      { s.responded (initCalls s.cfg ++ clearCalls s.cfg) 0 .none with
        replies := rest, so := 0#6, fsm := .ready }

/-- R144, R146, R149: when one of the first 80 reads returned another byte, INIT makes its 249 calls and no more, rolls back
to Uninitialized, and answers -1 with SelfTestFailure; a right 81st read does not make up for it. -/
def Obligations.InitFailsOnOneWrongEcho : Prop :=
  ∀ (s : State) (rs : List Reply) (rest : List (Option Reply)) (i : Nat), s.fsm ≠ .ready → s.Answers rs rest →
    rs.length = 249 → i < 80 → echoOf rs i ≠ s.cfg.chZero + BitVec.ofNat 8 i →
    exec .init s = .next
      { s.responded (initCalls s.cfg) (-1) .selfTestFailure with
        replies := rest, so := 0#6, fsm := .uninitialized }

/-! ### Colour -/

/-- R155: the colour table, by code: (RED, GREEN, BLUE). -/
def Obligations.ColourTableByCode : Prop :=
  [0#3, 1#3, 2#3, 3#3, 4#3, 5#3, 6#3, 7#3].map
      (fun c => (colourOfCode ColourCodes.standard c).map
        (fun name => ((channelsOf name).red, (channelsOf name).green, (channelsOf name).blue)))
    = [some (true, true, true), some (false, true, true), some (false, false, true), some (true, false, true),
        some (true, false, false), some (true, true, false), some (false, true, false), some (false, false, false)]

/-- R156: SET_COLOUR writes `chan` for good and pushes port 0, then port 1, both whatever the statuses; the result is the
wrapped sum of the two statuses. -/
def Obligations.SetColourPushesBothPorts : Prop :=
  ∀ (s : State) (name : ColourName) (p q : Reply) (rest : List (Option Reply)), s.fsm = .ready → s.Answers [p, q] rest →
    exec (.setColour name) s = .next
      { s.responded [.writePort0 (channelsOf name).red (channelsOf name).green, .writePort1 (channelsOf name).blue]
          (sumStatus s.cfg [p, q]) (if sumStatus s.cfg [p, q] = 0 then .none else .transportFailure) with
        replies := rest, chan := channelsOf name, chanSet := true }

/-! ### The device's commands -/

/-- R57, R58: CMD_CLEAR blanks every cell; CMD_HOME leaves the cells; both go to address 0 without shift; nothing else
changes. -/
def Obligations.DeviceClearAndHome : Prop :=
  ∀ s : State,
    (∃ t, exec .cmdClear s = .next t
      ∧ t = { s with dev := { s.dev with ddram := t.dev.ddram, ac := 0x00#7, shift := 0#6, idinc := true } }
      ∧ ∀ a, t.dev.cell a = 0x20#8)
    ∧ exec .cmdHome s = .next { s with dev := { s.dev with ac := 0x00#7, shift := 0#6 } }

/-- R59: the mode commands write their fields and nothing else. -/
def Obligations.DeviceModeCommandsWriteTheirFields : Prop :=
  ∀ (s : State) (x y z : Bool),
    exec (.cmdEntryMode x y) s = .next { s with dev := { s.dev with idinc := x, sdisp := y } }
    ∧ (∃ t, exec (.cmdDisplayCtrl x y z) s = .next t ∧ t = { s with dev := { s.dev with dcb := t.dev.dcb } }
      ∧ t.dev.dcb.getLsbD 2 = x ∧ t.dev.dcb.getLsbD 1 = y ∧ t.dev.dcb.getLsbD 0 = z)
    ∧ ∃ t, exec (.cmdFunctionSet x y z) s = .next t ∧ t = { s with dev := { s.dev with fn := t.dev.fn } }
      ∧ t.dev.fn.getLsbD 2 = x ∧ t.dev.fn.getLsbD 1 = y ∧ t.dev.fn.getLsbD 0 = z

/-- R56, R60: the cursor commands move the address one cell, the shift commands the display shift one place modulo 40. -/
def Obligations.DeviceShiftCommandsMoveOneStep : Prop :=
  ∀ s : State,
    exec .cmdCursorRight s = .next { s with dev := { s.dev with ac := incAddr s.dev.ac } }
    ∧ exec .cmdCursorLeft s = .next { s with dev := { s.dev with ac := decAddr s.dev.ac } }
    ∧ exec .cmdShiftRight s =
        .next { s with dev := { s.dev with shift := BitVec.ofInt 6 (((s.dev.shift.toNat : Int) + 1) % 40) } }
    ∧ exec .cmdShiftLeft s =
        .next { s with dev := { s.dev with shift := BitVec.ofInt 6 (((s.dev.shift.toNat : Int) - 1) % 40) } }

/-- R61: CMD_SET_DDRAM sets the address of a cell and is refused for an address that is none. -/
def Obligations.DeviceSetAddressTakesCellsOnly : Prop :=
  ∀ (s : State) (a : Addr),
    (validAddr a = true → exec (.cmdSetDdram a) s = .next { s with dev := { s.dev with ac := a } })
    ∧ (validAddr a = false → exec (.cmdSetDdram a) s = .refused .deviceAddress)

/-- R80, R81: the bootstrap byte is read by its class: 0x02 as home (R58), a byte of any class but set-CGRAM as that class's
command, a set-CGRAM byte refused (R61); 0x00, which has no class, does nothing (R59). -/
def Obligations.DeviceReadsTheBootstrapByteByItsClass : Prop :=
  ∀ s : State,
    (s.cfg.cmd.bootstrap = 0x02#8 →
      exec .cmdBootstrap s = .next { s with dev := { s.dev with ac := 0x00#7, shift := 0#6 } })
    ∧ (∀ c, decodeCommand s.cfg.cmd.bootstrap = .ok c → exec .cmdBootstrap s = exec c.toInstr s)
    ∧ (s.cfg.cmd.bootstrap.extractLsb' 6 2 = 0b01#2 → exec .cmdBootstrap s = .refused .deviceCgram)
    ∧ (s.cfg.cmd.bootstrap = 0x00#8 → exec .cmdBootstrap s = .next s)

/-- R57 to R61: what a step does with a byte at the device's command register, by the byte's bits. -/
def Obligations.CommandByteActsByItsBits : Prop :=
  ∀ (s t : State) (b : Byte), s.resetReq = false → s.busy = false → s.command = some b → t = { s with command := none } →
    (b.extractLsb' 1 7 = 0b0000001#7 → step s = .next { t with dev := { t.dev with ac := 0x00#7, shift := 0#6 } })
    ∧ (b.extractLsb' 2 6 = 0b000001#6 →
        step s = .next { t with dev := { t.dev with idinc := b.getLsbD 1, sdisp := b.getLsbD 0 } })
    ∧ (b.extractLsb' 3 5 = 0b00001#5 → step s = .next { t with dev := { t.dev with dcb := b.extractLsb' 0 3 } })
    ∧ (b.extractLsb' 5 3 = 0b001#3 → step s = .next { t with dev := { t.dev with fn := b.extractLsb' 2 3 } })
    ∧ (b.extractLsb' 4 4 = 0b0001#4 → b.getLsbD 3 = false →
        step s = .next { t with dev := { t.dev with ac := if b.getLsbD 2 then incAddr t.dev.ac else decAddr t.dev.ac } })
    ∧ (b.extractLsb' 4 4 = 0b0001#4 → b.getLsbD 3 = true →
        step s = .next
          { t with dev := { t.dev with
              shift := BitVec.ofInt 6 (((t.dev.shift.toNat : Int) + (if b.getLsbD 2 then 1 else -1)) % 40) } })
    ∧ (b.getLsbD 7 = true → validAddr (b.extractLsb' 0 7) = true →
        step s = .next { t with dev := { t.dev with ac := b.extractLsb' 0 7 } })
    ∧ (b.getLsbD 7 = true → validAddr (b.extractLsb' 0 7) = false → step s = .refused .deviceAddress)
    ∧ (b.extractLsb' 6 2 = 0b01#2 → step s = .refused .deviceCgram)
    ∧ (b = 0x00#8 → step s = .next t)
    ∧ (b = 0x01#8 → ∃ u, step s = .next u
        ∧ u = { t with dev := { t.dev with ddram := u.dev.ddram, ac := 0x00#7, shift := 0#6, idinc := true } }
        ∧ ∀ a, u.dev.cell a = 0x20#8)

/-- R56: `inc` and `dec` in two-line mode; both map cells to cells and are inverse to each other. -/
def Obligations.AddressStepsAreInverseOnTheCells : Prop :=
  incAddr 0x27#7 = 0x40#7 ∧ incAddr 0x67#7 = 0x00#7 ∧ (∀ a, a ≠ 0x27#7 → a ≠ 0x67#7 → incAddr a = a + 1#7)
    ∧ decAddr 0x00#7 = 0x67#7 ∧ decAddr 0x40#7 = 0x27#7 ∧ (∀ a, a ≠ 0x00#7 → a ≠ 0x40#7 → decAddr a = a - 1#7)
    ∧ ∀ a : Addr, validAddr a = true →
      validAddr (incAddr a) = true ∧ validAddr (decAddr a) = true ∧ decAddr (incAddr a) = a ∧ incAddr (decAddr a) = a

/-- R57, R58, R60: what `T.write_control(b)` does to the reference device for the clear, home and shift bytes. -/
def Obligations.ClearHomeAndShiftBytesOnTheDevice : Prop :=
  ∀ (d : Device) (b : Byte),
    (b = 0x01#8 → ∃ e, d.control b = .ok Reply.zero e ∧ (∀ a, e.cell a = 0x20#8)
      ∧ e = { d with ddram := e.ddram, ac := 0x00#7, shift := 0#6, idinc := true })
    ∧ (b.extractLsb' 1 7 = 0b0000001#7 → d.control b = .ok Reply.zero { d with ac := 0x00#7, shift := 0#6 })
    ∧ (b.extractLsb' 4 4 = 0b0001#4 → b.getLsbD 3 = false →
        d.control b = .ok Reply.zero { d with ac := if b.getLsbD 2 then incAddr d.ac else decAddr d.ac })
    ∧ (b.extractLsb' 4 4 = 0b0001#4 → b.getLsbD 3 = true →
        d.control b = .ok Reply.zero
          { d with shift := BitVec.ofInt 6 (((d.shift.toNat : Int) + (if b.getLsbD 2 then 1 else -1)) % 40) })

/-- R62, R63, and R61 for the data write: what the data and port calls do to the reference device, in the modes it is defined
for and at a cell (log 11, log 12), the counter counting the data reads; and how each fixture changes what a call brings back,
with the good device's effect: RD_stuck answers every address query with 0x00, RD_fail fails every write call, RD_bad spoils
the reads it lists. -/
def Obligations.DataPortAndFixtureCallsOnTheDevice : Prop :=
  (∀ (d : Device) (v : Byte), d.modeOk = true → validAddr d.ac = true → d.ddram.wf →
    (∃ e, d.answer (.writeData v) = .ok Reply.zero e ∧ e = { d with ac := incAddr d.ac, ddram := e.ddram }
      ∧ e.cell d.ac = v ∧ ∀ a, a ≠ d.ac → e.cell a = d.cell a)
    ∧ ∃ r, d.answer .readData = .ok r { d with ac := incAddr d.ac, rdCount := d.rdCount + 1 } ∧ r.byte = d.cell d.ac)
  ∧ (∀ (d : Device) (x y z : Bool),
    (∃ r, d.answer .readAddress = .ok r d ∧ r.addr = d.ac)
    ∧ d.answer (.writePort0 x y) = .ok Reply.zero { d with port0 := (x, y) }
    ∧ d.answer (.writePort1 z) = .ok Reply.zero { d with port1 := z }
    ∧ d.answer .busyWait = .ok Reply.zero d)
  ∧ ∀ (s t : State) (c : Call) (r : Reply), s.link = .device .good → call c s = .done r t →
    call c { s with link := .device .stuck } =
      .done { r with addr := if c = .readAddress then 0x00#7 else r.addr } { t with link := .device .stuck }
    ∧ call c { s with link := .device .failing } =
      .done
        { r with
          status := match c with
            | .writeControl _ | .writeData _ | .writePort0 _ _ | .writePort1 _ => -1
            | .readData | .readAddress | .busyWait => r.status }
        { t with link := .device .failing }
    ∧ ∀ calls, call c { s with link := .device (.bad calls) } =
      .done { r with byte := if c = .readData ∧ s.dev.rdCount ∈ calls then r.byte ^^^ 1#8 else r.byte }
        { t with link := .device (.bad calls) }

/-! ### The block on the reference device -/

/-- R61, R107, R112: EMIT on the good device stores a data byte in the cell at the address, moves to the next, and leaves
every other cell; a control byte, with the set-address command of R81, stores nothing and moves to 0x40. -/
def Obligations.EmitOnTheDeviceStoresOneCell : Prop :=
  ∀ (s : State) (b : Byte), s.fsm = .ready → s.OnDevice → s.dev.ddram.wf →
    (b = s.cfg.chCr ∨ b = s.cfg.chLf → s.cfg.cmd.setDdram = 0x80#8) →
    ∃ t, exec (.emit b) s = .next t
      ∧ t = { s.responded [emitCall s.cfg b] (b.toNat : Int) .none with
              dev := { s.dev with ac := t.dev.ac, ddram := t.dev.ddram } }
      ∧ (b = s.cfg.chCr ∨ b = s.cfg.chLf → t.dev.ac = 0x40#7 ∧ ∀ a, t.dev.cell a = s.dev.cell a)
      ∧ (b ≠ s.cfg.chCr → b ≠ s.cfg.chLf → t.dev.ac = incAddr s.dev.ac ∧ t.dev.cell s.dev.ac = b
          ∧ ∀ a, a ≠ s.dev.ac → t.dev.cell a = s.dev.cell a)

/-- R107, R113: EMIT_LINE_CLEAR on the good device, with the set-address command of R81, fills the 16 cells from the start of
the row with the space, leaves every other cell, ends at the start of the row, and answers 0. -/
def Obligations.EmitLineClearOnTheDeviceBlanksSixteenCells : Prop :=
  ∀ (s : State) (start : Addr), s.fsm = .ready → s.OnDevice → s.dev.ddram.wf → s.cfg.cmd.setDdram = 0x80#8 →
    start = (if s.dev.ac.toNat < 0x40 then 0x00#7 else 0x40#7) →
    ∃ t, exec .emitLineClear s = .next t ∧ t.result = 0 ∧ t.diag = .none ∧ t.busy = false
      ∧ t.so = s.so ∧ t.fsm = s.fsm ∧ t.chan = s.chan
      ∧ t.dev = { s.dev with ac := start, ddram := t.dev.ddram }
      ∧ (∀ a : Addr, start.toNat ≤ a.toNat → a.toNat < start.toNat + 16 → t.dev.cell a = s.cfg.chSpace)
      ∧ ∀ a : Addr, ¬(start.toNat ≤ a.toNat ∧ a.toNat < start.toNat + 16) → t.dev.cell a = s.dev.cell a

/-- R107, R115: EMIT_FORMATTED on the good device, with the set-address command of R81, leaves the cells and the address of a
text fed to EMIT byte by byte. -/
def Obligations.EmitFormattedOnTheDeviceTypesTheText : Prop :=
  ∀ (s : State) (str : List Byte), s.fsm = .ready → s.OnDevice → s.dev.ddram.wf → s.cfg.cmd.setDdram = 0x80#8 →
    ∃ t, exec (.emitFormatted str) s = .next t
      ∧ t = { s.responded ((str.take 80).map (emitCall s.cfg)) (min str.length 80 : Nat) .none with
              dev := { s.dev with ac := t.dev.ac, ddram := t.dev.ddram } }
      ∧ t.dev.ac = textEnd s.cfg (str.take 80) s.dev.ac
      ∧ ∀ a, t.dev.cell a = textCell s.cfg (str.take 80) s.dev.ac a (s.dev.cell a)

/-- R107, R117: EMIT_WRAPPED on the good device, with the clear and set-address commands of R81, leaves the first 16 bytes in
row 0, the next 16 in row 1, every other cell blank, and the address behind the text. -/
def Obligations.EmitWrappedOnTheDeviceFillsTwoRows : Prop :=
  ∀ (s : State) (str : List Byte) (m : Nat), s.fsm = .ready → s.link = .device .good → s.dev.sdisp = false →
    s.cfg.cmd.clear = 0x01#8 → s.cfg.cmd.setDdram = 0x80#8 → m = min str.length 32 →
    ∃ t, exec (.emitWrapped str) s = .next t ∧ t.result = narrow s.cfg.resw m ∧ t.diag = .none ∧ t.busy = false
      ∧ t.so = 0#6 ∧ t.fsm = .ready ∧ t.chan = s.chan
      ∧ t.dev.shift = 0#6
      ∧ t.dev.ac.toNat = (if m ≤ 15 then m else 0x40 + (m - 16))
      ∧ ∀ a : Addr, t.dev.cell a =
          if a.toNat < 16 then (str.take 32).getD a.toNat 0x20#8
          else if 0x40 ≤ a.toNat ∧ a.toNat < 0x50 then (str.take 32).getD (16 + (a.toNat - 0x40)) 0x20#8
          else 0x20#8

/-- R107, R62: CLEAR, HOME and SET_COLOUR on the good device succeed. With the command byte of R81 CLEAR blanks every cell and
goes to address 0; with a byte of the home class (R58, R80) HOME goes to address 0 and leaves the cells; SET_COLOUR puts the
selection's levels on the two ports and touches nothing else of the device. -/
def Obligations.ClearHomeAndColourOnTheDevice : Prop :=
  ∀ s : State, s.fsm = .ready → s.link = .device .good →
    (s.cfg.cmd.clear = 0x01#8 →
      ∃ t, exec .clear s = .next t
        ∧ t = { s.responded [.writeControl 0x01#8, .busyWait] 0 .none with
                so := 0#6, dev := { s.dev with ddram := t.dev.ddram, ac := 0x00#7, shift := 0#6, idinc := true } }
        ∧ ∀ a, t.dev.cell a = 0x20#8)
    ∧ (s.cfg.cmd.home.extractLsb' 1 7 = 0b0000001#7 →
      exec .home s = .next
        { s.responded [.writeControl s.cfg.cmd.home] 0 .none with
          so := 0#6, dev := { s.dev with ac := 0x00#7, shift := 0#6 } })
    ∧ ∀ (name : ColourName) (c : Channels), c = channelsOf name →
      exec (.setColour name) s = .next
        { s.responded [.writePort0 c.red c.green, .writePort1 c.blue] 0 .none with
          chan := c, chanSet := true, dev := { s.dev with port0 := (c.red, c.green), port1 := c.blue } }

/-- R95, R107: with the standard record, HOME, CURSOR_MOVE, CURSOR_GOTO, DISPLAY_SHIFT and SET_COLOUR store nothing: every
cell reads as before, on any transport; and CURSOR_MOVE and CURSOR_GOTO change no register of the block but the response. -/
def Obligations.MovesAndColoursStoreNothing : Prop :=
  ∀ (i : Instr) (s t : State), s.cfg = Config.standard → exec i s = .next t →
    (i = .home ∨ (∃ n, i = .cursorMove n) ∨ (∃ row col, i = .cursorGoto row col) ∨ (∃ n, i = .displayShift n)
      ∨ ∃ c, i = .setColour c) →
    (∀ a, t.dev.cell a = s.dev.cell a)
      ∧ ((∃ n, i = .cursorMove n) ∨ (∃ row col, i = .cursorGoto row col) →
        t.so = s.so ∧ t.fsm = s.fsm ∧ t.chan = s.chan ∧ t.chanSet = s.chanSet)

/-- R107, R126: CURSOR_MOVE on the good device, with the standard record, moves the address `n` cells and answers it. -/
def Obligations.CursorMoveOnTheDeviceWalksTheCells : Prop :=
  ∀ (s : State) (n : Int) (a : Addr), s.fsm = .ready → s.link = .device .good → s.cfg = Config.standard →
    a = (if 0 < n then incAddr^[n.natAbs] s.dev.ac else decAddr^[n.natAbs] s.dev.ac) →
    ∃ cs, exec (.cursorMove n) s = .next
      { s.responded cs (a.toNat : Int) .none with dev := { s.dev with ac := a } }

/-- R107, R128, R129 (g): CURSOR_GOTO in range on the good device, with the set-address command of R81, always succeeds and
leaves the address of the address model. -/
def Obligations.CursorGotoOnTheDeviceSucceeds : Prop :=
  ∀ (s : State) (row col : Byte), s.fsm = .ready → s.link = .device .good → s.cfg.cmd.setDdram = 0x80#8 →
    row.toNat ≤ 2 → col.toNat ≤ 39 →
    exec (.cursorGoto row col) s = .next
      { s.responded [.writeControl (setAddressByte s.cfg.cmd (addrOf row col)), .readAddress]
          (if 15 < col.toNat then 1 else 0) .none with
        dev := { s.dev with ac := addrOf row col } }

/-- R60, R131, R197: on the good device, with the standard record, DISPLAY_SHIFT keeps `so` equal to the device's shift. -/
def Obligations.ScrollOffsetMirrorsTheDeviceShift : Prop :=
  ∀ (s : State) (n : Int), s.fsm = .ready → s.link = .device .good → s.cfg = Config.standard →
    s.so = s.dev.shift → s.so.toNat < 40 →
    ∃ t, exec (.displayShift n) s = .next t ∧ t.busy = false ∧ t.so = t.dev.shift
      ∧ t.so = BitVec.ofInt 6 (((s.so.toNat : Int) + n) % 40)
      ∧ t.dev = { s.dev with shift := t.dev.shift }

/-- R149, R107, R188: INIT on the good device, with the standard record and whatever the device held before, succeeds with
251 calls and leaves the block Ready, every cell blank, address and shift 0, the modes of R26. -/
def Obligations.InitOnTheDeviceSucceeds : Prop :=
  ∀ s : State, s.fsm ≠ .ready → s.link = .device .good → s.cfg = Config.standard →
    ∃ t, exec .init s = .next t ∧ t.result = 0 ∧ t.diag = .none ∧ t.busy = false ∧ t.fsm = .ready ∧ t.so = 0#6
      ∧ t.chan = s.chan ∧ t.chanSet = s.chanSet
      ∧ t.calls = s.calls ++ (initCalls s.cfg ++ clearCalls s.cfg) ∧ (initCalls s.cfg ++ clearCalls s.cfg).length = 251
      ∧ (∀ a, t.dev.cell a = 0x20#8) ∧ t.dev.ac = 0x00#7 ∧ t.dev.shift = 0#6
      ∧ t.dev.idinc = true ∧ t.dev.sdisp = false ∧ t.dev.dcb = 0b111#3 ∧ t.dev.fn = 0b010#3

/-- R63, R107, R146: INIT on a device that spoils one of its first 80 reads fails, and leaves the test pattern on the
device: 0x80 in cell 0, the byte of iteration `j` in cell `j`, address 0x01. -/
def Obligations.InitOnABadDeviceLeavesThePattern : Prop :=
  ∀ (s : State) (calls : List Nat) (i : Nat), s.fsm ≠ .ready → s.link = .device (.bad calls) →
    s.cfg = Config.standard → i < 80 → s.dev.rdCount + i ∈ calls →
    ∃ t, exec .init s = .next t ∧ t.result = -1 ∧ t.diag = .selfTestFailure ∧ t.busy = false
      ∧ t.fsm = .uninitialized ∧ t.so = 0#6 ∧ t.calls = s.calls ++ initCalls s.cfg
      ∧ t.dev.ac = 0x01#7 ∧ t.dev.cell 0x00#7 = 0x80#8
      ∧ ∀ j, 1 ≤ j → j < 80 → t.dev.cell (addrLin j) = BitVec.ofNat 8 (0x30 + j)
end

