-- ==== Sys2Proof/Laws/Operands.lean ====
section
/-! SUPPORT. What the operand tests and the block's arithmetic say, in plain arithmetic. -/

namespace Sys2Proof.Machine

/-! ### Two's complement numbers of a width (R9, R40, R90) -/

theorem fitsIn_iff (w : Nat) (x : Int) : fitsIn w x = true ↔ -(2 ^ w : Int) ≤ 2 * x ∧ 2 * x < 2 ^ w := by
  rw [fitsIn, Bool.and_eq_true, decide_eq_true_iff, decide_eq_true_iff]

theorem fitsIn_narrow (w : Nat) (x : Int) : fitsIn w (narrow w x) = true := by
  have hp : (0 : Nat) < 2 ^ w := Nat.two_pow_pos w
  have h1 := Int.le_bmod (x := x) hp
  have h2 := Int.bmod_lt (x := x) hp
  rw [fitsIn_iff, narrow]
  have h3 : ((2 ^ w : Nat) : Int) = 2 ^ w := by push_cast; rfl
  omega

theorem narrow_of_fitsIn {w : Nat} {x : Int} (h : fitsIn w x = true) : narrow w x = x := by
  have h2 := (fitsIn_iff _ _).1 h
  have h3 : ((2 ^ w : Nat) : Int) = 2 ^ w := by push_cast; rfl
  exact Int.bmod_eq_of_le_mul_two (by omega) (by omega)

@[simp] theorem narrow_zero (w : Nat) : narrow w 0 = 0 := by simp [narrow]

@[simp] theorem narrow_narrow (w : Nat) (x : Int) : narrow w (narrow w x) = narrow w x :=
  narrow_of_fitsIn (fitsIn_narrow w x)

@[simp] theorem narrow_add_narrow (w : Nat) (x y : Int) : narrow w (x + narrow w y) = narrow w (x + y) :=
  Int.add_bmod_bmod

@[simp] theorem narrow_narrow_add (w : Nat) (x y : Int) : narrow w (narrow w x + y) = narrow w (x + y) :=
  Int.bmod_add_bmod

/-! ### The operand tests -/

theorem isForward_iff (n : Int) : isForward n = true ↔ 0 < n :=
  decide_eq_true_iff

theorem gotoInvalid_iff (row col : Byte) : gotoInvalid row col = true ↔ 39 < col.toNat ∨ 2 < row.toNat := by
  rw [gotoInvalid, Bool.or_eq_true, decide_eq_true_iff, decide_eq_true_iff]
  exact Iff.rfl

theorem visible_iff (col : Byte) : visible col = true ↔ col.toNat ≤ 15 := by
  rw [visible, decide_eq_true_iff]
  exact Iff.rfl

theorem isControl_iff (cfg : Config) (b : Byte) : isControl cfg b = true ↔ b = cfg.chCr ∨ b = cfg.chLf := by
  rw [isControl, Bool.or_eq_true, decide_eq_true_iff, decide_eq_true_iff]

theorem selfTestMatch_iff (i : Nat) (w r : Byte) : selfTestMatch i w r = true ↔ i < 80 ∧ r = w := by
  rw [selfTestMatch, Bool.and_eq_true, decide_eq_true_iff, decide_eq_true_iff]
  exact Iff.rfl

/-- `|n|` steps of the direction's sign make `n`. -/
theorem magnitude_mul_scrollDelta (n : Int) : (magnitude n : Int) * scrollDelta n = n := by
  rw [magnitude, scrollDelta]
  by_cases h : 0 < n
  · rw [if_pos ((isForward_iff n).2 h)]; omega
  · rw [if_neg (fun hf => h ((isForward_iff n).1 hf))]; omega

/-- `k` starts in its range (R21). -/
theorem magnitude_le {cfg : Config} {n : Int} (h : fitsIn cfg.opw n = true) : 2 * magnitude n ≤ 2 ^ cfg.opw := by
  have h2 := (fitsIn_iff _ _).1 h
  have h3 : ((2 ^ cfg.opw : Nat) : Int) = 2 ^ cfg.opw := by push_cast; rfl
  simp only [magnitude]
  omega

/-- The offset stored (R131), as a remainder of integers. -/
theorem scrollReduce_eq (x : Int) : scrollReduce x = BitVec.ofInt 6 (x % 40) := by
  obtain ⟨k, hk⟩ : ∃ k : Nat, x % 40 = k := ⟨(x % 40).toNat, by omega⟩
  rw [scrollReduce, show ((Config.scrollMod : Nat) : Int) = 40 from rfl, hk]
  simp

theorem scrollReduce_lt (x : Int) : (scrollReduce x).toNat < 40 := by
  rw [scrollReduce, show ((Config.scrollMod : Nat) : Int) = 40 from rfl, BitVec.toNat_ofNat]
  omega

/-- The offset answered (R131): no bit is lost in 6 bits. -/
theorem scrollReduce_toNat (x : Int) : ((scrollReduce x).toNat : Int) = x % 40 := by
  rw [scrollReduce, show ((Config.scrollMod : Nat) : Int) = 40 from rfl, BitVec.toNat_ofNat]
  omega

/-- With the byte of R81 the set-address command the block sends is the device's set-DDRAM-address byte (R82). -/
theorem setAddressByte_eq {cmd : Cmd} (h : cmd.setDdram = 0x80#8) (a : Addr) : setAddressByte cmd a = setDdramByte a := by
  rw [setAddressByte, h]
  revert a
  decide

@[simp] theorem setAddressByte_standard (a : Addr) : setAddressByte Cmd.standard a = setDdramByte a :=
  setAddressByte_eq rfl a

end Sys2Proof.Machine
end

