-- ==== Sys2Proof/Laws/Decode.lean ====
section
/-! SUPPORT. The little-endian fields read back what was written, and the request decoder answers well-formed requests only
(R71 to R74, R78). -/

namespace Sys2Proof

open Sys2Proof.Machine

@[simp] theorem writeLE_length (n : Nat) : ∀ v, (writeLE n v).length = n := by
  induction n with
  | zero => exact fun _ => rfl
  | succ n ih => exact fun v => by simp [writeLE, ih]

theorem readLE_writeLE (n : Nat) : ∀ (v : Nat) (rest : List Byte), v < 256 ^ n →
    readLE n (writeLE n v ++ rest) = some (v, rest) := by
  induction n with
  | zero =>
    intro v rest h
    obtain rfl : v = 0 := by omega
    rfl
  | succ n ih =>
    intro v rest h
    rw [pow_succ] at h
    simp only [writeLE, List.cons_append, readLE, ih (v / 256) rest (by omega), BitVec.toNat_ofNat]
    congr 2
    omega

theorem writeLE_readLE (n : Nat) : ∀ (bs : List Byte) (v : Nat) (rest : List Byte), readLE n bs = some (v, rest) →
    bs = writeLE n v ++ rest := by
  induction n with
  | zero => intro bs v rest h; cases h; rfl
  | succ n ih =>
    intro bs v rest h
    match bs, h with
    | b :: bs, h =>
      rw [readLE] at h
      split at h
      · rename_i v' rest' h'
        cases h
        have hb := b.isLt
        have hv : BitVec.ofNat 8 (b.toNat + 256 * v') = b := BitVec.eq_of_toNat_eq (by simp; omega)
        have hq : (b.toNat + 256 * v') / 256 = v' := by omega
        simp only [writeLE, hv, hq, List.cons_append, ← ih _ _ _ h']
      · cases h

/-- Reading fails on too few bytes, and on nothing else. -/
theorem readLE_none (n : Nat) : ∀ bs : List Byte, readLE n bs = none ↔ bs.length < n := by
  induction n with
  | zero => exact fun bs => by simp [readLE]
  | succ n ih =>
    intro bs
    cases bs with
    | nil => simp [readLE]
    | cons b bs =>
      have h := ih bs
      rw [readLE]
      split
      · rename_i h'
        rw [h'] at h
        simpa using h
      · rename_i h'
        rw [h'] at h
        simpa using h

/-- The field of an operand holds its low `OPW` bits (R73). -/
theorem narrow_emod (w : Nat) (x : Int) : narrow w ((x % (2 ^ w : Int)).toNat : Int) = narrow w x := by
  have hp : (0 : Int) < 2 ^ w := by positivity
  have h3 : ((2 ^ w : Nat) : Int) = 2 ^ w := by push_cast; rfl
  rw [Int.toNat_of_nonneg (Int.emod_nonneg x (by omega)), narrow, narrow, ← h3, Int.emod_bmod]

/-- A format W body reads back (R71, R73). -/
theorem decodeW_encodeW {cfg : Config} (mk : Int → Instr) {n : Int} (rest : List Byte) (h : fitsIn cfg.opw n = true) :
    decodeW cfg mk (encodeW cfg n ++ rest) = .ok (mk n, rest) := by
  have hp : (0 : Int) < 2 ^ cfg.opw := by positivity
  have h3 : ((2 ^ cfg.opw : Nat) : Int) = 2 ^ cfg.opw := by push_cast; rfl
  have hn := Int.emod_nonneg n (b := 2 ^ cfg.opw) (by omega)
  have hl := Int.emod_lt_of_pos n hp
  have hlt : (n % (2 ^ cfg.opw : Int)).toNat < 2 ^ cfg.opw := by omega
  have hle : (2 : Nat) ^ cfg.opw ≤ 256 ^ operandBytes cfg := by
    rw [show 256 = 2 ^ 8 by norm_num, ← pow_mul]
    exact Nat.pow_le_pow_right (by omega) (by unfold operandBytes; omega)
  rw [decodeW, encodeW, readLE_writeLE _ _ _ (by omega)]
  simp only [hlt, if_true, narrow_emod, narrow_of_fitsIn h]

/-- What a format W body is read as fits its width, and is written as that body. -/
theorem decodeW_ok {cfg : Config} {mk : Int → Instr} {bs : List Byte} {i : Instr} {rest : List Byte}
    (h : decodeW cfg mk bs = .ok (i, rest)) :
    ∃ n, fitsIn cfg.opw n = true ∧ i = mk n ∧ bs = encodeW cfg n ++ rest := by
  unfold decodeW at h
  split at h
  · rename_i v rest' h'
    split at h
    · rename_i hv
      cases h
      refine ⟨_, fitsIn_narrow _ _, rfl, ?_⟩
      have h3 : ((2 ^ cfg.opw : Nat) : Int) = 2 ^ cfg.opw := by push_cast; rfl
      have he : (narrow cfg.opw v % (2 ^ cfg.opw : Int)).toNat = v := by
        rw [narrow, ← h3, Int.bmod_emod, Int.emod_eq_of_lt (by omega) (by omega)]
        simp
      rw [encodeW, he]
      exact writeLE_readLE _ _ _ _ h'
    · cases h
  · cases h

/-- A format S body holds a string that can be encoded. -/
theorem decodeS_ok {mk : List Byte → Instr} {bs : List Byte} {i : Instr} {rest : List Byte}
    (h : decodeS mk bs = .ok (i, rest)) : ∃ str, stringOk str = true ∧ i = mk str := by
  unfold decodeS at h
  split at h
  · rename_i lo hi body
    split at h
    · cases h
    · split at h
      · rename_i hz
        cases h
        have := (halfOf lo hi).isLt
        exact ⟨_, by simp only [stringOk, hz, Bool.and_true, decide_eq_true_iff, List.length_take]; omega, rfl⟩
      · cases h
  · cases h

/-- The request decoder answers well-formed requests only. -/
theorem decode_request {cfg : Config} {bs : List Byte} {i : Instr} {rest : List Byte} (h : decode cfg bs = .ok (i, rest)) :
    i.isRequest = true ∧ i.wf cfg = true := by
  cases bs with
  | nil => cases h
  | cons op bs =>
    simp only [decode] at h
    split at h
    · cases h; exact ⟨rfl, rfl⟩
    split at h
    · cases h; exact ⟨rfl, rfl⟩
    split at h
    · cases h; exact ⟨rfl, rfl⟩
    split at h
    · unfold decodeB at h
      split at h
      · cases h; exact ⟨rfl, rfl⟩
      · cases h
    split at h
    · cases h; exact ⟨rfl, rfl⟩
    split at h
    · obtain ⟨str, hs, rfl⟩ := decodeS_ok h
      exact ⟨rfl, hs⟩
    split at h
    · obtain ⟨str, hs, rfl⟩ := decodeS_ok h
      exact ⟨rfl, hs⟩
    split at h
    · obtain ⟨n, hn, rfl, -⟩ := decodeW_ok h
      exact ⟨rfl, hn⟩
    split at h
    · unfold decodeRC at h
      split at h
      · cases h; exact ⟨rfl, rfl⟩
      · cases h
    split at h
    · obtain ⟨n, hn, rfl, -⟩ := decodeW_ok h
      exact ⟨rfl, hn⟩
    split at h
    · unfold decodeC at h
      split at h
      · split at h
        · split at h
          · cases h; exact ⟨rfl, rfl⟩
          · cases h
        · cases h
      · cases h
    · cases h

/-- A command's instruction is no request, and is well formed. -/
theorem Command.toInstr_command (cfg : Config) (c : Command) : c.toInstr.isRequest = false ∧ c.toInstr.wf cfg = true := by
  cases c with
  | cursorShift right => cases right <;> exact ⟨rfl, rfl⟩
  | displayShift right => cases right <;> exact ⟨rfl, rfl⟩
  | clear => exact ⟨rfl, rfl⟩
  | home => exact ⟨rfl, rfl⟩
  | entryMode inc shift => exact ⟨rfl, rfl⟩
  | displayCtrl disp cursor blink => exact ⟨rfl, rfl⟩
  | functionSet len lines font => exact ⟨rfl, rfl⟩
  | setDdram a => exact ⟨rfl, rfl⟩

end Sys2Proof
end

