-- ==== Sys2Proof/Laws/Memory.lean ====
section
/-! SUPPORT. The laws of byte memory: a read after a write, and the canonical form kept by every operation. -/

namespace Sys2Proof.Machine

theorem Memory.read_eq_blank_of_lt (m : Memory) (a : Nat) (h : ∀ p ∈ m, a < p.1) : m.read a = Memory.blank := by
  induction m with
  | nil => rfl
  | cons p rest ih =>
    have hp := h p (by simp)
    simp only [Memory.read]
    rw [if_neg (by omega)]
    exact ih (fun q hq => h q (by simp [hq]))

theorem Memory.mem_erase {m : Memory} {a : Nat} {p : Host.Cell} (h : p ∈ m.erase a) : p ∈ m := by
  induction m with
  | nil => exact h
  | cons q rest ih =>
    simp only [Memory.erase] at h
    split at h
    · simp [h]
    · rcases List.mem_cons.1 h with rfl | h
      · simp
      · simp [ih h]

theorem Memory.mem_insert {m : Memory} {a : Nat} {b : Byte} {p : Host.Cell} (h : p ∈ m.insert a b) :
    p = (a, b) ∨ p ∈ m := by
  induction m with
  | nil => simpa [Memory.insert] using h
  | cons q rest ih =>
    simp only [Memory.insert] at h
    split at h
    · simpa using h
    · split at h
      · rcases List.mem_cons.1 h with h | h <;> simp [h]
      · rcases List.mem_cons.1 h with rfl | h
        · simp
        · rcases ih h with h | h <;> simp [h]

theorem Memory.read_insert_same (m : Memory) (a : Nat) (b : Byte) : (m.insert a b).read a = b := by
  induction m with
  | nil => simp [Memory.insert, Memory.read]
  | cons p rest ih =>
    simp only [Memory.insert]
    split
    · simp [Memory.read]
    · split
      · simp [Memory.read]
      · rw [Memory.read, if_neg (by omega)]
        exact ih

theorem Memory.read_insert_other (m : Memory) (a x : Nat) (b : Byte) (h : x ≠ a) :
    (m.insert a b).read x = m.read x := by
  induction m with
  | nil => simp [Memory.insert, Memory.read, h.symm]
  | cons p rest ih =>
    simp only [Memory.insert]
    split
    · simp [Memory.read, h.symm]
    · split
      · rename_i h2
        subst h2
        simp [Memory.read, h.symm]
      · simp [Memory.read, ih]

theorem Memory.read_erase_other (m : Memory) (a x : Nat) (h : x ≠ a) : (m.erase a).read x = m.read x := by
  induction m with
  | nil => rfl
  | cons p rest ih =>
    simp only [Memory.erase]
    split
    · rename_i h2
      subst h2
      simp [Memory.read, h.symm]
    · simp [Memory.read, ih]

theorem Memory.read_erase_same (m : Memory) (a : Nat) (h : m.wf) : (m.erase a).read a = Memory.blank := by
  induction m with
  | nil => rfl
  | cons p rest ih =>
    obtain ⟨hp, hb⟩ := h
    rw [List.pairwise_cons] at hp
    simp only [Memory.erase]
    split
    · rename_i h2
      subst h2
      exact Memory.read_eq_blank_of_lt rest _ hp.1
    · rename_i h2
      rw [Memory.read, if_neg h2]
      exact ih ⟨hp.2, fun q hq => hb q (by simp [hq])⟩

/-- A read after a write to the same address gives the byte written. -/
theorem Memory.read_write_same (m : Memory) (a : Nat) (b : Byte) (h : m.wf) : (m.write a b).read a = b := by
  unfold Memory.write
  split
  · rename_i hb
    rw [hb]
    exact Memory.read_erase_same m a h
  · exact Memory.read_insert_same m a b

/-- A write leaves every other address alone. -/
@[simp] theorem Memory.read_write_other (m : Memory) (a x : Nat) (b : Byte) (h : x ≠ a) :
    (m.write a b).read x = m.read x := by
  unfold Memory.write
  split
  · exact Memory.read_erase_other m a x h
  · exact Memory.read_insert_other m a x b h

theorem Memory.wf_nil : Memory.wf [] :=
  ⟨List.Pairwise.nil, fun _ hp => absurd hp (by simp)⟩

theorem Memory.erase_wf (m : Memory) (a : Nat) (h : m.wf) : (m.erase a).wf := by
  induction m with
  | nil => exact h
  | cons p rest ih =>
    obtain ⟨hp, hb⟩ := h
    rw [List.pairwise_cons] at hp
    have hrest : Memory.wf rest := ⟨hp.2, fun q hq => hb q (by simp [hq])⟩
    simp only [Memory.erase]
    split
    · exact hrest
    · refine ⟨List.pairwise_cons.2 ⟨fun q hq => hp.1 q (Memory.mem_erase hq), (ih hrest).1⟩, fun q hq => ?_⟩
      rcases List.mem_cons.1 hq with rfl | hq
      · exact hb _ (by simp)
      · exact (ih hrest).2 q hq

theorem Memory.insert_wf (m : Memory) (a : Nat) (b : Byte) (h : m.wf) (hne : b ≠ Memory.blank) :
    (m.insert a b).wf := by
  induction m with
  | nil => exact ⟨List.pairwise_singleton _ _, fun q hq => by simpa [List.mem_singleton.1 hq] using hne⟩
  | cons p rest ih =>
    obtain ⟨hp, hb⟩ := h
    rw [List.pairwise_cons] at hp
    have hrest : Memory.wf rest := ⟨hp.2, fun q hq => hb q (by simp [hq])⟩
    simp only [Memory.insert]
    split
    · rename_i hlt
      refine ⟨List.pairwise_cons.2 ⟨fun q hq => ?_, List.pairwise_cons.2 hp⟩, fun q hq => ?_⟩
      · rcases List.mem_cons.1 hq with rfl | hq
        · exact hlt
        · exact Nat.lt_trans hlt (hp.1 q hq)
      · rcases List.mem_cons.1 hq with rfl | hq
        · exact hne
        · exact hb q hq
    · split
      · rename_i heq
        refine ⟨List.pairwise_cons.2 ⟨fun q hq => ?_, hp.2⟩, fun q hq => ?_⟩
        · simpa [heq] using hp.1 q hq
        · rcases List.mem_cons.1 hq with rfl | hq
          · exact hne
          · exact hb q (by simp [hq])
      · rename_i h1 h2
        refine ⟨List.pairwise_cons.2 ⟨fun q hq => ?_, (ih hrest).1⟩, fun q hq => ?_⟩
        · rcases Memory.mem_insert hq with rfl | hq
          · show p.1 < a
            omega
          · exact hp.1 q hq
        · rcases List.mem_cons.1 hq with rfl | hq
          · exact hb _ (by simp)
          · exact (ih hrest).2 q hq

/-- A write keeps the canonical form. -/
theorem Memory.write_wf (m : Memory) (a : Nat) (b : Byte) (h : m.wf) : (m.write a b).wf := by
  unfold Memory.write
  split
  · exact Memory.erase_wf m a h
  · rename_i hne
    exact Memory.insert_wf m a b h hne

/-- A write to a cell keeps the memory within the cells. -/
theorem Memory.write_inCells (m : Memory) (a : Addr) (b : Byte) (h : m.inCells) (ha : validAddr a = true) :
    (m.write a.toNat b).inCells := by
  intro p hp
  unfold Memory.write at hp
  split at hp
  · exact h p (Memory.mem_erase hp)
  · rcases Memory.mem_insert hp with rfl | hp
    · exact ⟨a.isLt, by simpa using ha⟩
    · exact h p hp

/-- Equal canonical memories read equally, and the other way round: the list is determined by what it reads as. -/
theorem Memory.ext_of_read (m n : Memory) (hm : m.wf) (hn : n.wf) (h : ∀ a, m.read a = n.read a) : m = n := by
  induction m generalizing n with
  | nil =>
    cases n with
    | nil => rfl
    | cons q rest =>
      have := h q.1
      simp only [Memory.read, if_true] at this
      exact absurd this.symm (hn.2 q (by simp))
  | cons p rest ih =>
    cases n with
    | nil =>
      have := h p.1
      simp only [Memory.read, if_true] at this
      exact absurd this (hm.2 p (by simp))
    | cons q rest' =>
      obtain ⟨hp, hb⟩ := hm
      obtain ⟨hq, hc⟩ := hn
      rw [List.pairwise_cons] at hp hq
      have hread (x : Nat) : (if p.1 = x then p.2 else Memory.read rest x) = (if q.1 = x then q.2 else Memory.read rest' x) :=
        h x
      have hpq : p.1 = q.1 := by
        rcases Nat.lt_trichotomy p.1 q.1 with hlt | heq | hgt
        · have := hread p.1
          rw [if_pos rfl, if_neg (by omega),
            Memory.read_eq_blank_of_lt rest' _ (fun r hr => Nat.lt_trans hlt (hq.1 r hr))] at this
          exact absurd this (hb p (by simp))
        · exact heq
        · have := hread q.1
          rw [if_pos rfl, if_neg (by omega),
            Memory.read_eq_blank_of_lt rest _ (fun r hr => Nat.lt_trans hgt (hp.1 r hr))] at this
          exact absurd this.symm (hc q (by simp))
      have hv : p.2 = q.2 := by
        have := hread p.1
        rwa [if_pos rfl, if_pos hpq.symm] at this
      have hrest : rest = rest' := by
        refine ih rest' ⟨hp.2, fun r hr => hb r (by simp [hr])⟩ ⟨hq.2, fun r hr => hc r (by simp [hr])⟩ (fun a => ?_)
        by_cases ha : p.1 = a
        · rw [← ha, Memory.read_eq_blank_of_lt rest _ hp.1, hpq, Memory.read_eq_blank_of_lt rest' _ hq.1]
        · have := hread a
          rwa [if_neg ha, if_neg (by omega)] at this
      rw [hrest]
      congr 1
      exact Prod.ext hpq hv

end Sys2Proof.Machine
end

