-- ==== Sys2Proof/Laws/Device.lean ====
section
/-! SUPPORT. The reference device's addresses stay cells, and each of its accesses keeps its invariant (R55, R56). -/

namespace Sys2Proof.Machine

theorem validAddr_incAddr (a : Addr) (h : validAddr a = true) : validAddr (incAddr a) = true := by
  revert a; decide

theorem validAddr_decAddr (a : Addr) (h : validAddr a = true) : validAddr (decAddr a) = true := by
  revert a; decide

theorem moveShift_lt (right : Bool) (x : BitVec 6) : (moveShift right x).toNat < 40 := by
  cases right <;> simp only [moveShift, Config.scrollMod] <;> simp <;> omega

/-- A cell read after a write to it. -/
theorem Device.cell_write_same (d : Device) (a : Addr) (b : Byte) (h : d.ddram.wf) :
    ({ d with ddram := d.ddram.write a.toNat b } : Device).cell a = b :=
  Memory.read_write_same _ _ _ h

/-- A cell read after a write to another. -/
theorem Device.cell_write_other (d : Device) (a x : Addr) (b : Byte) (h : x ≠ a) :
    ({ d with ddram := d.ddram.write a.toNat b } : Device).cell x = d.cell x :=
  Memory.read_write_other _ _ _ _ (fun hx => h (BitVec.eq_of_toNat_eq hx))

theorem Device.run_inv {d e : Device} {c : Command} {r : Reply} (h : d.Inv) (hr : d.run c = .ok r e) : e.Inv := by
  obtain ⟨hac, hwf, hin, hsh⟩ := h
  cases c with
  | clear => cases hr; exact ⟨rfl, Memory.wf_nil, fun _ hp => absurd hp (by simp), by simp⟩
  | home => cases hr; exact ⟨rfl, hwf, hin, by simp⟩
  | entryMode i s => cases hr; exact ⟨hac, hwf, hin, hsh⟩
  | displayCtrl x y z => cases hr; exact ⟨hac, hwf, hin, hsh⟩
  | cursorShift right =>
    cases hr
    refine ⟨?_, hwf, hin, hsh⟩
    cases right
    · exact validAddr_decAddr _ hac
    · exact validAddr_incAddr _ hac
  | displayShift right => cases hr; exact ⟨hac, hwf, hin, moveShift_lt _ _⟩
  | functionSet l n f => cases hr; exact ⟨hac, hwf, hin, hsh⟩
  | setDdram a =>
    simp only [Device.run] at hr
    split at hr
    · cases hr; exact ⟨‹_›, hwf, hin, hsh⟩
    · cases hr

theorem Device.control_inv {d e : Device} {b : Byte} {r : Reply} (h : d.Inv) (hr : d.control b = .ok r e) : e.Inv := by
  unfold Device.control at hr
  split at hr
  · exact Device.run_inv h hr
  · cases hr; exact h
  · cases hr

/-- Every access keeps the device's invariant. -/
theorem Device.answer_inv {d e : Device} {c : Call} {r : Reply} (h : d.Inv) (hr : d.answer c = .ok r e) : e.Inv := by
  cases c with
  | writeControl b => exact Device.control_inv h hr
  | writeData b =>
    simp only [Device.answer, Device.writeData] at hr
    split at hr
    · split at hr
      · cases hr
        exact ⟨validAddr_incAddr _ h.ac, Memory.write_wf _ _ _ h.wf, Memory.write_inCells _ _ _ h.cells h.ac, h.shift⟩
      · cases hr
    · cases hr
  | readData =>
    simp only [Device.answer, Device.readData] at hr
    split at hr
    · split at hr
      · cases hr; exact ⟨validAddr_incAddr _ h.ac, h.wf, h.cells, h.shift⟩
      · cases hr
    · cases hr
  | readAddress => cases hr; exact h
  | busyWait => cases hr; exact h
  | writePort0 x y => cases hr; exact ⟨h.ac, h.wf, h.cells, h.shift⟩
  | writePort1 x => cases hr; exact ⟨h.ac, h.wf, h.cells, h.shift⟩

/-- No access touches the CGRAM (R35). -/
theorem Device.answer_cgram {d e : Device} {c : Call} {r : Reply} (hr : d.answer c = .ok r e) : e.cgram = d.cgram := by
  have hrun (k : Command) (h : d.run k = .ok r e) : e.cgram = d.cgram := by
    cases k <;> simp only [Device.run] at h <;> first | (cases h; rfl) | (split at h <;> cases h; rfl)
  cases c with
  | writeControl b =>
    simp only [Device.answer, Device.control] at hr
    split at hr
    · exact hrun _ hr
    · cases hr; rfl
    · cases hr
  | writeData b =>
    simp only [Device.answer, Device.writeData] at hr
    split at hr
    · split at hr <;> cases hr; rfl
    · cases hr
  | readData =>
    simp only [Device.answer, Device.readData] at hr
    split at hr
    · split at hr <;> cases hr; rfl
    · cases hr
  | readAddress => cases hr; rfl
  | busyWait => cases hr; rfl
  | writePort0 x y => cases hr; rfl
  | writePort1 x => cases hr; rfl

end Sys2Proof.Machine
end

