-- ==== Sys2Proof/Laws/State.lean ====
section
/-! SUPPORT. One lemma per field per named update of the state, true by rfl, so that no later proof unfolds an update. -/

namespace Sys2Proof.Machine

/-! ### setTr -/

@[simp] theorem setTr_cfg (f : Transient → Transient) (s : State) : (setTr f s).cfg = s.cfg := rfl
@[simp] theorem setTr_fsm (f : Transient → Transient) (s : State) : (setTr f s).fsm = s.fsm := rfl
@[simp] theorem setTr_so (f : Transient → Transient) (s : State) : (setTr f s).so = s.so := rfl
@[simp] theorem setTr_chan (f : Transient → Transient) (s : State) : (setTr f s).chan = s.chan := rfl
@[simp] theorem setTr_chanSet (f : Transient → Transient) (s : State) : (setTr f s).chanSet = s.chanSet := rfl
@[simp] theorem setTr_result (f : Transient → Transient) (s : State) : (setTr f s).result = s.result := rfl
@[simp] theorem setTr_diag (f : Transient → Transient) (s : State) : (setTr f s).diag = s.diag := rfl
@[simp] theorem setTr_busy (f : Transient → Transient) (s : State) : (setTr f s).busy = s.busy := rfl
@[simp] theorem setTr_pos (f : Transient → Transient) (s : State) : (setTr f s).pos = s.pos := rfl
@[simp] theorem setTr_tr (f : Transient → Transient) (s : State) : (setTr f s).tr = f s.tr := rfl
@[simp] theorem setTr_port (f : Transient → Transient) (s : State) : (setTr f s).port = s.port := rfl
@[simp] theorem setTr_command (f : Transient → Transient) (s : State) : (setTr f s).command = s.command := rfl
@[simp] theorem setTr_resetReq (f : Transient → Transient) (s : State) : (setTr f s).resetReq = s.resetReq := rfl
@[simp] theorem setTr_link (f : Transient → Transient) (s : State) : (setTr f s).link = s.link := rfl
@[simp] theorem setTr_replies (f : Transient → Transient) (s : State) : (setTr f s).replies = s.replies := rfl
@[simp] theorem setTr_dev (f : Transient → Transient) (s : State) : (setTr f s).dev = s.dev := rfl
@[simp] theorem setTr_calls (f : Transient → Transient) (s : State) : (setTr f s).calls = s.calls := rfl

/-! ### accept -/

@[simp] theorem accept_cfg (i : Instr) (s : State) : (accept i s).cfg = s.cfg := rfl
@[simp] theorem accept_fsm (i : Instr) (s : State) : (accept i s).fsm = s.fsm := rfl
@[simp] theorem accept_so (i : Instr) (s : State) : (accept i s).so = s.so := rfl
@[simp] theorem accept_chan (i : Instr) (s : State) : (accept i s).chan = s.chan := rfl
@[simp] theorem accept_chanSet (i : Instr) (s : State) : (accept i s).chanSet = s.chanSet := rfl
@[simp] theorem accept_result (i : Instr) (s : State) : (accept i s).result = s.result := rfl
@[simp] theorem accept_diag (i : Instr) (s : State) : (accept i s).diag = s.diag := rfl
@[simp] theorem accept_busy (i : Instr) (s : State) : (accept i s).busy = true := rfl
@[simp] theorem accept_pos (i : Instr) (s : State) : (accept i s).pos = some { op := i, ix := 0 } := rfl
@[simp] theorem accept_tr (i : Instr) (s : State) : (accept i s).tr = s.tr := rfl
@[simp] theorem accept_port (i : Instr) (s : State) : (accept i s).port = s.port := rfl
@[simp] theorem accept_command (i : Instr) (s : State) : (accept i s).command = s.command := rfl
@[simp] theorem accept_resetReq (i : Instr) (s : State) : (accept i s).resetReq = s.resetReq := rfl
@[simp] theorem accept_link (i : Instr) (s : State) : (accept i s).link = s.link := rfl
@[simp] theorem accept_replies (i : Instr) (s : State) : (accept i s).replies = s.replies := rfl
@[simp] theorem accept_dev (i : Instr) (s : State) : (accept i s).dev = s.dev := rfl
@[simp] theorem accept_calls (i : Instr) (s : State) : (accept i s).calls = s.calls := rfl

/-! ### respond -/

@[simp] theorem respond_cfg (v : Int) (d : Diag) (s : State) : (respond v d s).cfg = s.cfg := rfl
@[simp] theorem respond_fsm (v : Int) (d : Diag) (s : State) : (respond v d s).fsm = s.fsm := rfl
@[simp] theorem respond_so (v : Int) (d : Diag) (s : State) : (respond v d s).so = s.so := rfl
@[simp] theorem respond_chan (v : Int) (d : Diag) (s : State) : (respond v d s).chan = s.chan := rfl
@[simp] theorem respond_chanSet (v : Int) (d : Diag) (s : State) : (respond v d s).chanSet = s.chanSet := rfl
@[simp] theorem respond_result (v : Int) (d : Diag) (s : State) : (respond v d s).result = narrow s.cfg.resw v := rfl
@[simp] theorem respond_diag (v : Int) (d : Diag) (s : State) : (respond v d s).diag = d := rfl
@[simp] theorem respond_busy (v : Int) (d : Diag) (s : State) : (respond v d s).busy = false := rfl
@[simp] theorem respond_pos (v : Int) (d : Diag) (s : State) : (respond v d s).pos = none := rfl
@[simp] theorem respond_tr (v : Int) (d : Diag) (s : State) : (respond v d s).tr = Transient.idle := rfl
@[simp] theorem respond_port (v : Int) (d : Diag) (s : State) : (respond v d s).port = s.port := rfl
@[simp] theorem respond_command (v : Int) (d : Diag) (s : State) : (respond v d s).command = s.command := rfl
@[simp] theorem respond_resetReq (v : Int) (d : Diag) (s : State) : (respond v d s).resetReq = s.resetReq := rfl
@[simp] theorem respond_link (v : Int) (d : Diag) (s : State) : (respond v d s).link = s.link := rfl
@[simp] theorem respond_replies (v : Int) (d : Diag) (s : State) : (respond v d s).replies = s.replies := rfl
@[simp] theorem respond_dev (v : Int) (d : Diag) (s : State) : (respond v d s).dev = s.dev := rfl
@[simp] theorem respond_calls (v : Int) (d : Diag) (s : State) : (respond v d s).calls = s.calls := rfl

/-! ### issue -/

@[simp] theorem issue_cfg (c : Call) (s : State) : (issue c s).cfg = s.cfg := rfl
@[simp] theorem issue_fsm (c : Call) (s : State) : (issue c s).fsm = s.fsm := rfl
@[simp] theorem issue_so (c : Call) (s : State) : (issue c s).so = s.so := rfl
@[simp] theorem issue_chan (c : Call) (s : State) : (issue c s).chan = s.chan := rfl
@[simp] theorem issue_chanSet (c : Call) (s : State) : (issue c s).chanSet = s.chanSet := rfl
@[simp] theorem issue_result (c : Call) (s : State) : (issue c s).result = s.result := rfl
@[simp] theorem issue_diag (c : Call) (s : State) : (issue c s).diag = s.diag := rfl
@[simp] theorem issue_busy (c : Call) (s : State) : (issue c s).busy = s.busy := rfl
@[simp] theorem issue_pos (c : Call) (s : State) : (issue c s).pos = s.pos.map (fun p => { p with ix := p.ix + 1 }) := rfl
@[simp] theorem issue_tr (c : Call) (s : State) : (issue c s).tr = s.tr := rfl
@[simp] theorem issue_port (c : Call) (s : State) : (issue c s).port = s.port := rfl
@[simp] theorem issue_command (c : Call) (s : State) : (issue c s).command = s.command := rfl
@[simp] theorem issue_resetReq (c : Call) (s : State) : (issue c s).resetReq = s.resetReq := rfl
@[simp] theorem issue_link (c : Call) (s : State) : (issue c s).link = s.link := rfl
@[simp] theorem issue_replies (c : Call) (s : State) : (issue c s).replies = s.replies := rfl
@[simp] theorem issue_dev (c : Call) (s : State) : (issue c s).dev = s.dev := rfl
@[simp] theorem issue_calls (c : Call) (s : State) : (issue c s).calls = s.calls ++ [c] := rfl

/-! ### selectColour -/

@[simp] theorem selectColour_cfg (c : Channels) (s : State) : (selectColour c s).cfg = s.cfg := rfl
@[simp] theorem selectColour_fsm (c : Channels) (s : State) : (selectColour c s).fsm = s.fsm := rfl
@[simp] theorem selectColour_so (c : Channels) (s : State) : (selectColour c s).so = s.so := rfl
@[simp] theorem selectColour_chan (c : Channels) (s : State) : (selectColour c s).chan = c := rfl
@[simp] theorem selectColour_chanSet (c : Channels) (s : State) : (selectColour c s).chanSet = true := rfl
@[simp] theorem selectColour_result (c : Channels) (s : State) : (selectColour c s).result = s.result := rfl
@[simp] theorem selectColour_diag (c : Channels) (s : State) : (selectColour c s).diag = s.diag := rfl
@[simp] theorem selectColour_busy (c : Channels) (s : State) : (selectColour c s).busy = s.busy := rfl
@[simp] theorem selectColour_pos (c : Channels) (s : State) : (selectColour c s).pos = s.pos := rfl
@[simp] theorem selectColour_tr (c : Channels) (s : State) : (selectColour c s).tr = s.tr := rfl
@[simp] theorem selectColour_port (c : Channels) (s : State) : (selectColour c s).port = s.port := rfl
@[simp] theorem selectColour_command (c : Channels) (s : State) : (selectColour c s).command = s.command := rfl
@[simp] theorem selectColour_resetReq (c : Channels) (s : State) : (selectColour c s).resetReq = s.resetReq := rfl
@[simp] theorem selectColour_link (c : Channels) (s : State) : (selectColour c s).link = s.link := rfl
@[simp] theorem selectColour_replies (c : Channels) (s : State) : (selectColour c s).replies = s.replies := rfl
@[simp] theorem selectColour_dev (c : Channels) (s : State) : (selectColour c s).dev = s.dev := rfl
@[simp] theorem selectColour_calls (c : Channels) (s : State) : (selectColour c s).calls = s.calls := rfl

/-! ### resetEvent -/

@[simp] theorem resetEvent_cfg (s : State) : (resetEvent s).cfg = s.cfg := rfl
@[simp] theorem resetEvent_fsm (s : State) : (resetEvent s).fsm = .uninitialized := rfl
@[simp] theorem resetEvent_so (s : State) : (resetEvent s).so = 0#6 := rfl
@[simp] theorem resetEvent_chan (s : State) : (resetEvent s).chan = State.reset.chan := rfl
@[simp] theorem resetEvent_chanSet (s : State) : (resetEvent s).chanSet = false := rfl
@[simp] theorem resetEvent_result (s : State) : (resetEvent s).result = 0 := rfl
@[simp] theorem resetEvent_diag (s : State) : (resetEvent s).diag = .none := rfl
@[simp] theorem resetEvent_busy (s : State) : (resetEvent s).busy = false := rfl
@[simp] theorem resetEvent_pos (s : State) : (resetEvent s).pos = none := rfl
@[simp] theorem resetEvent_tr (s : State) : (resetEvent s).tr = Transient.idle := rfl
@[simp] theorem resetEvent_port (s : State) : (resetEvent s).port = s.port := rfl
@[simp] theorem resetEvent_command (s : State) : (resetEvent s).command = s.command := rfl
@[simp] theorem resetEvent_resetReq (s : State) : (resetEvent s).resetReq = false := rfl
@[simp] theorem resetEvent_link (s : State) : (resetEvent s).link = s.link := rfl
@[simp] theorem resetEvent_replies (s : State) : (resetEvent s).replies = s.replies := rfl
@[simp] theorem resetEvent_dev (s : State) : (resetEvent s).dev = s.dev := rfl
@[simp] theorem resetEvent_calls (s : State) : (resetEvent s).calls = s.calls := rfl

/-! ### responded -/

@[simp] theorem State.responded_cfg (s : State) (cs : List Call) (v : Int) (d : Diag) : (s.responded cs v d).cfg = s.cfg := rfl
@[simp] theorem State.responded_fsm (s : State) (cs : List Call) (v : Int) (d : Diag) : (s.responded cs v d).fsm = s.fsm := rfl
@[simp] theorem State.responded_so (s : State) (cs : List Call) (v : Int) (d : Diag) : (s.responded cs v d).so = s.so := rfl
@[simp] theorem State.responded_chan (s : State) (cs : List Call) (v : Int) (d : Diag) : (s.responded cs v d).chan = s.chan := rfl
@[simp] theorem State.responded_chanSet (s : State) (cs : List Call) (v : Int) (d : Diag) : (s.responded cs v d).chanSet = s.chanSet := rfl
@[simp] theorem State.responded_result (s : State) (cs : List Call) (v : Int) (d : Diag) : (s.responded cs v d).result = narrow s.cfg.resw v := rfl
@[simp] theorem State.responded_diag (s : State) (cs : List Call) (v : Int) (d : Diag) : (s.responded cs v d).diag = d := rfl
@[simp] theorem State.responded_busy (s : State) (cs : List Call) (v : Int) (d : Diag) : (s.responded cs v d).busy = false := rfl
@[simp] theorem State.responded_pos (s : State) (cs : List Call) (v : Int) (d : Diag) : (s.responded cs v d).pos = none := rfl
@[simp] theorem State.responded_tr (s : State) (cs : List Call) (v : Int) (d : Diag) : (s.responded cs v d).tr = Transient.idle := rfl
@[simp] theorem State.responded_port (s : State) (cs : List Call) (v : Int) (d : Diag) : (s.responded cs v d).port = s.port := rfl
@[simp] theorem State.responded_command (s : State) (cs : List Call) (v : Int) (d : Diag) : (s.responded cs v d).command = s.command := rfl
@[simp] theorem State.responded_resetReq (s : State) (cs : List Call) (v : Int) (d : Diag) : (s.responded cs v d).resetReq = s.resetReq := rfl
@[simp] theorem State.responded_link (s : State) (cs : List Call) (v : Int) (d : Diag) : (s.responded cs v d).link = s.link := rfl
@[simp] theorem State.responded_replies (s : State) (cs : List Call) (v : Int) (d : Diag) : (s.responded cs v d).replies = s.replies := rfl
@[simp] theorem State.responded_dev (s : State) (cs : List Call) (v : Int) (d : Diag) : (s.responded cs v d).dev = s.dev := rfl
@[simp] theorem State.responded_calls (s : State) (cs : List Call) (v : Int) (d : Diag) : (s.responded cs v d).calls = s.calls ++ cs := rfl

/-! ### addStatus: only the transient registers change -/

@[simp] theorem addStatus_cfg (st : Int) (s : State) : (addStatus st s).cfg = s.cfg := rfl
@[simp] theorem addStatus_fsm (st : Int) (s : State) : (addStatus st s).fsm = s.fsm := rfl
@[simp] theorem addStatus_so (st : Int) (s : State) : (addStatus st s).so = s.so := rfl
@[simp] theorem addStatus_chan (st : Int) (s : State) : (addStatus st s).chan = s.chan := rfl
@[simp] theorem addStatus_chanSet (st : Int) (s : State) : (addStatus st s).chanSet = s.chanSet := rfl
@[simp] theorem addStatus_result (st : Int) (s : State) : (addStatus st s).result = s.result := rfl
@[simp] theorem addStatus_diag (st : Int) (s : State) : (addStatus st s).diag = s.diag := rfl
@[simp] theorem addStatus_busy (st : Int) (s : State) : (addStatus st s).busy = s.busy := rfl
@[simp] theorem addStatus_pos (st : Int) (s : State) : (addStatus st s).pos = s.pos := rfl
@[simp] theorem addStatus_port (st : Int) (s : State) : (addStatus st s).port = s.port := rfl
@[simp] theorem addStatus_command (st : Int) (s : State) : (addStatus st s).command = s.command := rfl
@[simp] theorem addStatus_resetReq (st : Int) (s : State) : (addStatus st s).resetReq = s.resetReq := rfl
@[simp] theorem addStatus_link (st : Int) (s : State) : (addStatus st s).link = s.link := rfl
@[simp] theorem addStatus_replies (st : Int) (s : State) : (addStatus st s).replies = s.replies := rfl
@[simp] theorem addStatus_dev (st : Int) (s : State) : (addStatus st s).dev = s.dev := rfl
@[simp] theorem addStatus_calls (st : Int) (s : State) : (addStatus st s).calls = s.calls := rfl

/-! ### loadBuffer: only the transient registers change -/

@[simp] theorem loadBuffer_cfg (buf : List Byte) (s : State) : (loadBuffer buf s).cfg = s.cfg := rfl
@[simp] theorem loadBuffer_fsm (buf : List Byte) (s : State) : (loadBuffer buf s).fsm = s.fsm := rfl
@[simp] theorem loadBuffer_so (buf : List Byte) (s : State) : (loadBuffer buf s).so = s.so := rfl
@[simp] theorem loadBuffer_chan (buf : List Byte) (s : State) : (loadBuffer buf s).chan = s.chan := rfl
@[simp] theorem loadBuffer_chanSet (buf : List Byte) (s : State) : (loadBuffer buf s).chanSet = s.chanSet := rfl
@[simp] theorem loadBuffer_result (buf : List Byte) (s : State) : (loadBuffer buf s).result = s.result := rfl
@[simp] theorem loadBuffer_diag (buf : List Byte) (s : State) : (loadBuffer buf s).diag = s.diag := rfl
@[simp] theorem loadBuffer_busy (buf : List Byte) (s : State) : (loadBuffer buf s).busy = s.busy := rfl
@[simp] theorem loadBuffer_pos (buf : List Byte) (s : State) : (loadBuffer buf s).pos = s.pos := rfl
@[simp] theorem loadBuffer_port (buf : List Byte) (s : State) : (loadBuffer buf s).port = s.port := rfl
@[simp] theorem loadBuffer_command (buf : List Byte) (s : State) : (loadBuffer buf s).command = s.command := rfl
@[simp] theorem loadBuffer_resetReq (buf : List Byte) (s : State) : (loadBuffer buf s).resetReq = s.resetReq := rfl
@[simp] theorem loadBuffer_link (buf : List Byte) (s : State) : (loadBuffer buf s).link = s.link := rfl
@[simp] theorem loadBuffer_replies (buf : List Byte) (s : State) : (loadBuffer buf s).replies = s.replies := rfl
@[simp] theorem loadBuffer_dev (buf : List Byte) (s : State) : (loadBuffer buf s).dev = s.dev := rfl
@[simp] theorem loadBuffer_calls (buf : List Byte) (s : State) : (loadBuffer buf s).calls = s.calls := rfl

/-! ### loadTestByte: only the transient registers change -/

@[simp] theorem loadTestByte_cfg (s : State) : (loadTestByte s).cfg = s.cfg := rfl
@[simp] theorem loadTestByte_fsm (s : State) : (loadTestByte s).fsm = s.fsm := rfl
@[simp] theorem loadTestByte_so (s : State) : (loadTestByte s).so = s.so := rfl
@[simp] theorem loadTestByte_chan (s : State) : (loadTestByte s).chan = s.chan := rfl
@[simp] theorem loadTestByte_chanSet (s : State) : (loadTestByte s).chanSet = s.chanSet := rfl
@[simp] theorem loadTestByte_result (s : State) : (loadTestByte s).result = s.result := rfl
@[simp] theorem loadTestByte_diag (s : State) : (loadTestByte s).diag = s.diag := rfl
@[simp] theorem loadTestByte_busy (s : State) : (loadTestByte s).busy = s.busy := rfl
@[simp] theorem loadTestByte_pos (s : State) : (loadTestByte s).pos = s.pos := rfl
@[simp] theorem loadTestByte_port (s : State) : (loadTestByte s).port = s.port := rfl
@[simp] theorem loadTestByte_command (s : State) : (loadTestByte s).command = s.command := rfl
@[simp] theorem loadTestByte_resetReq (s : State) : (loadTestByte s).resetReq = s.resetReq := rfl
@[simp] theorem loadTestByte_link (s : State) : (loadTestByte s).link = s.link := rfl
@[simp] theorem loadTestByte_replies (s : State) : (loadTestByte s).replies = s.replies := rfl
@[simp] theorem loadTestByte_dev (s : State) : (loadTestByte s).dev = s.dev := rfl
@[simp] theorem loadTestByte_calls (s : State) : (loadTestByte s).calls = s.calls := rfl

/-! ### countMatch: only the transient registers change -/

@[simp] theorem countMatch_cfg (r : Byte) (s : State) : (countMatch r s).cfg = s.cfg := rfl
@[simp] theorem countMatch_fsm (r : Byte) (s : State) : (countMatch r s).fsm = s.fsm := rfl
@[simp] theorem countMatch_so (r : Byte) (s : State) : (countMatch r s).so = s.so := rfl
@[simp] theorem countMatch_chan (r : Byte) (s : State) : (countMatch r s).chan = s.chan := rfl
@[simp] theorem countMatch_chanSet (r : Byte) (s : State) : (countMatch r s).chanSet = s.chanSet := rfl
@[simp] theorem countMatch_result (r : Byte) (s : State) : (countMatch r s).result = s.result := rfl
@[simp] theorem countMatch_diag (r : Byte) (s : State) : (countMatch r s).diag = s.diag := rfl
@[simp] theorem countMatch_busy (r : Byte) (s : State) : (countMatch r s).busy = s.busy := rfl
@[simp] theorem countMatch_pos (r : Byte) (s : State) : (countMatch r s).pos = s.pos := rfl
@[simp] theorem countMatch_port (r : Byte) (s : State) : (countMatch r s).port = s.port := rfl
@[simp] theorem countMatch_command (r : Byte) (s : State) : (countMatch r s).command = s.command := rfl
@[simp] theorem countMatch_resetReq (r : Byte) (s : State) : (countMatch r s).resetReq = s.resetReq := rfl
@[simp] theorem countMatch_link (r : Byte) (s : State) : (countMatch r s).link = s.link := rfl
@[simp] theorem countMatch_replies (r : Byte) (s : State) : (countMatch r s).replies = s.replies := rfl
@[simp] theorem countMatch_dev (r : Byte) (s : State) : (countMatch r s).dev = s.dev := rfl
@[simp] theorem countMatch_calls (r : Byte) (s : State) : (countMatch r s).calls = s.calls := rfl

@[simp] theorem addStatus_tr (st : Int) (s : State) :
    (addStatus st s).tr = { s.tr with sum := narrow s.cfg.resw (s.tr.sum + st) } := rfl

@[simp] theorem loadBuffer_tr (buf : List Byte) (s : State) :
    (loadBuffer buf s).tr = { s.tr with j := 0, m := buf.length, buf := buf } := rfl

@[simp] theorem loadTestByte_tr (s : State) :
    (loadTestByte s).tr = { s.tr with w := testByte s.cfg s.tr.i } := rfl

@[simp] theorem countMatch_tr (r : Byte) (s : State) :
    (countMatch r s).tr =
      { s.tr with
        r := r, cnt := if selfTestMatch s.tr.i s.tr.w r then s.tr.cnt + 1 else s.tr.cnt, i := s.tr.i + 1 } := rfl

end Sys2Proof.Machine
end

