-- ==== Sys2Proof/Laws/Run.lean ====
section
/-! SUPPORT. The laws of sequencing: what the parts of an operation do one after another, and the rule by which a fact about
every state an operation can end or hang in is carried through its parts. -/

namespace Sys2Proof.Machine

@[simp] theorem Run.bind_done {α β : Type} (a : α) (s : State) (f : α → State → Run β) :
    (Run.done a s).bind f = f a s := rfl

@[simp] theorem Run.bind_hung {α β : Type} (s : State) (f : α → State → Run β) : (Run.hung s).bind f = .hung s := rfl

@[simp] theorem Run.bind_fault {α β : Type} (e : Fault) (f : α → State → Run β) : (Run.fault e).bind f = .fault e := rfl

@[simp] theorem Run.bind_refused {α β : Type} (e : Refusal) (f : α → State → Run β) :
    (Run.refused e).bind f = .refused e := rfl

/-- A part whose end is known hands over to the next. -/
theorem Run.bind_of_done {α β : Type} {x : Run α} {a : α} {t : State} (f : α → State → Run β) (h : x = .done a t) :
    x.bind f = f a t := by
  rw [h]
  rfl

theorem Run.bind_assoc {α β γ : Type} (x : Run α) (f : α → State → Run β) (g : β → State → Run γ) :
    (x.bind f).bind g = x.bind (fun a s => (f a s).bind g) := by
  cases x <;> rfl

/-- `Q` holds where the part goes on, `H` where it hangs; nothing is said where it stops. -/
def Run.Post {α : Type} (Q : α → State → Prop) (H : State → Prop) : Run α → Prop
  | .done a s => Q a s
  | .hung s => H s
  | .fault _ => True
  | .refused _ => True

@[simp] theorem Run.post_done {α : Type} (Q : α → State → Prop) (H : State → Prop) (a : α) (s : State) :
    (Run.done a s).Post Q H ↔ Q a s := Iff.rfl

@[simp] theorem Run.post_hung {α : Type} (Q : α → State → Prop) (H : State → Prop) (s : State) :
    (Run.hung s : Run α).Post Q H ↔ H s := Iff.rfl

@[simp] theorem Run.post_fault {α : Type} (Q : α → State → Prop) (H : State → Prop) (f : Fault) :
    (Run.fault f : Run α).Post Q H := trivial

@[simp] theorem Run.post_refused {α : Type} (Q : α → State → Prop) (H : State → Prop) (r : Refusal) :
    (Run.refused r : Run α).Post Q H := trivial

/-- The sequencing rule. -/
theorem Run.Post.seq {α β : Type} {P : α → State → Prop} {Q : β → State → Prop} {H : State → Prop} {x : Run α}
    {f : α → State → Run β} (hx : x.Post P H) (hf : ∀ a s, P a s → (f a s).Post Q H) : (x.bind f).Post Q H := by
  cases x with
  | done a s => exact hf a s hx
  | hung s => exact hx
  | fault _ => trivial
  | refused _ => trivial

theorem Run.Post.mono {α : Type} {P Q : α → State → Prop} {G H : State → Prop} {x : Run α} (hx : x.Post P G)
    (hd : ∀ a s, P a s → Q a s) (hh : ∀ s, G s → H s) : x.Post Q H := by
  cases x with
  | done a s => exact hd a s hx
  | hung s => exact hh s hx
  | fault _ => trivial
  | refused _ => trivial

theorem Run.Post.and {α : Type} {P Q : α → State → Prop} {G H : State → Prop} {x : Run α} (hx : x.Post P G)
    (hy : x.Post Q H) : x.Post (fun a s => P a s ∧ Q a s) (fun s => G s ∧ H s) := by
  cases x with
  | done a s => exact ⟨hx, hy⟩
  | hung s => exact ⟨hx, hy⟩
  | fault _ => trivial
  | refused _ => trivial

/-- A next state of a whole operation is one it ended or hung in. -/
theorem finish_next {P : State → Prop} {x : Run Unit} {t : State} (h : finish x = .next t)
    (hx : x.Post (fun _ s => P s) P) : P t := by
  cases x with
  | done a s => cases h; exact hx
  | hung s => cases h; exact hx
  | fault _ => cases h
  | refused _ => cases h

@[simp] theorem finish_done (a : Unit) (s : State) : finish (.done a s) = .next s := rfl

@[simp] theorem finish_hung (s : State) : finish (.hung s) = .next s := rfl

/-- The ready gate, open. -/
theorem whenReady_ready {i : Instr} {body : State → Run Unit} {s : State} (h : s.fsm = .ready) :
    whenReady i body s = finish (body (accept i s)) := if_pos h

/-- The ready gate, shut (R174). -/
theorem whenReady_notReady {i : Instr} {body : State → Run Unit} {s : State} (h : s.fsm ≠ .ready) :
    whenReady i body s = .refused .notReady := if_neg h

/-- A gated operation that answers a next state was accepted in Ready. -/
theorem whenReady_next {i : Instr} {body : State → Run Unit} {s t : State} (h : whenReady i body s = .next t) :
    s.fsm = .ready ∧ finish (body (accept i s)) = .next t := by
  unfold whenReady at h
  split at h
  · exact ⟨‹_›, h⟩
  · cases h

end Sys2Proof.Machine
end

