-- ==== Sys2Proof/Laws/Transport.lean ====
section
/-! SUPPORT. What a transport call can do, said once: under an oracle, under the good reference device, and in general. -/

namespace Sys2Proof.Machine

/-- What a call can change: the record of calls and the position by `issue`; the answers left, the fixture and the device
by being answered. -/
structure CallFrame (c : Call) (s t : State) : Prop where
  frame  : t = { issue c s with link := t.link, replies := t.replies, dev := t.dev }
  oracle : s.link = .oracle → t.link = .oracle ∧ t.dev = s.dev
  dev    : t.dev = s.dev ∨ ∃ r, s.dev.answer c = .ok r t.dev

theorem deviceCall_post (fx : Fixture) (c : Call) (s : State) (l : Link) (hl : s.link ≠ .oracle) :
    (deviceCall fx c { issue c s with link := l }).Post (fun _ t => CallFrame c s t) (CallFrame c s) := by
  unfold deviceCall
  split
  · rename_i r d h
    exact ⟨rfl, fun h' => absurd h' hl, Or.inr ⟨r, h⟩⟩
  · trivial
  · trivial

/-- A call goes on or hangs in a state that only its frame tells from the one before. -/
theorem call_post (c : Call) (s : State) : (call c s).Post (fun _ t => CallFrame c s t) (CallFrame c s) := by
  unfold call
  split
  · rename_i h
    unfold oracleCall
    split
    · exact ⟨rfl, fun _ => ⟨h, rfl⟩, Or.inl rfl⟩
    · exact ⟨rfl, fun _ => ⟨h, rfl⟩, Or.inl rfl⟩
    · exact ⟨rfl, fun _ => ⟨h, rfl⟩, Or.inl rfl⟩
  · rename_i n h
    have hl : s.link ≠ .oracle := by simp [h]
    unfold hangingCall
    split
    · exact ⟨rfl, fun h' => absurd h' hl, Or.inl rfl⟩
    · exact deviceCall_post .good c s _ hl
  · rename_i fx h1 h2
    exact deviceCall_post fx c s s.link (by simp [h2])

/-- Under an oracle a call brings back the next answer. -/
theorem call_oracle {c : Call} {s : State} {r : Reply} {rest : List (Option Reply)} (hl : s.link = .oracle)
    (hr : s.replies = some r :: rest) : call c s = .done r { issue c s with replies := rest } := by
  simp [call, hl, oracleCall, hr]

/-- The good reference device answers as R55 to R62 say. -/
theorem call_good {c : Call} {s : State} (hl : s.link = .device .good) : call c s = deviceCall .good c (issue c s) := by
  simp [call, hl]

/-- Whatever follows a call, a fact about every state it can lead to is enough. -/
theorem call_seq {β : Type} {c : Call} {s : State} {Q : β → State → Prop} {H : State → Prop} {f : Reply → State → Run β}
    (hd : ∀ r t, CallFrame c s t → (f r t).Post Q H) (hh : ∀ t, CallFrame c s t → H t) :
    ((call c s).bind f).Post Q H :=
  Run.Post.seq (P := fun _ t => CallFrame c s t) ((call_post c s).mono (fun _ _ h => h) hh) hd

end Sys2Proof.Machine
end

