-- ==== Sys2Proof/Laws/Frame.lean ====
section
/-! SUPPORT. What each part of an operation can change, on any transport, whether it goes on or hangs: the frame of a part,
composed from the frame of a call. -/

namespace Sys2Proof.Machine

/-- A part of an operation makes at most `n` calls, all of a kind in `C`; it changes nothing but the trace, the position, the
transport's answers, the device behind it and the transient registers, and `so` to 0 where `z` says so. -/
structure PartFrame (C : Call → Prop) (n : Nat) (z : Bool) (s t : State) : Prop where
  frame  : ∃ new : List Call, new.length ≤ n ∧ (∀ c ∈ new, C c)
    ∧ t = { s with
            calls := s.calls ++ new, pos := s.pos.map (fun p => { p with ix := p.ix + new.length }),
            so := t.so, link := t.link, replies := t.replies, dev := t.dev, tr := t.tr }
  scroll : t.so = s.so ∨ (z = true ∧ t.so = 0#6)
  oracle : s.link = .oracle → t.link = .oracle ∧ t.dev = s.dev
  device : ∀ Q : Device → Prop, (∀ d c r e, C c → Q d → d.answer c = .ok r e → Q e) → Q s.dev → Q t.dev

/-- A part on its way: the same frame whether it goes on or hangs. -/
abbrev Framed {α : Type} (C : Call → Prop) (n : Nat) (z : Bool) (s : State) (x : Run α) : Prop :=
  x.Post (fun _ t => PartFrame C n z s t) (PartFrame C n z s)

theorem PartFrame.refl (C : Call → Prop) (n : Nat) (z : Bool) (s : State) : PartFrame C n z s s :=
  ⟨⟨[], by simp, by simp, by simp⟩, Or.inl rfl, fun h => ⟨h, rfl⟩, fun _ _ h => h⟩

theorem PartFrame.mono {C D : Call → Prop} {n m : Nat} {z y : Bool} {s t : State} (h : PartFrame C n z s t)
    (hc : ∀ c, C c → D c) (hn : n ≤ m) (hz : z = true → y = true) : PartFrame D m y s t := by
  obtain ⟨⟨new, h1, h2, h3⟩, h4, h5, h6⟩ := h
  exact ⟨⟨new, Nat.le_trans h1 hn, fun c hcn => hc c (h2 c hcn), h3⟩, h4.imp_right (fun h => ⟨hz h.1, h.2⟩), h5,
    fun Q hq => h6 Q (fun d c r e hd => hq d c r e (hc c hd))⟩

theorem PartFrame.trans {C : Call → Prop} {n m : Nat} {z y : Bool} {s t u : State} (h : PartFrame C n z s t)
    (k : PartFrame C m y t u) : PartFrame C (n + m) (z || y) s u := by
  obtain ⟨⟨new, h1, h2, h3⟩, h4, h5, h6⟩ := h
  obtain ⟨⟨new', k1, k2, k3⟩, k4, k5, k6⟩ := k
  refine ⟨⟨new ++ new', by simp; omega, ?_, ?_⟩, ?_, ?_, ?_⟩
  · intro c hc
    exact (List.mem_append.1 hc).elim (h2 c) (k2 c)
  · rw [k3, h3]
    simp [Function.comp_def, Nat.add_assoc]
  · rcases k4 with k4 | k4
    · rcases h4 with h4 | h4
      · exact Or.inl (k4.trans h4)
      · exact Or.inr ⟨by simp [h4.1], k4.trans h4.2⟩
    · exact Or.inr ⟨by simp [k4.1], k4.2⟩
  · intro hl
    obtain ⟨hl, hd⟩ := h5 hl
    obtain ⟨hk, hd'⟩ := k5 hl
    exact ⟨hk, hd'.trans hd⟩
  · exact fun Q hq hs => k6 Q hq (h6 Q hq hs)

theorem PartFrame.cfg {C : Call → Prop} {n : Nat} {z : Bool} {s t : State} (h : PartFrame C n z s t) : t.cfg = s.cfg := by
  obtain ⟨_, _, _, h⟩ := h.frame
  rw [h]

/-- One call. -/
theorem PartFrame.of_call {c : Call} {s t : State} (h : CallFrame c s t) : PartFrame (· = c) 1 false s t := by
  refine ⟨⟨[c], by simp, by simp, ?_⟩, ?_, h.oracle, ?_⟩
  · rw [h.frame]
    rfl
  · rw [h.frame]
    exact Or.inl rfl
  · intro Q hq hs
    rcases h.dev with hd | ⟨r, hd⟩
    · rwa [hd]
    · exact hq _ c r _ rfl hs hd

/-- A change of the transient registers. -/
theorem PartFrame.of_setTr (C : Call → Prop) (n : Nat) (z : Bool) (f : Transient → Transient) (s : State) :
    PartFrame C n z s (setTr f s) :=
  ⟨⟨[], by simp, by simp, by simp [setTr]⟩, Or.inl rfl, fun h => ⟨h, rfl⟩, fun _ _ h => h⟩

/-- The sequencing rule for frames. -/
theorem Framed.seq {α β : Type} {C : Call → Prop} {n m k : Nat} {z y w : Bool} {s : State} {x : Run α}
    {f : α → State → Run β} (hx : Framed C n z s x) (hf : ∀ a t, PartFrame C n z s t → Framed C m y t (f a t))
    (hk : n + m ≤ k) (hw : (z || y) = true → w = true) : Framed C k w s (x.bind f) := by
  refine Run.Post.seq (P := fun _ t => PartFrame C n z s t) (hx.mono (fun _ _ h => h) ?_) ?_
  · exact fun t h => h.mono (fun _ h => h) (by omega) (fun h => hw (by simp [h]))
  · exact fun a t h => (hf a t h).mono (fun _ u hu => (h.trans hu).mono (fun _ h => h) hk hw)
      (fun u hu => (h.trans hu).mono (fun _ h => h) hk hw)

theorem Framed.mono {α : Type} {C D : Call → Prop} {n m : Nat} {z y : Bool} {s : State} {x : Run α} (h : Framed C n z s x)
    (hc : ∀ c, C c → D c) (hn : n ≤ m) (hz : z = true → y = true) : Framed D m y s x :=
  Run.Post.mono h (fun _ _ h => h.mono hc hn hz) (fun _ h => h.mono hc hn hz)

/-- A part that starts after a change of the transient registers. -/
theorem Framed.after_setTr {α : Type} {C : Call → Prop} {n : Nat} {z : Bool} {s : State} {f : Transient → Transient}
    {x : Run α} (h : Framed C n z (setTr f s) x) : Framed C n z s x :=
  Run.Post.mono h
    (fun _ _ h => ((PartFrame.of_setTr C 0 z f s).trans h).mono (fun _ h => h) (by omega) (by simp))
    (fun _ h => ((PartFrame.of_setTr C 0 z f s).trans h).mono (fun _ h => h) (by omega) (by simp))

/-- The sequencing rule for parts that leave `so` alone. -/
theorem Framed.next {α β : Type} {C : Call → Prop} {n m k : Nat} {s : State} {x : Run α} {f : α → State → Run β}
    (hx : Framed C n false s x) (hf : ∀ a t, PartFrame C n false s t → Framed C m false t (f a t)) (hk : n + m ≤ k) :
    Framed C k false s (x.bind f) :=
  Framed.seq hx hf hk id

theorem Framed.done {α : Type} {C : Call → Prop} {n : Nat} {z : Bool} {s t : State} (a : α) (h : PartFrame C n z s t) :
    Framed C n z s (.done a t) := h

/-! ### The calls -/

theorem call_framed {C : Call → Prop} {c : Call} {s : State} (hc : C c) : Framed C 1 false s (call c s) :=
  (call_post c s).mono (fun _ _ h => (PartFrame.of_call h).mono (fun _ h => by rwa [h]) (by omega) id)
    (fun _ h => (PartFrame.of_call h).mono (fun _ h => by rwa [h]) (by omega) id)

/-- A call whose answer is handed on. -/
theorem call_hand_framed {α : Type} {C : Call → Prop} {c : Call} {s : State} (g : Reply → State → α) (hc : C c) :
    Framed C 1 false s ((call c s).bind fun r s1 => .done (g r s1) s1) :=
  Framed.next (n := 1) (m := 0) (call_framed hc) (fun _ t _ => PartFrame.refl C 0 false t) (by omega)

theorem writeControl_framed {C : Call → Prop} {b : Byte} {s : State} (hc : C (.writeControl b)) :
    Framed C 1 false s (writeControl b s) := call_hand_framed (fun _ _ => _) hc

theorem writeData_framed {C : Call → Prop} {b : Byte} {s : State} (hc : C (.writeData b)) :
    Framed C 1 false s (writeData b s) := call_hand_framed (fun _ _ => _) hc

theorem readData_framed {C : Call → Prop} {s : State} (hc : C .readData) : Framed C 1 false s (readData s) :=
  call_hand_framed (fun _ _ => _) hc

theorem readAddress_framed {C : Call → Prop} {s : State} (hc : C .readAddress) : Framed C 1 false s (readAddress s) :=
  call_hand_framed (fun _ _ => _) hc

theorem busyWait_framed {C : Call → Prop} {s : State} (hc : C .busyWait) : Framed C 1 false s (busyWait s) :=
  call_hand_framed (fun _ _ => _) hc

theorem writePort0_framed {C : Call → Prop} {x y : Bool} {s : State} (hc : C (.writePort0 x y)) :
    Framed C 1 false s (writePort0 x y s) := call_hand_framed (fun _ _ => _) hc

theorem writePort1_framed {C : Call → Prop} {x : Bool} {s : State} (hc : C (.writePort1 x)) :
    Framed C 1 false s (writePort1 x s) := call_hand_framed (fun _ _ => _) hc

/-! ### The parts -/

theorem clearSeq_framed {C : Call → Prop} {s : State} (h1 : C (.writeControl s.cfg.cmd.clear)) (h2 : C .busyWait) :
    (clearSeq s).Post (fun _ t => PartFrame C 2 true s t ∧ t.so = 0#6) (PartFrame C 2 true s) := by
  refine Run.Post.seq (P := fun _ t => PartFrame C 1 false s t)
    (Run.Post.mono (writeControl_framed h1) (fun _ _ h => h) (fun _ h => h.mono (fun _ h => h) (by omega) (by simp))) ?_
  intro st t ht
  have hz : PartFrame C 1 true s { setTr (fun t => { t with s := st }) t with so := 0#6 } := by
    obtain ⟨⟨new, a1, a2, a3⟩, a4, a5, a6⟩ := ht
    refine ⟨⟨new, a1, a2, ?_⟩, Or.inr ⟨rfl, rfl⟩, a5, a6⟩
    rw [a3]
    rfl
  refine Run.Post.seq
    (P := fun _ u => PartFrame C 1 false { setTr (fun t => { t with s := st }) t with so := 0#6 } u)
    (Run.Post.mono (busyWait_framed h2) (fun _ _ h => h) (fun u h => hz.trans h)) ?_
  intro _ u hu
  exact ⟨hz.trans hu, by rcases hu.scroll with h | ⟨h, _⟩ <;> [exact h; cases h]⟩

theorem newline_framed {C : Call → Prop} {s : State} (h : C (.writeControl (setAddressByte s.cfg.cmd Config.row1Start))) :
    Framed C 1 false s (newline s) :=
  writeControl_framed h

theorem emitWrite_framed {C : Call → Prop} {b : Byte} {s : State} (h : C (emitCall s.cfg b)) :
    Framed C 1 false s (emitWrite b s) := by
  refine Framed.next (n := 1) (m := 0) ?_
    (fun st t _ => PartFrame.of_setTr C 0 false _ t) (by omega)
  by_cases hb : isControl s.cfg b = true
  · rw [if_pos hb]
    rw [emitCall, if_pos ((isControl_iff _ _).1 hb)] at h
    exact newline_framed h
  · rw [if_neg hb]
    rw [emitCall, if_neg (fun hc => hb ((isControl_iff _ _).2 hc))] at h
    exact writeData_framed h

theorem blankCells_framed {C : Call → Prop} (n : Nat) : ∀ s : State, C (.writeData s.cfg.chSpace) →
    Framed C n false s (blankCells n s) := by
  induction n with
  | zero => exact fun s _ => PartFrame.refl C 0 false s
  | succ n ih =>
    intro s h
    refine Framed.next (n := 1) (m := n) (writeData_framed h) (fun st t ht => ?_) (by omega)
    exact Framed.after_setTr (ih _ (by simpa [setTr, ht.cfg] using h))

/-- A call leaves the transient registers as they are. -/
theorem call_hand_tr {α : Type} {c : Call} {s : State} (g : Reply → State → α) :
    ((call c s).bind fun r s1 => .done (g r s1) s1).Post (fun _ t => t.tr = s.tr) (fun _ => True) :=
  call_seq (fun _ t ht => by rw [Run.post_done, ht.frame]; rfl) (fun _ _ => trivial)

theorem blankCells_tgt (n : Nat) : ∀ s : State,
    (blankCells n s).Post (fun _ t => t.tr.tgt = s.tr.tgt) (fun _ => True) := by
  induction n with
  | zero => exact fun _ => rfl
  | succ n ih =>
    intro s
    refine Run.Post.seq (call_hand_tr (c := .writeData s.cfg.chSpace) (fun r t => narrow t.cfg.resw r.status)) (fun st t ht => ?_)
    exact Run.Post.mono (ih _) (fun _ u hu => hu.trans (by simp [addStatus, ht])) (fun _ h => h)

/-- The three phases home, blank, home, at the target that `tgt` holds. -/
theorem lineClearPhases_framed {C : Call → Prop} {s : State} (h1 : C (.writeControl (setAddressByte s.cfg.cmd s.tr.tgt)))
    (h2 : C (.writeData s.cfg.chSpace)) : Framed C 18 false s (lineClearPhases s) := by
  have hx : (writeControl (setAddressByte s.cfg.cmd s.tr.tgt) s).Post (fun _ t => PartFrame C 1 false s t ∧ t.tr = s.tr)
      (fun t => PartFrame C 1 false s t ∧ True) := (writeControl_framed h1).and (call_hand_tr _)
  refine Run.Post.seq (Run.Post.mono hx (fun _ _ h => h) (fun _ h => h.1.mono (fun _ h => h) (by omega) id)) ?_
  intro st t ht
  have hy := (Framed.after_setTr (blankCells_framed (C := C) 16 (setTr (fun t => { t with sum := st }) t)
    (by simpa [ht.1.cfg] using h2))).and (blankCells_tgt 16 (setTr (fun t => { t with sum := st }) t))
  refine Run.Post.seq (Run.Post.mono hy (fun _ _ h => h)
    (fun _ h => (ht.1.trans h.1).mono (fun _ h => h) (by omega) (by simp))) ?_
  intro _ u hu
  have hz : PartFrame C 17 false s u := ht.1.trans hu.1
  have htgt : u.tr.tgt = s.tr.tgt := hu.2.trans (by simp [ht.2])
  have hw : Framed C 1 false u ((writeControl (setAddressByte u.cfg.cmd u.tr.tgt) u).bind fun st3 s3 => .done () (addStatus st3 s3)) :=
    Framed.next (n := 1) (m := 0) (writeControl_framed (by rwa [htgt, hz.cfg])) (fun _ v _ => PartFrame.of_setTr C 0 false _ v)
      (by omega)
  exact Run.Post.mono hw (fun _ _ h => hz.trans h) (fun _ h => hz.trans h)

theorem emitAll_framed {C : Call → Prop} (bs : List Byte) : ∀ s : State, (∀ b ∈ bs, C (emitCall s.cfg b)) →
    Framed C bs.length false s (emitAll bs s) := by
  induction bs with
  | nil => exact fun s _ => PartFrame.refl C 0 false s
  | cons b bs ih =>
    intro s h
    refine Framed.next (n := 1) (m := bs.length) (emitWrite_framed (h b (by simp))) (fun st t ht => ?_)
      (by simp; omega)
    exact Framed.after_setTr (ih _ (fun c hc => by simpa [ht.cfg] using h c (by simp [hc])))

theorem writeWrapped_framed {C : Call → Prop} (bs : List Byte) : ∀ s : State, (∀ b ∈ bs, C (.writeData b)) →
    C (.writeControl (setAddressByte s.cfg.cmd Config.row1Start)) →
    Framed C (2 * bs.length) false s (writeWrapped bs s) := by
  induction bs with
  | nil => exact fun s _ _ => PartFrame.refl C 0 false s
  | cons b bs ih =>
    intro s h hnl
    refine Framed.next (n := 1) (m := 1 + 2 * bs.length) (writeData_framed (h b (by simp))) (fun st t ht => ?_)
      (by simp; omega)
    rw [← ht.cfg] at hnl
    refine Framed.next (n := 1) (m := 2 * bs.length) ?_ (fun _ u hu => ?_) (by omega)
    · unfold wrapAfter
      split
      · exact Framed.next (n := 1) (m := 0) (newline_framed hnl) (fun _ u _ => PartFrame.refl C 0 false u) (by omega)
      · exact PartFrame.refl C 1 false t
    · exact Framed.after_setTr (ih _ (fun c hc => h c (by simp [hc])) (by simpa [hu.cfg] using hnl))

theorem repeatControl_framed {C : Call → Prop} {c : Byte} (h : C (.writeControl c)) (n : Nat) : ∀ s : State,
    Framed C n false s (repeatControl c n s) := by
  induction n with
  | zero => exact fun s => PartFrame.refl C 0 false s
  | succ n ih =>
    intro s
    exact Framed.next (n := 1) (m := n) (writeControl_framed h) (fun _ t _ => Framed.after_setTr (ih _)) (by omega)

theorem repeatShift_framed {C : Call → Prop} {c : Byte} (h : C (.writeControl c)) (d : Int) (n : Nat) : ∀ s : State,
    Framed C n false s (repeatShift c d n s) := by
  induction n with
  | zero => exact fun s => PartFrame.refl C 0 false s
  | succ n ih =>
    intro s
    exact Framed.next (n := 1) (m := n) (writeControl_framed h) (fun _ t _ => Framed.after_setTr (ih _)) (by omega)

theorem programModes_framed {C : Call → Prop} {s : State} (h1 : C (.writeControl s.cfg.cmd.bootstrap))
    (h2 : C (.writeControl s.cfg.cmd.functionSet)) (h3 : C (.writeControl s.cfg.cmd.displayCtrl))
    (h4 : C (.writeControl s.cfg.cmd.entryMode)) : Framed C 4 false s (programModes s) := by
  refine Framed.next (n := 1) (m := 3) (writeControl_framed h1) (fun _ t ht => ?_) (by omega)
  refine Framed.next (n := 1) (m := 2) (writeControl_framed (by rwa [ht.cfg])) (fun _ u hu => ?_) (by omega)
  refine Framed.next (n := 1) (m := 1) (writeControl_framed (by rwa [hu.cfg, ht.cfg])) (fun _ v hv => ?_)
    (by omega)
  exact Framed.next (n := 1) (m := 0) (writeControl_framed (by rwa [hv.cfg, hu.cfg, ht.cfg]))
    (fun _ w _ => PartFrame.refl C 0 false w) (by omega)

theorem selfTestRound_framed {C : Call → Prop} {s : State} (h1 : ∀ b, C (.writeData b))
    (h2 : C (.writeControl s.cfg.cmd.cursorLeft)) (h3 : C .readData) : Framed C 3 false s (selfTestRound s) := by
  refine Framed.next (n := 1) (m := 2) (Framed.after_setTr (writeData_framed (h1 _))) (fun _ t ht => ?_)
    (by omega)
  refine Framed.next (n := 1) (m := 1) (writeControl_framed (by rwa [ht.cfg])) (fun _ u hu => ?_) (by omega)
  exact Framed.next (n := 1) (m := 0) (readData_framed h3) (fun r v _ => PartFrame.of_setTr C 0 false _ v)
    (by omega)

theorem selfTestLoop_framed {C : Call → Prop} (h1 : ∀ b, C (.writeData b)) (h3 : C .readData) (n : Nat) : ∀ s : State,
    C (.writeControl s.cfg.cmd.cursorLeft) → Framed C (3 * n) false s (selfTestLoop n s) := by
  induction n with
  | zero => exact fun s _ => PartFrame.refl C 0 false s
  | succ n ih =>
    intro s h
    exact Framed.next (n := 3) (m := 3 * n) (selfTestRound_framed h1 h h3)
      (fun _ t ht => ih t (by rwa [ht.cfg])) (by omega)

end Sys2Proof.Machine
end

