-- ==== Sys2Proof/Laws/GoodDevice.lean ====
section
/-! SUPPORT. The single calls on the good reference device: one lemma per call that goes on. -/

namespace Sys2Proof.Machine

theorem call_good_ok {c : Call} {s : State} {r : Reply} {d : Device} (hl : s.link = .device .good)
    (h : s.dev.answer c = .ok r d) : call c s = .done r { issue c s with dev := d } := by
  rw [call_good hl, deviceCall, show (issue c s).dev = s.dev from rfl, h]
  rfl

theorem writeControl_good {b : Byte} {s : State} {r : Reply} {d : Device} (hl : s.link = .device .good)
    (h : s.dev.control b = .ok r d) :
    writeControl b s = .done (narrow s.cfg.resw r.status) { issue (.writeControl b) s with dev := d } := by
  rw [writeControl, call_good_ok (c := .writeControl b) hl h]
  rfl

/-- The device takes every command with status 0. -/
theorem Device.run_reply {d e : Device} {c : Command} {r : Reply} (h : d.run c = .ok r e) : r = Reply.zero := by
  cases c <;> simp only [Device.run] at h <;> first | (cases h; rfl) | (split at h <;> cases h; rfl)

theorem writeData_good {b : Byte} {s : State} (hl : s.link = .device .good) (hm : s.dev.modeOk = true)
    (hv : validAddr s.dev.ac = true) :
    writeData b s = .done 0
      { issue (.writeData b) s with
        dev := { s.dev with ddram := s.dev.ddram.write s.dev.ac.toNat b, ac := incAddr s.dev.ac } } := by
  rw [writeData, call_good_ok (r := Reply.zero) hl (by simp [Device.answer, Device.writeData, hm, hv]; rfl)]
  simp [Reply.zero]

theorem readData_good {s : State} (hl : s.link = .device .good) (hm : s.dev.modeOk = true)
    (hv : validAddr s.dev.ac = true) :
    readData s = .done (s.dev.cell s.dev.ac)
      { issue .readData s with dev := { s.dev with ac := incAddr s.dev.ac, rdCount := s.dev.rdCount + 1 } } := by
  rw [readData, call_good_ok hl (by simp [Device.answer, Device.readData, hm, hv]; exact ⟨rfl, rfl⟩)]
  rfl

theorem readAddress_good {s : State} (hl : s.link = .device .good) :
    readAddress s = .done s.dev.ac (issue .readAddress s) := by
  rw [readAddress, call_good_ok hl rfl]
  rfl

theorem busyWait_good {s : State} (hl : s.link = .device .good) : busyWait s = .done () (issue .busyWait s) := by
  rw [busyWait, call_good_ok hl rfl]
  rfl

/-- The set-DDRAM-address byte of a cell on the device (R61, R80). -/
theorem control_setDdram (d : Device) (a : Addr) (h : validAddr a = true) :
    d.control (setDdramByte a) = .ok Reply.zero { d with ac := a } := by
  have hd : decodeCommand (setDdramByte a) = .ok (.setDdram a) := by
    revert a
    decide
  rw [Device.control, hd]
  exact if_pos h

/-- The set-address command the block sends for a cell, with the byte of R81, on the device (R61, R82). -/
theorem control_setAddress (d : Device) {cmd : Cmd} {a : Addr} (hc : cmd.setDdram = 0x80#8) (h : validAddr a = true) :
    d.control (setAddressByte cmd a) = .ok Reply.zero { d with ac := a } := by
  rw [setAddressByte_eq hc]
  exact control_setDdram d a h

end Sys2Proof.Machine
end

