-- ==== Sys2Proof/Laws/Oracle.lean ====
section
/-! SUPPORT. The shared parts of the operations under an oracle that answers: one lemma per part, with the calls it makes. The
position and the transient registers on the way are left open (`∃ p τ`), but for the registers later parts read. -/

namespace Sys2Proof.Machine

/-! ### The single calls -/

theorem writeControl_oracle {b : Byte} {s : State} {r : Reply} {rest : List (Option Reply)} (hl : s.link = .oracle)
    (hr : s.replies = some r :: rest) :
    writeControl b s = .done (narrow s.cfg.resw r.status) { issue (.writeControl b) s with replies := rest } := by
  simp [writeControl, call_oracle hl hr]

theorem writeData_oracle {b : Byte} {s : State} {r : Reply} {rest : List (Option Reply)} (hl : s.link = .oracle)
    (hr : s.replies = some r :: rest) :
    writeData b s = .done (narrow s.cfg.resw r.status) { issue (.writeData b) s with replies := rest } := by
  simp [writeData, call_oracle hl hr]

theorem readData_oracle {s : State} {r : Reply} {rest : List (Option Reply)} (hl : s.link = .oracle)
    (hr : s.replies = some r :: rest) : readData s = .done r.byte { issue .readData s with replies := rest } := by
  simp [readData, call_oracle hl hr]

theorem readAddress_oracle {s : State} {r : Reply} {rest : List (Option Reply)} (hl : s.link = .oracle)
    (hr : s.replies = some r :: rest) : readAddress s = .done r.addr { issue .readAddress s with replies := rest } := by
  simp [readAddress, call_oracle hl hr]

theorem busyWait_oracle {s : State} {r : Reply} {rest : List (Option Reply)} (hl : s.link = .oracle)
    (hr : s.replies = some r :: rest) : busyWait s = .done () { issue .busyWait s with replies := rest } := by
  simp [busyWait, call_oracle hl hr]

theorem writePort0_oracle {x y : Bool} {s : State} {r : Reply} {rest : List (Option Reply)} (hl : s.link = .oracle)
    (hr : s.replies = some r :: rest) :
    writePort0 x y s = .done (narrow s.cfg.resw r.status) { issue (.writePort0 x y) s with replies := rest } := by
  simp [writePort0, call_oracle hl hr]

theorem writePort1_oracle {x : Bool} {s : State} {r : Reply} {rest : List (Option Reply)} (hl : s.link = .oracle)
    (hr : s.replies = some r :: rest) :
    writePort1 x s = .done (narrow s.cfg.resw r.status) { issue (.writePort1 x) s with replies := rest } := by
  simp [writePort1, call_oracle hl hr]

/-! ### The parts -/

theorem emitWrite_oracle {b : Byte} {s : State} {r : Reply} {rest : List (Option Reply)} (hl : s.link = .oracle)
    (hr : s.replies = some r :: rest) :
    emitWrite b s
      = .done (narrow s.cfg.resw r.status)
          (setTr (fun t => { t with s := narrow s.cfg.resw r.status }) { issue (emitCall s.cfg b) s with replies := rest }) := by
  unfold emitWrite emitCall isControl newline
  by_cases hb : b = s.cfg.chCr ∨ b = s.cfg.chLf
  · simp [hb, writeControl_oracle hl hr]
  · have : ¬b = s.cfg.chCr ∧ ¬b = s.cfg.chLf := by simpa using hb
    simp [this, writeData_oracle hl hr]

theorem clearSeq_oracle {s : State} {w x : Reply} {rest : List (Option Reply)} (hl : s.link = .oracle)
    (hr : s.replies = some w :: some x :: rest) :
    ∃ p τ, clearSeq s = .done (narrow s.cfg.resw w.status)
      { s with calls := s.calls ++ clearCalls s.cfg, replies := rest, pos := p, tr := τ, so := 0#6 } := by
  simp only [clearSeq, writeControl_oracle hl hr, Run.bind_done]
  rw [busyWait_oracle (r := x) (rest := rest) (by exact hl) rfl]
  simp only [Run.bind_done, clearCalls]
  exact ⟨_, _, by simp [setTr, issue]; exact ⟨rfl, rfl⟩⟩

theorem blankCells_oracle : ∀ (n : Nat) (s : State) (ws : List Reply) (rest : List (Option Reply)), s.link = .oracle →
    s.replies = ws.map some ++ rest → ws.length = n →
    ∃ p τ, blankCells n s = .done ()
        { s with calls := s.calls ++ List.replicate n (.writeData s.cfg.chSpace), replies := rest, pos := p, tr := τ }
      ∧ narrow s.cfg.resw τ.sum = narrow s.cfg.resw (s.tr.sum + (ws.map Reply.status).sum) ∧ τ.tgt = s.tr.tgt := by
  intro n
  induction n with
  | zero =>
    intro s ws rest hl hr hn
    obtain rfl := List.length_eq_zero_iff.1 hn
    exact ⟨s.pos, s.tr, by simp [blankCells, ← show s.replies = rest from hr], by simp, rfl⟩
  | succ n ih =>
    intro s ws rest hl hr hn
    match ws, hn with
    | w :: ws, hn =>
      simp only [List.map_cons, List.cons_append, List.length_cons, Nat.add_right_cancel_iff] at hr hn
      obtain ⟨p, τ, h1, h2, h3⟩ :=
        ih (addStatus (narrow s.cfg.resw w.status)
          { issue (.writeData s.cfg.chSpace) s with replies := ws.map some ++ rest }) ws rest
          (by exact hl) rfl hn
      refine ⟨p, τ, ?_, ?_, h3⟩
      swap
      · refine (show narrow s.cfg.resw τ.sum = narrow s.cfg.resw (narrow s.cfg.resw
          (s.tr.sum + narrow s.cfg.resw w.status) + (ws.map Reply.status).sum) from h2).trans ?_
        rw [narrow_narrow_add, show s.tr.sum + narrow s.cfg.resw w.status + (ws.map Reply.status).sum
          = (s.tr.sum + (ws.map Reply.status).sum) + narrow s.cfg.resw w.status by omega, narrow_add_narrow]
        congr 1
        simp only [List.map_cons, List.sum_cons]
        omega
      simp only [blankCells, writeData_oracle hl hr, Run.bind_done, h1]
      simp [addStatus, setTr, issue, List.replicate_succ]

/-- The three phases of EMIT_LINE_CLEAR, and the sum of their statuses (R113). -/
theorem lineClearPhases_oracle {s : State} {w z : Reply} {ms : List Reply} {rest : List (Option Reply)}
    (hl : s.link = .oracle) (hr : s.replies = some w :: (ms.map some ++ some z :: rest)) (hm : ms.length = 16) :
    ∃ p τ, lineClearPhases s = .done ()
        { s with
          calls := s.calls ++ (.writeControl (setAddressByte s.cfg.cmd s.tr.tgt) :: List.replicate 16 (.writeData s.cfg.chSpace)
            ++ [.writeControl (setAddressByte s.cfg.cmd s.tr.tgt)]),
          replies := rest, pos := p, tr := τ }
      ∧ τ.sum = sumStatus s.cfg (w :: ms ++ [z]) := by
  obtain ⟨p, τ, h1, h2, h3⟩ := blankCells_oracle 16
    (setTr (fun t => { t with sum := narrow s.cfg.resw w.status })
      { issue (.writeControl (setAddressByte s.cfg.cmd s.tr.tgt)) s with replies := ms.map some ++ some z :: rest })
    ms (some z :: rest) hl rfl hm
  simp only [setTr_cfg, setTr_tr, issue_cfg] at h2 h3
  refine ⟨p.map (fun q => { q with ix := q.ix + 1 }),
    { τ with sum := narrow s.cfg.resw (τ.sum + narrow s.cfg.resw z.status) }, ?_, ?_⟩
  · rw [lineClearPhases, writeControl_oracle hl hr, Run.bind_done]
    refine (Run.bind_of_done _ h1).trans ?_
    rw [writeControl_oracle (r := z) (rest := rest) (by exact hl) rfl]
    simp [addStatus, setTr, issue, h3]
  · refine (show narrow s.cfg.resw (τ.sum + narrow s.cfg.resw z.status) = _ from ?_)
    rw [narrow_add_narrow, ← narrow_narrow_add, h2, sumStatus, narrow_narrow_add]
    simp only [List.map_append, List.map_cons, List.map_nil, List.sum_append, List.sum_cons, List.sum_nil, add_assoc,
      narrow_narrow_add, add_zero, List.cons_append]

/-- The two port writes of SET_COLOUR, and the sum of their statuses (R156). -/
theorem pushColour_oracle {c : Channels} {s : State} {p q : Reply} {rest : List (Option Reply)} (hl : s.link = .oracle)
    (hr : s.replies = some p :: some q :: rest) :
    ∃ x τ, pushColour c s = .done ()
        { s with
          calls := s.calls ++ [.writePort0 c.red c.green, .writePort1 c.blue], replies := rest, pos := x, tr := τ }
      ∧ τ.sum = sumStatus s.cfg [p, q] := by
  have h : ∃ x, pushColour c s = .done ()
      { s with
        calls := s.calls ++ [.writePort0 c.red c.green, .writePort1 c.blue], replies := rest, pos := x,
        tr := { s.tr with s := narrow s.cfg.resw q.status, sum := sumStatus s.cfg [p, q] } } := by
    rw [pushColour, writePort0_oracle hl hr, Run.bind_done, writePort1_oracle (r := q) (rest := rest) (by exact hl) rfl]
    exact ⟨_, by simp [setTr, issue, sumStatus]; rfl⟩
  exact ⟨h.choose, _, h.choose_spec, rfl⟩

theorem emitAll_oracle : ∀ (bs : List Byte) (s : State) (rs : List Reply) (rest : List (Option Reply)), s.link = .oracle →
    s.replies = rs.map some ++ rest → rs.length = bs.length →
    ∃ p τ, emitAll bs s = .done ()
        { s with calls := s.calls ++ bs.map (emitCall s.cfg), replies := rest, pos := p, tr := τ }
      ∧ τ.m = s.tr.m := by
  intro bs
  induction bs with
  | nil =>
    intro s ws rest hl hr hn
    obtain rfl := List.length_eq_zero_iff.1 hn
    exact ⟨s.pos, s.tr, by simp [emitAll, ← show s.replies = rest from hr], rfl⟩
  | cons b bs ih =>
    intro s ws rest hl hr hn
    match ws, hn with
    | w :: ws, hn =>
      simp only [List.map_cons, List.cons_append, List.length_cons, Nat.add_right_cancel_iff] at hr hn
      obtain ⟨p, τ, h1, h2⟩ :=
        ih (setTr (fun t => { t with j := t.j + 1 })
            (setTr (fun t => { t with s := narrow s.cfg.resw w.status })
              { issue (emitCall s.cfg b) s with replies := ws.map some ++ rest })) ws rest (by exact hl) rfl hn
      refine ⟨p, τ, ?_, h2⟩
      simp only [emitAll, emitWrite_oracle hl hr, Run.bind_done, h1]
      simp [setTr, issue]

/-- The calls of the wrapped writes from index `j` on (R117). -/
def wrapFrom (cfg : Config) : Nat → List Byte → List Call
  | _, [] => []
  | j, b :: bs => (.writeData b :: if j + 1 = 16 then [.writeControl (setAddressByte cfg.cmd Config.row1Start)] else [])
    ++ wrapFrom cfg (j + 1) bs

theorem wrapFrom_ge (cfg : Config) (bs : List Byte) : ∀ j, 16 ≤ j → wrapFrom cfg j bs = bs.map .writeData := by
  induction bs with
  | nil => intro j _; rfl
  | cons b bs ih => intro j hj; simp [wrapFrom, show ¬(j + 1 = 16) by omega, ih (j + 1) (by omega)]

theorem wrapFrom_lt (cfg : Config) (bs : List Byte) : ∀ j, j < 16 →
    wrapFrom cfg j bs = (bs.take (16 - j)).map .writeData
      ++ (if 16 ≤ j + bs.length then [.writeControl (setAddressByte cfg.cmd Config.row1Start)] else [])
      ++ (bs.drop (16 - j)).map .writeData := by
  induction bs with
  | nil => intro j hj; simp [wrapFrom]; omega
  | cons b bs ih =>
    intro j hj
    by_cases h : j + 1 = 16
    · obtain rfl : j = 15 := by omega
      simp [wrapFrom, wrapFrom_ge, show 16 ≤ 15 + (bs.length + 1) by omega]
    · simp only [wrapFrom, h, if_false, ih (j + 1) (by omega)]
      rw [show 16 - j = (16 - (j + 1)) + 1 by omega]
      simp [Nat.add_assoc, Nat.add_comm 1]

theorem wrapFrom_zero (cfg : Config) (bs : List Byte) : wrapFrom cfg 0 bs = wrapCalls cfg bs := by
  rw [wrapFrom_lt _ _ 0 (by omega)]
  simp [wrapCalls]

theorem writeWrapped_oracle : ∀ (bs : List Byte) (s : State) (rs : List Reply) (rest : List (Option Reply)),
    s.link = .oracle → s.replies = rs.map some ++ rest → rs.length = (wrapFrom s.cfg s.tr.j bs).length →
    ∃ p τ, writeWrapped bs s = .done ()
        { s with calls := s.calls ++ wrapFrom s.cfg s.tr.j bs, replies := rest, pos := p, tr := τ }
      ∧ τ.m = s.tr.m := by
  intro bs
  induction bs with
  | nil =>
    intro s ws rest hl hr hn
    obtain rfl := List.length_eq_zero_iff.1 hn
    exact ⟨s.pos, s.tr, by simp [writeWrapped, wrapFrom, ← show s.replies = rest from hr], rfl⟩
  | cons b bs ih =>
    intro s ws rest hl hr hn
    match ws, hn with
    | [], hn => simp [wrapFrom] at hn
    | w :: ws, hn =>
      simp only [List.map_cons, List.cons_append] at hr
      by_cases hj : s.tr.j + 1 = 16
      · match ws, hn with
        | [], hn => simp [wrapFrom, hj] at hn
        | x :: ws, hn =>
          simp only [List.map_cons, List.cons_append] at hr
          obtain ⟨p, τ, h1, h2⟩ :=
            ih (setTr (fun t => { t with j := t.j + 1 })
                { issue (.writeControl (setAddressByte s.cfg.cmd Config.row1Start))
                    { issue (.writeData b) s with replies := some x :: (ws.map some ++ rest) } with
                  replies := ws.map some ++ rest }) ws rest (by exact hl) rfl
              (by simp [wrapFrom, hj] at hn; simp [hj]; exact hn)
          refine ⟨p, τ, ?_, h2⟩
          simp only [writeWrapped, writeData_oracle hl hr, Run.bind_done, wrapAfter, newline]
          simp only [issue_tr, show Config.lcdLength = 16 from rfl, hj, if_true]
          rw [writeControl_oracle (r := x) (rest := ws.map some ++ rest) (by exact hl) (by simp)]
          simp only [Run.bind_done]
          refine h1.trans ?_
          simp [setTr, issue, wrapFrom, hj]
      · obtain ⟨p, τ, h1, h2⟩ :=
          ih (setTr (fun t => { t with j := t.j + 1 }) { issue (.writeData b) s with replies := ws.map some ++ rest }) ws
            rest (by exact hl) rfl (by simp [wrapFrom, hj] at hn; simp; exact hn)
        refine ⟨p, τ, ?_, h2⟩
        simp only [writeWrapped, writeData_oracle hl hr, Run.bind_done, wrapAfter]
        simp only [issue_tr, show Config.lcdLength = 16 from rfl, hj, if_false, Run.bind_done]
        refine h1.trans ?_
        simp [setTr, issue, wrapFrom, hj]

theorem repeatControl_oracle (c : Byte) : ∀ (n : Nat) (s : State) (ws : List Reply) (rest : List (Option Reply)),
    s.link = .oracle → s.replies = ws.map some ++ rest → ws.length = n →
    ∃ p τ, repeatControl c n s = .done ()
      { s with calls := s.calls ++ List.replicate n (.writeControl c), replies := rest, pos := p, tr := τ } := by
  intro n
  induction n with
  | zero =>
    intro s ws rest hl hr hn
    obtain rfl := List.length_eq_zero_iff.1 hn
    exact ⟨s.pos, s.tr, by simp [repeatControl, ← show s.replies = rest from hr]⟩
  | succ n ih =>
    intro s ws rest hl hr hn
    match ws, hn with
    | w :: ws, hn =>
      simp only [List.map_cons, List.cons_append, List.length_cons, Nat.add_right_cancel_iff] at hr hn
      obtain ⟨p, τ, h1⟩ :=
        ih (setTr (fun t => { t with k := n }) { issue (.writeControl c) s with replies := ws.map some ++ rest }) ws rest
          (by exact hl) rfl hn
      refine ⟨p, τ, ?_⟩
      simp only [repeatControl, writeControl_oracle hl hr, Run.bind_done, h1]
      simp [setTr, issue, List.replicate_succ]

theorem repeatShift_oracle (c : Byte) (d : Int) : ∀ (n : Nat) (s : State) (ws : List Reply) (rest : List (Option Reply)),
    s.link = .oracle → s.replies = ws.map some ++ rest → ws.length = n →
    ∃ p τ, repeatShift c d n s = .done ()
        { s with calls := s.calls ++ List.replicate n (.writeControl c), replies := rest, pos := p, tr := τ }
      ∧ τ.acc = s.tr.acc + n * d := by
  intro n
  induction n with
  | zero =>
    intro s ws rest hl hr hn
    obtain rfl := List.length_eq_zero_iff.1 hn
    exact ⟨s.pos, s.tr, by simp [repeatShift, ← show s.replies = rest from hr], by simp⟩
  | succ n ih =>
    intro s ws rest hl hr hn
    match ws, hn with
    | w :: ws, hn =>
      simp only [List.map_cons, List.cons_append, List.length_cons, Nat.add_right_cancel_iff] at hr hn
      obtain ⟨p, τ, h1, h2⟩ :=
        ih (setTr (fun t => { t with k := n, acc := t.acc + d })
            { issue (.writeControl c) s with replies := ws.map some ++ rest }) ws rest (by exact hl) rfl hn
      refine ⟨p, τ, ?_, ?_⟩
      · simp only [repeatShift, writeControl_oracle hl hr, Run.bind_done, h1]
        simp [setTr, issue, List.replicate_succ]
      · rw [h2]
        simp
        ring

/-! ### The phases of INIT -/

theorem programModes_oracle {s : State} {a b c d : Reply} {rest : List (Option Reply)} (hl : s.link = .oracle)
    (hr : s.replies = some a :: some b :: some c :: some d :: rest) :
    ∃ p, programModes s = .done ()
      { s with
        calls := s.calls ++ [.writeControl s.cfg.cmd.bootstrap, .writeControl s.cfg.cmd.functionSet,
          .writeControl s.cfg.cmd.displayCtrl, .writeControl s.cfg.cmd.entryMode],
        replies := rest, pos := p } := by
  simp only [programModes, writeControl_oracle hl hr, Run.bind_done]
  rw [writeControl_oracle (r := b) (rest := some c :: some d :: rest) (by exact hl) rfl]
  simp only [Run.bind_done]
  rw [writeControl_oracle (r := c) (rest := some d :: rest) (by exact hl) rfl]
  simp only [Run.bind_done]
  rw [writeControl_oracle (r := d) (rest := rest) (by exact hl) rfl]
  exact ⟨_, by simp [issue]; rfl⟩

theorem selfTestRound_oracle {s : State} {w l r : Reply} {rest : List (Option Reply)} (hl : s.link = .oracle)
    (hr : s.replies = some w :: some l :: some r :: rest) :
    ∃ p τ, selfTestRound s = .done ()
        { s with calls := s.calls ++ roundCalls s.cfg s.tr.i, replies := rest, pos := p, tr := τ }
      ∧ τ.i = s.tr.i + 1
      ∧ τ.cnt = if selfTestMatch s.tr.i (testByte s.cfg s.tr.i) r.byte then s.tr.cnt + 1 else s.tr.cnt := by
  simp only [selfTestRound]
  rw [writeData_oracle (r := w) (rest := some l :: some r :: rest) (by exact hl) (by exact hr)]
  simp only [Run.bind_done]
  rw [writeControl_oracle (r := l) (rest := some r :: rest) (by exact hl) rfl]
  simp only [Run.bind_done]
  rw [readData_oracle (r := r) (rest := rest) (by exact hl) rfl]
  simp only [Run.bind_done]
  exact ⟨_, _, by simp [countMatch, loadTestByte, setTr, issue, roundCalls, testByte]; exact ⟨rfl, rfl⟩, rfl, rfl⟩

/-- `n` iterations from index `i` on; `cnt` counts the matches. -/
theorem selfTestLoop_oracle : ∀ (n : Nat) (s : State) (rs : List Reply) (rest : List (Option Reply)), s.link = .oracle →
    s.replies = rs.map some ++ rest → rs.length = 3 * n →
    ∃ p τ, selfTestLoop n s = .done ()
        { s with
          calls := s.calls ++ (List.range' s.tr.i n).flatMap (roundCalls s.cfg), replies := rest, pos := p, tr := τ }
      ∧ τ.cnt = s.tr.cnt + (List.range n).countP (fun k =>
          selfTestMatch (s.tr.i + k) (testByte s.cfg (s.tr.i + k)) (rs.getD (2 + 3 * k) Reply.zero).byte) := by
  intro n
  induction n with
  | zero =>
    intro s ws rest hl hr hn
    obtain rfl := List.length_eq_zero_iff.1 hn
    exact ⟨s.pos, s.tr, by simp [selfTestLoop, ← show s.replies = rest from hr], rfl⟩
  | succ n ih =>
    intro s ws rest hl hr hn
    match ws, hn with
    | w :: l :: r :: ws, hn =>
      simp only [List.map_cons, List.cons_append] at hr
      obtain ⟨p, τ, h1, h2, h3⟩ := selfTestRound_oracle hl hr
      obtain ⟨p', τ', h4, h5⟩ :=
        ih { s with
            calls := s.calls ++ roundCalls s.cfg s.tr.i, replies := ws.map some ++ rest, pos := p, tr := τ } ws rest
          (by exact hl) rfl (by simp at hn; omega)
      refine ⟨p', τ', ?_, ?_⟩
      · simp only [selfTestLoop, h1, Run.bind_done, h4]
        simp [h2, List.range'_succ]
      · rw [h5, List.range_succ_eq_map, List.countP_cons, List.countP_map]
        simp only [h2, h3, Nat.add_zero, Nat.mul_zero]
        rw [List.countP_congr (q := (fun k => selfTestMatch (s.tr.i + k) (testByte s.cfg (s.tr.i + k))
          ((w :: l :: r :: ws).getD (2 + 3 * k) Reply.zero).byte) ∘ Nat.succ)]
        · simp only [List.getD_cons_succ, List.getD_cons_zero]
          split <;> omega
        · intro k _
          simp only [Function.comp, Nat.succ_eq_add_one]
          rw [show 2 + 3 * (k + 1) = (2 + 3 * k) + 1 + 1 + 1 by omega, List.getD_cons_succ, List.getD_cons_succ,
            List.getD_cons_succ, show s.tr.i + 1 + k = s.tr.i + (k + 1) by omega]

theorem countP_range_eq (n : Nat) (q : Nat → Bool) : (List.range n).countP q = n ↔ ∀ k, k < n → q k = true := by
  have := List.countP_eq_length (p := q) (l := List.range n)
  simpa using this

/-- INIT up to the end of its self-test (R149): the calls made, and what the match count decides. -/
theorem initPhases_oracle {s : State} {rs : List Reply} {rest : List (Option Reply)} (hl : s.link = .oracle)
    (hr : s.replies = rs.map some ++ rest) (hn : rs.length = 249) :
    ∃ p τ, (initPhases s
        = if τ.cnt = 80 then
            initPass { s with calls := s.calls ++ initCalls s.cfg, replies := rest, so := 0#6, pos := p, tr := τ }
          else initFail { s with calls := s.calls ++ initCalls s.cfg, replies := rest, so := 0#6, pos := p, tr := τ })
      ∧ (τ.cnt = 80 ↔ ∀ k, k < 80 → echoOf rs k = s.cfg.chZero + BitVec.ofNat 8 k) := by
  match rs, hn with
  | a :: b :: c :: d :: e :: f :: rs, hn =>
    obtain ⟨p1, h1⟩ := programModes_oracle hl hr
    obtain ⟨p2, τ2, h2⟩ := clearSeq_oracle
      (s := { s with
        calls := s.calls ++ [.writeControl s.cfg.cmd.bootstrap, .writeControl s.cfg.cmd.functionSet,
          .writeControl s.cfg.cmd.displayCtrl, .writeControl s.cfg.cmd.entryMode],
        replies := some e :: some f :: (rs.map some ++ rest), pos := p1 }) hl rfl
    obtain ⟨p3, τ3, h3, h4⟩ := selfTestLoop_oracle 81
      (setTr (fun t => { t with cnt := 0, i := 0 })
        { s with
          calls := s.calls ++ [.writeControl s.cfg.cmd.bootstrap, .writeControl s.cfg.cmd.functionSet,
            .writeControl s.cfg.cmd.displayCtrl, .writeControl s.cfg.cmd.entryMode] ++ clearCalls s.cfg,
          replies := rs.map some ++ rest, pos := p2, tr := τ2, so := 0#6 }) rs rest hl rfl (by simp at hn; omega)
    refine ⟨p3, τ3, ?_, ?_⟩
    · refine (Run.bind_of_done _ h1).trans ((Run.bind_of_done _ h2).trans ((Run.bind_of_done _ h3).trans ?_))
      simp only [show Config.selfTestPass = 80 from rfl]
      simp [initCalls, List.range_eq_range', setTr]
    · rw [h4]
      simp only [setTr_tr, setTr_cfg, Nat.zero_add]
      rw [show List.range 81 = List.range 80 ++ [80] from rfl, List.countP_append]
      rw [show List.countP _ [80] = 0 from rfl, Nat.add_zero, countP_range_eq]
      refine forall_congr' fun k => imp_congr_right fun hk => ?_
      rw [selfTestMatch_iff, echoOf, show 8 + 3 * k = (2 + 3 * k) + 1 + 1 + 1 + 1 + 1 + 1 by omega]
      simp only [List.getD_cons_succ, hk, true_and, testByte]

end Sys2Proof.Machine
end

