-- ==== Sys2Proof/Laws/Hang.lean ====
section
/-! SUPPORT. The parts of an operation under an oracle that answers some calls and then no more: a part goes on when the
answers suffice for its calls, and else it is stuck in the first call without an answer (R44, R192). -/

namespace Sys2Proof.Machine

/-- The calls `cs` were made; beside the trace and the position only `so`, the answers left and the transient registers are
other than before. -/
def Made (cs : List Call) (s t : State) : Prop :=
  t = { s with
        calls := s.calls ++ cs, pos := s.pos.map (fun p => { p with ix := p.ix + cs.length }),
        so := t.so, replies := t.replies, tr := t.tr }

theorem Made.refl (s : State) : Made [] s s := by simp [Made]

theorem Made.trans {cs ds : List Call} {s t u : State} (h : Made cs s t) (k : Made ds t u) : Made (cs ++ ds) s u := by
  rw [Made] at *
  rw [k, h]
  simp [Function.comp_def, Nat.add_assoc]

theorem Made.cfg {cs : List Call} {s t : State} (h : Made cs s t) : t.cfg = s.cfg := by rw [h]

theorem Made.link {cs : List Call} {s t : State} (h : Made cs s t) : t.link = s.link := by rw [h]

/-- A state with the answers `rs`, and then none. -/
def Silent (s : State) (rs : List Reply) : Prop :=
  s.link = .oracle ∧ ∃ tl, (tl = [] ∨ ∃ rest, tl = none :: rest) ∧ s.replies = rs.map some ++ tl

theorem State.HangsAfter.silent {s : State} {rs : List Reply} (h : s.HangsAfter rs) : Silent s rs := by
  refine ⟨h.link, ?_⟩
  rcases h.replies with h | ⟨rest, h⟩
  · exact ⟨[], Or.inl rfl, by simpa using h⟩
  · exact ⟨none :: rest, Or.inr ⟨rest, rfl⟩, h⟩

/-- The part `x` is stuck in one of the calls `cs` when the answers `rs` do not suffice; `g n` says what has become of `so`
when `n` calls were answered. -/
def StuckIn {α : Type} (cs : List Call) (g : Nat → BitVec 6 → BitVec 6) (s : State) (rs : List Reply) (x : Run α) : Prop :=
  Silent s rs → rs.length < cs.length → ∃ t, x = .hung t ∧ Made (cs.take (rs.length + 1)) s t ∧ t.so = g rs.length s.so

/-- The part `x` makes the calls `cs`: it goes on when the answers suffice, with `Q` of its value and the transient registers,
and else it is stuck. -/
structure Scripted {α : Type} (cs : List Call) (g : Nat → BitVec 6 → BitVec 6) (s : State) (rs : List Reply) (x : Run α)
    (Q : α → Transient → Prop) : Prop where
  goes  : Silent s rs → cs.length ≤ rs.length →
    ∃ a t, x = .done a t ∧ Made cs s t ∧ Silent t (rs.drop cs.length) ∧ t.so = g cs.length s.so ∧ Q a t.tr
  stuck : StuckIn cs g s rs x

/-- `so` untouched. -/
abbrev keeps : Nat → BitVec 6 → BitVec 6 := fun _ so => so

/-- `so` 0 once `k` calls were answered. -/
abbrev zeroFrom (k : Nat) : Nat → BitVec 6 → BitVec 6 := fun n so => if n < k then so else 0#6

theorem StuckIn.none {α : Type} {g : Nat → BitVec 6 → BitVec 6} {s : State} {rs : List Reply} (x : Run α) :
    StuckIn [] g s rs x := fun _ h => absurd h (by simp)

theorem StuckIn.mono {α : Type} {cs ds : List Call} {g h : Nat → BitVec 6 → BitVec 6} {s : State} {rs : List Reply} {x : Run α}
    (hx : StuckIn cs g s rs x) (hc : cs = ds) (hg : ∀ n, n < cs.length → g n s.so = h n s.so) : StuckIn ds h s rs x := by
  subst hc
  intro hs hl
  obtain ⟨t, h1, h2, h3⟩ := hx hs hl
  exact ⟨t, h1, h2, h3.trans (hg _ hl)⟩

theorem Scripted.mono {α : Type} {cs ds : List Call} {g h : Nat → BitVec 6 → BitVec 6} {s : State} {rs : List Reply}
    {x : Run α} {Q R : α → Transient → Prop} (hx : Scripted cs g s rs x Q) (hc : cs = ds)
    (hg : ∀ n, n ≤ cs.length → g n s.so = h n s.so) (hq : ∀ a τ, Q a τ → R a τ) : Scripted ds h s rs x R := by
  refine ⟨fun hs hl => ?_, hx.stuck.mono hc (fun n hn => hg n (by omega))⟩
  subst hc
  obtain ⟨a, t, h1, h2, h3, h4, h5⟩ := hx.goes hs hl
  exact ⟨a, t, h1, h2, h3, h4.trans (hg _ (Nat.le_refl _)), hq a _ h5⟩

/-- A part in sequence with what comes after it. -/
theorem Scripted.then {α β : Type} {cs ds : List Call} {g h : Nat → BitVec 6 → BitVec 6} {s : State} {rs : List Reply}
    {x : Run α} {f : α → State → Run β} {Q : α → Transient → Prop} (hx : Scripted cs g s rs x Q)
    (hf : ∀ a t, cs.length ≤ rs.length → t.cfg = s.cfg → Q a t.tr → StuckIn ds h t (rs.drop cs.length) (f a t)) :
    StuckIn (cs ++ ds) (fun n so => if n < cs.length then g n so else h (n - cs.length) (g cs.length so)) s rs
      (x.bind f) := by
  intro hs hl
  rw [List.length_append] at hl
  by_cases hn : rs.length < cs.length
  · obtain ⟨t, h1, h2, h3⟩ := hx.stuck hs hn
    refine ⟨t, by rw [h1]; rfl, ?_, h3.trans (if_pos hn).symm⟩
    rwa [List.take_append_of_le_length (by omega)]
  · obtain ⟨a, t, h1, h2, h3, h4, h5⟩ := hx.goes hs (by omega)
    obtain ⟨u, k1, k2, k3⟩ := hf a t (by omega) h2.cfg h5 h3 (by simp; omega)
    refine ⟨u, by rw [h1]; exact k1, ?_, ?_⟩
    · have := h2.trans k2
      rwa [List.length_drop, show rs.length - cs.length + 1 = rs.length + 1 - cs.length by omega,
        ← List.take_of_length_le (l := cs) (i := rs.length + 1) (by omega), List.length_take,
        show min (rs.length + 1) cs.length = cs.length by omega, ← List.take_append] at this
    · rw [k3, List.length_drop, h4]
      exact (if_neg hn).symm

theorem Scripted.seq {α β : Type} {cs ds : List Call} {g h : Nat → BitVec 6 → BitVec 6} {s : State} {rs : List Reply}
    {x : Run α} {f : α → State → Run β} {Q : α → Transient → Prop} {R : β → Transient → Prop} (hx : Scripted cs g s rs x Q)
    (hf : ∀ a t, t.cfg = s.cfg → Q a t.tr → Scripted ds h t (rs.drop cs.length) (f a t) R) :
    Scripted (cs ++ ds) (fun n so => if n < cs.length then g n so else h (n - cs.length) (g cs.length so)) s rs
      (x.bind f) R := by
  refine ⟨fun hs hl => ?_, hx.then (fun a t _ hc hq => (hf a t hc hq).stuck)⟩
  rw [List.length_append] at hl
  obtain ⟨a, t, h1, h2, h3, h4, h5⟩ := hx.goes hs (by omega)
  obtain ⟨b, u, k1, k2, k3, k4, k5⟩ := (hf a t h2.cfg h5).goes h3 (by simp; omega)
  refine ⟨b, u, by rw [h1]; exact k1, h2.trans k2, ?_, ?_, k5⟩
  · rwa [List.length_append, ← List.drop_drop]
  · rw [k4, h4]
    simp

/-- The last parts of an operation: what comes after them makes no call. -/
theorem Scripted.last {α β : Type} {cs : List Call} {g : Nat → BitVec 6 → BitVec 6} {s : State} {rs : List Reply} {x : Run α}
    {f : α → State → Run β} {Q : α → Transient → Prop} (hx : Scripted cs g s rs x Q) : StuckIn cs g s rs (x.bind f) :=
  (hx.then (ds := []) (h := keeps) (fun _ _ _ _ _ => StuckIn.none _)).mono (List.append_nil _) (fun n hn => by
    rw [List.length_append] at hn
    exact if_pos (by simpa using hn))

/-- A part that leaves `so` alone, before a part that is stuck with `so` as `h` says. -/
theorem Scripted.before {α β : Type} {cs ds es : List Call} {h k : Nat → BitVec 6 → BitVec 6} {s : State} {rs : List Reply}
    {x : Run α} {f : α → State → Run β} {Q : α → Transient → Prop} (hx : Scripted cs keeps s rs x Q)
    (hf : ∀ a t, cs.length ≤ rs.length → t.cfg = s.cfg → Q a t.tr → StuckIn ds h t (rs.drop cs.length) (f a t)) (he : cs ++ ds = es)
    (hk : ∀ n, k n s.so = if n < cs.length then s.so else h (n - cs.length) s.so) : StuckIn es k s rs (x.bind f) :=
  (hx.then hf).mono he (fun n _ => (hk n).symm)

/-- CLEAR_SEQ before a part that leaves `so` at 0. -/
theorem Scripted.cleared {α β : Type} {cs ds es : List Call} {h : Nat → BitVec 6 → BitVec 6} {s : State} {rs : List Reply}
    {x : Run α} {f : α → State → Run β} {Q : α → Transient → Prop} (hx : Scripted cs (zeroFrom 1) s rs x Q)
    (hf : ∀ a t, t.cfg = s.cfg → Q a t.tr → StuckIn ds h t (rs.drop cs.length) (f a t)) (he : cs ++ ds = es)
    (hc : 1 ≤ cs.length) (hh : ∀ n, h n 0#6 = 0#6) : StuckIn es (zeroFrom 1) s rs (x.bind f) :=
  (hx.then (fun a t _ => hf a t)).mono he (fun n _ => by
    by_cases h1 : n < cs.length
    · simp [h1]
    · simp [h1, zeroFrom, show ¬n < 1 by omega, show ¬cs.length < 1 by omega, hh])

/-- Parts that leave `so` alone, in sequence. -/
theorem Scripted.next {α β : Type} {cs ds es : List Call} {s : State} {rs : List Reply} {x : Run α} {f : α → State → Run β}
    {Q : α → Transient → Prop} {R : β → Transient → Prop} (hx : Scripted cs keeps s rs x Q)
    (hf : ∀ a t, t.cfg = s.cfg → Q a t.tr → Scripted ds keeps t (rs.drop cs.length) (f a t) R) (he : cs ++ ds = es) :
    Scripted es keeps s rs (x.bind f) R :=
  (hx.seq hf).mono he (fun _ _ => by simp) (fun _ _ h => h)

/-- A part without a call. -/
theorem Scripted.done {α : Type} {s : State} {rs : List Reply} (a : α) {Q : α → Transient → Prop} (f : Transient → Transient)
    (hq : Q a (f s.tr)) : Scripted [] keeps s rs (.done a (setTr f s)) Q :=
  ⟨fun hs _ => ⟨a, _, rfl, by simp [Made, setTr], hs, rfl, hq⟩, StuckIn.none _⟩

/-- A part that starts after a change of the transient registers. -/
theorem Scripted.after_setTr {α : Type} {cs : List Call} {g : Nat → BitVec 6 → BitVec 6} {s : State} {rs : List Reply}
    {x : Run α} {Q : α → Transient → Prop} {f : Transient → Transient} (h : Scripted cs g (setTr f s) rs x Q) :
    Scripted cs g s rs x Q :=
  ⟨fun hs hl => h.goes hs hl, fun hs hl => h.stuck hs hl⟩

/-! ### The calls -/

/-- A call whose answer is handed on. -/
theorem call_scripted {α : Type} {c : Call} {s : State} {rs : List Reply} (g : Reply → State → α) {Q : α → Transient → Prop}
    (hq : ∀ r t, t.cfg = s.cfg → rs.head? = some r → Q (g r t) s.tr) :
    Scripted [c] keeps s rs ((call c s).bind fun r s1 => .done (g r s1) s1) Q := by
  refine ⟨fun ⟨hl, tl, ht, hr⟩ hn => ?_, fun ⟨hl, tl, ht, hr⟩ hn => ?_⟩
  · match rs, hn with
    | r :: rs, _ =>
      refine ⟨g r { issue c s with replies := rs.map some ++ tl }, { issue c s with replies := rs.map some ++ tl }, ?_, rfl,
        ⟨hl, tl, ht, rfl⟩, rfl, hq r _ rfl rfl⟩
      simp [call, hl, oracleCall, hr]
  · obtain rfl : rs = [] := by simpa using hn
    rcases ht with rfl | ⟨rest, rfl⟩
    · exact ⟨issue c s, by simp [call, hl, oracleCall, hr], rfl, rfl⟩
    · exact ⟨{ issue c s with replies := rest }, by simp [call, hl, oracleCall, hr], rfl, rfl⟩

theorem writeControl_scripted (b : Byte) (s : State) (rs : List Reply) :
    Scripted [.writeControl b] keeps s rs (writeControl b s) (fun _ τ => τ = s.tr) := call_scripted _ (fun _ _ _ _ => rfl)

theorem writeData_scripted (b : Byte) (s : State) (rs : List Reply) :
    Scripted [.writeData b] keeps s rs (writeData b s) (fun _ τ => τ = s.tr) := call_scripted _ (fun _ _ _ _ => rfl)

theorem writePort0_scripted (x y : Bool) (s : State) (rs : List Reply) :
    Scripted [.writePort0 x y] keeps s rs (writePort0 x y s) (fun _ τ => τ = s.tr) := call_scripted _ (fun _ _ _ _ => rfl)

theorem writePort1_scripted (x : Bool) (s : State) (rs : List Reply) :
    Scripted [.writePort1 x] keeps s rs (writePort1 x s) (fun _ τ => τ = s.tr) := call_scripted _ (fun _ _ _ _ => rfl)

theorem busyWait_scripted (s : State) (rs : List Reply) :
    Scripted [.busyWait] keeps s rs (busyWait s) (fun _ τ => τ = s.tr) :=
  call_scripted (fun _ _ => ()) (fun _ _ _ _ => rfl)

theorem readData_scripted (s : State) (rs : List Reply) :
    Scripted [.readData] keeps s rs (readData s) (fun b τ => b = (rs.getD 0 Reply.zero).byte ∧ τ = s.tr) :=
  call_scripted (fun r _ => r.byte) (fun r _ _ h => by cases rs <;> cases h; exact ⟨rfl, rfl⟩)

theorem readAddress_scripted (s : State) (rs : List Reply) :
    Scripted [.readAddress] keeps s rs (readAddress s) (fun a τ => a = (rs.getD 0 Reply.zero).addr ∧ τ = s.tr) :=
  call_scripted (fun r _ => r.addr) (fun r _ _ h => by cases rs <;> cases h; exact ⟨rfl, rfl⟩)

/-! ### The parts -/

/-- CLEAR_SEQ writes `so` between its two calls (R133). -/
theorem clearSeq_scripted (s : State) (rs : List Reply) :
    Scripted (clearCalls s.cfg) (zeroFrom 1) s rs (clearSeq s) (fun _ _ => True) := by
  have hb (st : Int) (t : State) : Scripted [.busyWait] (zeroFrom 0) t (rs.drop 1)
      ((busyWait { setTr (fun τ => { τ with s := st }) t with so := 0#6 }).bind fun _ s2 => .done st s2)
      (fun _ _ => True) := by
    have h := (busyWait_scripted { setTr (fun τ => { τ with s := st }) t with so := 0#6 } (rs.drop 1)).next
      (f := fun _ s2 => .done st s2) (R := fun _ _ => True) (fun _ u _ _ => Scripted.done st id trivial)
      (List.append_nil _)
    refine ⟨fun hs hl => ?_, fun hs hl => ?_⟩
    · obtain ⟨a, u, h1, h2, h3, h4, h5⟩ := h.goes hs hl
      exact ⟨a, u, h1, h2, h3, h4, h5⟩
    · obtain ⟨u, h1, h2, h3⟩ := h.stuck hs hl
      exact ⟨u, h1, h2, h3⟩
  exact ((writeControl_scripted _ s rs).seq (fun st t _ _ => hb st t)).mono rfl
    (fun n _ => by by_cases h : n < 1 <;> simp [h, zeroFrom]) (fun _ _ h => h)

theorem emitWrite_scripted (b : Byte) (s : State) (rs : List Reply) :
    Scripted [emitCall s.cfg b] keeps s rs (emitWrite b s) (fun _ _ => True) := by
  refine Scripted.next (cs := [emitCall s.cfg b]) (Q := fun _ _ => True) ?_
    (fun st t _ _ => Scripted.done st (fun t => { t with s := st }) trivial) (List.append_nil _)
  by_cases hb : isControl s.cfg b = true
  · rw [if_pos hb, emitCall, if_pos ((isControl_iff _ _).1 hb)]
    exact (writeControl_scripted _ s rs).mono rfl (fun _ _ => rfl) (fun _ _ _ => trivial)
  · rw [if_neg hb, emitCall, if_neg (fun hc => hb ((isControl_iff _ _).2 hc))]
    exact (writeData_scripted _ s rs).mono rfl (fun _ _ => rfl) (fun _ _ _ => trivial)

theorem blankCells_scripted (n : Nat) : ∀ (s : State) (rs : List Reply),
    Scripted (List.replicate n (.writeData s.cfg.chSpace)) keeps s rs (blankCells n s) (fun _ τ => τ.tgt = s.tr.tgt) := by
  induction n with
  | zero => exact fun s rs => Scripted.done () id rfl
  | succ n ih =>
    intro s rs
    refine Scripted.next (ds := List.replicate n (.writeData s.cfg.chSpace)) (writeData_scripted _ s rs)
      (fun st t hc hq => ?_) rfl
    have h := ih (addStatus st t) (rs.drop 1)
    rw [show (addStatus st t).cfg = s.cfg from hc] at h
    exact Scripted.after_setTr (f := fun τ => { τ with sum := narrow t.cfg.resw (τ.sum + st) })
      (h.mono rfl (fun _ _ => rfl) (fun _ τ h => h.trans (by simp [hq])))

theorem lineClearPhases_scripted (a : Addr) (s : State) (rs : List Reply) (h : s.tr.tgt = rowStart a) :
    Scripted (lineClearCalls s.cfg a) keeps s rs (lineClearPhases s) (fun _ _ => True) := by
  have ht : setAddressByte s.cfg.cmd s.tr.tgt = setAddressByte s.cfg.cmd (if a.getLsbD 6 then 0x40#7 else 0x00#7) := by
    rw [h]
    rfl
  refine Scripted.next
    (ds := List.replicate 16 (.writeData s.cfg.chSpace) ++ [.writeControl (setAddressByte s.cfg.cmd s.tr.tgt)])
    (writeControl_scripted _ s rs) (fun st t hc hq => ?_) (by rw [ht]; rfl)
  refine Scripted.next (Q := fun _ τ => τ.tgt = s.tr.tgt)
    (Scripted.after_setTr (f := fun τ => { τ with sum := st }) ?_) (fun _ u hd hu => ?_) rfl
  · have h := blankCells_scripted 16 (setTr (fun τ => { τ with sum := st }) t) (rs.drop 1)
    rw [show (setTr (fun τ => { τ with sum := st }) t).cfg = s.cfg from hc] at h
    exact h.mono rfl (fun _ _ => rfl) (fun _ τ h => h.trans (by simp [hq]))
  · rw [← hu, ← hd.trans hc]
    exact Scripted.next (writeControl_scripted _ u _)
      (fun st3 v _ _ => Scripted.done () (fun τ => { τ with sum := narrow v.cfg.resw (τ.sum + st3) }) trivial)
      (List.append_nil _)

theorem emitAll_scripted (bs : List Byte) : ∀ (s : State) (rs : List Reply),
    Scripted (bs.map (emitCall s.cfg)) keeps s rs (emitAll bs s) (fun _ _ => True) := by
  induction bs with
  | nil => exact fun s rs => Scripted.done () id trivial
  | cons b bs ih =>
    intro s rs
    refine Scripted.next (emitWrite_scripted b s rs) (fun st t hc _ => ?_) rfl
    have h := ih (setTr (fun τ => { τ with j := τ.j + 1 }) t) (rs.drop 1)
    rw [setTr_cfg, hc] at h
    exact Scripted.after_setTr h

theorem writeWrapped_scripted (bs : List Byte) : ∀ (s : State) (rs : List Reply),
    Scripted (wrapFrom s.cfg s.tr.j bs) keeps s rs (writeWrapped bs s) (fun _ _ => True) := by
  induction bs with
  | nil => exact fun s rs => Scripted.done () id trivial
  | cons b bs ih =>
    intro s rs
    refine Scripted.next
      (ds := (if s.tr.j + 1 = 16 then [.writeControl (setAddressByte s.cfg.cmd Config.row1Start)] else [])
        ++ wrapFrom s.cfg (s.tr.j + 1) bs)
      (writeData_scripted b s rs) (fun st t hc hq => ?_) (by simp [wrapFrom])
    refine Scripted.next (Q := fun _ τ => τ.j = s.tr.j) ?_ (fun _ u hd hu => ?_) rfl
    · rw [wrapAfter, show Config.lcdLength = 16 from rfl, hq, ← hc]
      split
      · exact Scripted.next (writeControl_scripted _ t _) (fun _ u _ hu => Scripted.done () id (by simp [hu, hq]))
          (List.append_nil _)
      · exact Scripted.done () id (by simp [hq])
    · have h := ih (setTr (fun τ => { τ with j := τ.j + 1 }) u)
      simp only [setTr_tr, setTr_cfg, hu, hd, hc] at h
      exact Scripted.after_setTr (h _)

theorem repeatControl_scripted (c : Byte) (n : Nat) : ∀ (s : State) (rs : List Reply),
    Scripted (List.replicate n (.writeControl c)) keeps s rs (repeatControl c n s) (fun _ _ => True) := by
  induction n with
  | zero => exact fun s rs => Scripted.done () id trivial
  | succ n ih =>
    intro s rs
    exact Scripted.next (writeControl_scripted c s rs)
      (fun _ t _ _ => Scripted.after_setTr (f := fun τ => { τ with k := n }) (ih _ _)) rfl

theorem repeatShift_scripted (c : Byte) (d : Int) (n : Nat) : ∀ (s : State) (rs : List Reply),
    Scripted (List.replicate n (.writeControl c)) keeps s rs (repeatShift c d n s) (fun _ _ => True) := by
  induction n with
  | zero => exact fun s rs => Scripted.done () id trivial
  | succ n ih =>
    intro s rs
    exact Scripted.next (writeControl_scripted c s rs)
      (fun _ t _ _ => Scripted.after_setTr (f := fun τ => { τ with k := n, acc := τ.acc + d }) (ih _ _)) rfl

theorem pushColour_scripted (c : Channels) (s : State) (rs : List Reply) :
    Scripted [.writePort0 c.red c.green, .writePort1 c.blue] keeps s rs (pushColour c s) (fun _ _ => True) :=
  Scripted.next (writePort0_scripted _ _ s rs) (fun st _ _ _ => Scripted.next
    (Scripted.after_setTr (f := fun τ => { τ with s := st, sum := st }) (writePort1_scripted _ _ _))
    (fun st1 u _ _ => Scripted.done () (fun τ => { τ with s := st1, sum := narrow u.cfg.resw (τ.sum + st1) }) trivial)
    (List.append_nil _)) rfl

theorem programModes_scripted (s : State) (rs : List Reply) :
    Scripted [.writeControl s.cfg.cmd.bootstrap, .writeControl s.cfg.cmd.functionSet, .writeControl s.cfg.cmd.displayCtrl,
      .writeControl s.cfg.cmd.entryMode] keeps s rs (programModes s) (fun _ _ => True) := by
  refine Scripted.next (writeControl_scripted _ s rs) (fun _ t ht _ => ?_) rfl
  rw [← ht]
  refine Scripted.next (writeControl_scripted _ t _) (fun _ u hu _ => ?_) rfl
  rw [← hu]
  refine Scripted.next (writeControl_scripted _ u _) (fun _ v hv _ => ?_) rfl
  rw [← hv]
  exact Scripted.next (writeControl_scripted _ v _) (fun _ w _ _ => Scripted.done () id trivial) (List.append_nil _)

/-- One iteration: the byte read decides whether it counts (R143, R144). -/
theorem selfTestRound_scripted (s : State) (rs : List Reply) :
    Scripted (roundCalls s.cfg s.tr.i) keeps s rs (selfTestRound s) (fun _ τ => τ.i = s.tr.i + 1
      ∧ τ.cnt = if selfTestMatch s.tr.i (testByte s.cfg s.tr.i) (rs.getD 2 Reply.zero).byte then s.tr.cnt + 1
        else s.tr.cnt) := by
  refine Scripted.next (cs := [.writeData (testByte s.cfg s.tr.i)]) (Q := fun _ τ => τ = (loadTestByte s).tr)
    (Scripted.after_setTr (writeData_scripted _ (loadTestByte s) rs)) (fun _ t ht hq => ?_) rfl
  rw [← ht]
  refine Scripted.next (writeControl_scripted _ t _) (fun _ u hu hr => ?_) rfl
  refine Scripted.next (readData_scripted u _) (fun r v _ hv => ?_) (List.append_nil _)
  refine Scripted.done () (fun τ => { τ with
    r := r, cnt := if selfTestMatch τ.i τ.w r then τ.cnt + 1 else τ.cnt, i := τ.i + 1 }) ⟨?_, ?_⟩
  · simp [hv.2, hr, hq]
  · have he : r = (rs.getD 2 Reply.zero).byte := by rw [hv.1]; simp [List.getD_eq_getElem?_getD]
    simp [hv.2, hr, hq, he, ht]

/-- `n` iterations from index `i` on, whose first 80 bytes are all the ones written: each of these counts. -/
theorem selfTestLoop_scripted (n : Nat) : ∀ (s : State) (rs : List Reply),
    Scripted ((List.range' s.tr.i n).flatMap (roundCalls s.cfg)) keeps s rs (selfTestLoop n s) (fun _ τ =>
      (∀ k, k < n → s.tr.i + k < 80 → (rs.getD (2 + 3 * k) Reply.zero).byte = testByte s.cfg (s.tr.i + k)) →
        s.tr.cnt = min s.tr.i 80 → τ.cnt = min (s.tr.i + n) 80) := by
  induction n with
  | zero => exact fun s rs => Scripted.done () id (fun _ h => h)
  | succ n ih =>
    intro s rs
    rw [List.range'_succ, List.flatMap_cons]
    refine Scripted.next (selfTestRound_scripted s rs) (fun _ t ht hq => ?_) rfl
    have h := ih t (rs.drop (roundCalls s.cfg s.tr.i).length)
    rw [hq.1, ht] at h
    refine h.mono rfl (fun _ _ => rfl) (fun _ τ hτ he hc => ?_)
    rw [show s.tr.i + (n + 1) = s.tr.i + 1 + n by omega]
    refine hτ (fun k hk hk2 => ?_) ?_
    · rw [← show s.tr.i + (k + 1) = s.tr.i + 1 + k by omega, ← he (k + 1) (by omega) (by omega)]
      simp [List.getD_eq_getElem?_getD, roundCalls, show 3 + (2 + 3 * k) = 2 + 3 * (k + 1) by omega]
    · rw [hq.2]
      by_cases h80 : s.tr.i < 80
      · rw [if_pos ((selfTestMatch_iff _ _ _).2 ⟨h80, by simpa using he 0 (by omega) (by omega)⟩)]
        omega
      · rw [if_neg (fun hm => h80 ((selfTestMatch_iff _ _ _).1 hm).1)]
        omega

end Sys2Proof.Machine
end

