-- ==== Sys2Proof/Laws/PerInstr.lean ====
section
/-! SUPPORT. The law EncodingShape, instruction by instruction: how long the encoding is and what its first byte is
(R71, R72, R79; the command bytes are single bytes, R81). -/

namespace Sys2Proof.Laws.EncodingShape

/-- The length in bytes that the formats of R71 give; a signed operand takes two for `OPW` = 16. -/
def lengthOf (cfg : Config) : Instr → Nat
  | .init | .clear | .home | .emitLineClear => 1
  | .emit _ | .setColour _ => 2
  | .cursorMove _ | .displayShift _ => 1 + operandBytes cfg
  | .cursorGoto _ _ => 3
  | .emitFormatted str | .emitWrapped str => 3 + str.length
  | .cmdClear | .cmdHome | .cmdBootstrap | .cmdEntryMode _ _ | .cmdDisplayCtrl _ _ _ => 1
  | .cmdCursorLeft | .cmdCursorRight | .cmdShiftLeft | .cmdShiftRight => 1
  | .cmdFunctionSet _ _ _ | .cmdSetDdram _ => 1

/-- The opcode of a request (R72); for a device command, whether the byte's class is the row's (R80). -/
def firstByteOk (cfg : Config) : Instr → Byte → Prop
  | .init, b => b = cfg.opcodes.init
  | .clear, b => b = cfg.opcodes.clear
  | .home, b => b = cfg.opcodes.home
  | .emit _, b => b = cfg.opcodes.emit
  | .emitLineClear, b => b = cfg.opcodes.emitLineClear
  | .emitFormatted _, b => b = cfg.opcodes.emitFormatted
  | .emitWrapped _, b => b = cfg.opcodes.emitWrapped
  | .cursorMove _, b => b = cfg.opcodes.cursorMove
  | .cursorGoto _ _, b => b = cfg.opcodes.cursorGoto
  | .displayShift _, b => b = cfg.opcodes.displayShift
  | .setColour _, b => b = cfg.opcodes.setColour
  | .cmdClear, b => b = 0x01#8
  | .cmdHome, b => b = 0x02#8
  | .cmdBootstrap, b => b = cfg.cmd.bootstrap
  | .cmdEntryMode _ _, b => b.extractLsb' 2 6 = 0b000001#6
  | .cmdDisplayCtrl _ _ _, b => b.extractLsb' 3 5 = 0b00001#5
  | .cmdCursorLeft, b => b = 0x10#8
  | .cmdCursorRight, b => b = 0x14#8
  | .cmdShiftLeft, b => b = 0x18#8
  | .cmdShiftRight, b => b = 0x1C#8
  | .cmdFunctionSet _ _ _, b => b.extractLsb' 5 3 = 0b001#3 ∧ b.extractLsb' 0 2 = 0b00#2
  | .cmdSetDdram _, b => b.extractLsb' 7 1 = 0b1#1

def Statement (i : Instr) : Prop :=
  ∀ cfg : Config, ∃ b rest, encode cfg i = b :: rest ∧ firstByteOk cfg i b ∧ (encode cfg i).length = lengthOf cfg i

theorem init : Statement .init := fun _ => ⟨_, _, rfl, rfl, rfl⟩

theorem clear : Statement .clear := fun _ => ⟨_, _, rfl, rfl, rfl⟩

theorem home : Statement .home := fun _ => ⟨_, _, rfl, rfl, rfl⟩

theorem emit (b : Byte) : Statement (.emit b) := fun _ => ⟨_, _, rfl, rfl, rfl⟩

theorem emitLineClear : Statement .emitLineClear := fun _ => ⟨_, _, rfl, rfl, rfl⟩

theorem emitFormatted (str : List Byte) : Statement (.emitFormatted str) :=
  fun _ => ⟨_, _, rfl, rfl, by simp [encode, encodeS, lengthOf]; omega⟩

theorem emitWrapped (str : List Byte) : Statement (.emitWrapped str) :=
  fun _ => ⟨_, _, rfl, rfl, by simp [encode, encodeS, lengthOf]; omega⟩

theorem cursorMove (n : Int) : Statement (.cursorMove n) :=
  fun _ => ⟨_, _, rfl, rfl, by simp [encode, encodeW, lengthOf]; omega⟩

theorem cursorGoto (row col : Byte) : Statement (.cursorGoto row col) := fun _ => ⟨_, _, rfl, rfl, rfl⟩

theorem displayShift (n : Int) : Statement (.displayShift n) :=
  fun _ => ⟨_, _, rfl, rfl, by simp [encode, encodeW, lengthOf]; omega⟩

theorem setColour (name : ColourName) : Statement (.setColour name) := fun _ => ⟨_, _, rfl, rfl, rfl⟩

theorem cmdClear : Statement .cmdClear := fun _ => ⟨_, _, rfl, rfl, rfl⟩

theorem cmdHome : Statement .cmdHome := fun _ => ⟨_, _, rfl, rfl, rfl⟩

theorem cmdBootstrap : Statement .cmdBootstrap := fun _ => ⟨_, _, rfl, rfl, rfl⟩

theorem cmdEntryMode (inc shift : Bool) : Statement (.cmdEntryMode inc shift) :=
  fun _ => ⟨_, _, rfl, by revert inc shift; dsimp only [firstByteOk]; decide, rfl⟩

theorem cmdDisplayCtrl (disp cursor blink : Bool) : Statement (.cmdDisplayCtrl disp cursor blink) :=
  fun _ => ⟨_, _, rfl, by revert disp cursor blink; dsimp only [firstByteOk]; decide, rfl⟩

theorem cmdCursorLeft : Statement .cmdCursorLeft := fun _ => ⟨_, _, rfl, rfl, rfl⟩

theorem cmdCursorRight : Statement .cmdCursorRight := fun _ => ⟨_, _, rfl, rfl, rfl⟩

theorem cmdShiftLeft : Statement .cmdShiftLeft := fun _ => ⟨_, _, rfl, rfl, rfl⟩

theorem cmdShiftRight : Statement .cmdShiftRight := fun _ => ⟨_, _, rfl, rfl, rfl⟩

theorem cmdFunctionSet (len lines font : Bool) : Statement (.cmdFunctionSet len lines font) :=
  fun _ => ⟨_, _, rfl, by revert len lines font; dsimp only [firstByteOk]; decide, rfl⟩

theorem cmdSetDdram (a : Addr) : Statement (.cmdSetDdram a) :=
  fun _ => ⟨_, _, rfl, by revert a; dsimp only [firstByteOk]; decide, rfl⟩

end Sys2Proof.Laws.EncodingShape
end

