-- ==== Sys2Proof/Laws/Ranges.lean ====
section
/-! SUPPORT. The transient registers stay in their ranges (R21) in every part of an operation, where it goes on and where it
hangs. -/

namespace Sys2Proof.Machine

/-- A state with the configuration `cfg` and the transient registers in their ranges. -/
structure Within (cfg : Config) (s : State) : Prop where
  same : s.cfg = cfg
  tr   : s.tr.InRange cfg

/-- A part that stays within the ranges, and ends with a value and transient registers in `R`. -/
abbrev Ranged {α : Type} (cfg : Config) (R : α → Transient → Prop) (x : Run α) : Prop :=
  x.Post (fun a t => Within cfg t ∧ R a t.tr) (Within cfg)

theorem Transient.idle_inRange (cfg : Config) : Transient.idle.InRange cfg := by
  have hp : (0 : Int) < 2 ^ cfg.opw := by positivity
  have hq : (0 : Int) < 2 ^ cfg.resw := by positivity
  refine ⟨by simp [Transient.idle], ?_, ?_, ?_, ?_, by decide, by decide, by decide, by decide, by decide⟩
  · simp only [Transient.idle]; omega
  · simp only [Transient.idle]; omega
  · rw [fitsIn_iff]; simp only [Transient.idle]; omega
  · rw [fitsIn_iff]; simp only [Transient.idle]; omega

/-- A call leaves them as they are. -/
theorem CallFrame.tr {c : Call} {s t : State} (h : CallFrame c s t) : t.tr = s.tr := by
  rw [h.frame]
  rfl

theorem CallFrame.within {cfg : Config} {c : Call} {s t : State} (h : CallFrame c s t) (hs : Within cfg s) : Within cfg t :=
  ⟨by rw [h.frame]; exact hs.same, by rw [h.tr]; exact hs.tr⟩

theorem call_ranged {α : Type} {cfg : Config} {c : Call} {s : State} {P : α → Prop} (g : Reply → State → α)
    (hg : ∀ r t, t.cfg = cfg → P (g r t)) (h : Within cfg s) :
    Ranged cfg (fun a τ => P a ∧ τ = s.tr) ((call c s).bind fun r s1 => .done (g r s1) s1) :=
  call_seq (fun r t ht => ⟨ht.within h, hg r t (ht.within h).same, ht.tr⟩) (fun _ ht => ht.within h)

/-- A write's status fits `RESW` bits (R40). -/
theorem status_ranged {cfg : Config} {c : Call} {s : State} (h : Within cfg s) :
    Ranged cfg (fun st τ => fitsIn cfg.resw st = true ∧ τ = s.tr)
      ((call c s).bind fun r s1 => .done (narrow s1.cfg.resw r.status) s1) :=
  call_ranged (P := fun st => fitsIn cfg.resw st = true) (fun r t => narrow t.cfg.resw r.status)
    (fun r t ht => by rw [ht]; exact fitsIn_narrow _ _) h

theorem writeControl_ranged {cfg : Config} {b : Byte} {s : State} (h : Within cfg s) :
    Ranged cfg (fun st τ => fitsIn cfg.resw st = true ∧ τ = s.tr) (writeControl b s) := status_ranged h

theorem writeData_ranged {cfg : Config} {b : Byte} {s : State} (h : Within cfg s) :
    Ranged cfg (fun st τ => fitsIn cfg.resw st = true ∧ τ = s.tr) (writeData b s) := status_ranged h

theorem writePort0_ranged {cfg : Config} {x y : Bool} {s : State} (h : Within cfg s) :
    Ranged cfg (fun st τ => fitsIn cfg.resw st = true ∧ τ = s.tr) (writePort0 x y s) := status_ranged h

theorem writePort1_ranged {cfg : Config} {x : Bool} {s : State} (h : Within cfg s) :
    Ranged cfg (fun st τ => fitsIn cfg.resw st = true ∧ τ = s.tr) (writePort1 x s) := status_ranged h

theorem readData_ranged {cfg : Config} {s : State} (h : Within cfg s) :
    Ranged cfg (fun _ τ => True ∧ τ = s.tr) (readData s) := call_ranged (fun r _ => r.byte) (fun _ _ _ => trivial) h

theorem readAddress_ranged {cfg : Config} {s : State} (h : Within cfg s) :
    Ranged cfg (fun _ τ => True ∧ τ = s.tr) (readAddress s) := call_ranged (fun r _ => r.addr) (fun _ _ _ => trivial) h

theorem busyWait_ranged {cfg : Config} {s : State} (h : Within cfg s) :
    Ranged cfg (fun _ τ => True ∧ τ = s.tr) (busyWait s) := call_ranged (fun _ _ => ()) (fun _ _ _ => trivial) h

/-- Parts in sequence. -/
theorem Ranged.seq {α β : Type} {cfg : Config} {P : α → Transient → Prop} {R : β → Transient → Prop} {x : Run α}
    {f : α → State → Run β} (hx : Ranged cfg P x) (hf : ∀ a t, Within cfg t → P a t.tr → Ranged cfg R (f a t)) :
    Ranged cfg R (x.bind f) :=
  Run.Post.seq hx (fun a t h => hf a t h.1 h.2)

/-! A change of one register, within its range. -/

theorem Within.set_s {cfg : Config} {s : State} {v : Int} (h : Within cfg s) (hv : fitsIn cfg.resw v = true) :
    Within cfg (setTr (fun t => { t with s := v }) s) :=
  ⟨h.same, ⟨h.tr.k, h.tr.accLo, h.tr.accHi, hv, h.tr.sum, h.tr.i, h.tr.cnt, h.tr.j, h.tr.m, h.tr.buf⟩⟩

theorem Within.set_sum {cfg : Config} {s : State} {v : Int} (h : Within cfg s) (hv : fitsIn cfg.resw v = true) :
    Within cfg (setTr (fun t => { t with sum := v }) s) :=
  ⟨h.same, ⟨h.tr.k, h.tr.accLo, h.tr.accHi, h.tr.s, hv, h.tr.i, h.tr.cnt, h.tr.j, h.tr.m, h.tr.buf⟩⟩

theorem Within.set_k {cfg : Config} {s : State} {n : Nat} (h : Within cfg s) (hn : 2 * n ≤ 2 ^ cfg.opw) :
    Within cfg (setTr (fun t => { t with k := n }) s) :=
  ⟨h.same, ⟨hn, h.tr.accLo, h.tr.accHi, h.tr.s, h.tr.sum, h.tr.i, h.tr.cnt, h.tr.j, h.tr.m, h.tr.buf⟩⟩

theorem Within.set_acc {cfg : Config} {s : State} {v : Int} (h : Within cfg s) (hlo : -(2 ^ cfg.opw : Int) ≤ 2 * v)
    (hhi : 2 * v < (2 ^ cfg.opw : Int) + 78) : Within cfg (setTr (fun t => { t with acc := v }) s) :=
  ⟨h.same, ⟨h.tr.k, hlo, hhi, h.tr.s, h.tr.sum, h.tr.i, h.tr.cnt, h.tr.j, h.tr.m, h.tr.buf⟩⟩

theorem Within.set_j {cfg : Config} {s : State} {n : Nat} (h : Within cfg s) (hn : n ≤ 80) :
    Within cfg (setTr (fun t => { t with j := n }) s) :=
  ⟨h.same, ⟨h.tr.k, h.tr.accLo, h.tr.accHi, h.tr.s, h.tr.sum, h.tr.i, h.tr.cnt, hn, h.tr.m, h.tr.buf⟩⟩

/-- The address registers have no other bound than their width. -/
theorem Within.set_addr {cfg : Config} {s : State} (x y : Addr) (h : Within cfg s) :
    Within cfg (setTr (fun t => { t with a := x, tgt := y }) s) :=
  ⟨h.same, ⟨h.tr.k, h.tr.accLo, h.tr.accHi, h.tr.s, h.tr.sum, h.tr.i, h.tr.cnt, h.tr.j, h.tr.m, h.tr.buf⟩⟩

theorem Within.addStatus {cfg : Config} {s : State} (st : Int) (h : Within cfg s) : Within cfg (addStatus st s) := by
  refine ⟨h.same, ⟨h.tr.k, h.tr.accLo, h.tr.accHi, h.tr.s, ?_, h.tr.i, h.tr.cnt, h.tr.j, h.tr.m, h.tr.buf⟩⟩
  rw [addStatus_tr, h.same]
  exact fitsIn_narrow _ _

theorem clearSeq_ranged {cfg : Config} {s : State} (h : Within cfg s) :
    Ranged cfg (fun st _ => fitsIn cfg.resw st = true) (clearSeq s) := by
  refine Ranged.seq (writeControl_ranged h) (fun st t ht hst => ?_)
  exact Ranged.seq (busyWait_ranged ⟨(ht.set_s hst.1).same, (ht.set_s hst.1).tr⟩) (fun _ u hu _ => ⟨hu, hst.1⟩)

/-- The body of EMIT writes the register `s` only. -/
theorem emitWrite_ranged {cfg : Config} {b : Byte} {s : State} (h : Within cfg s) :
    Ranged cfg (fun _ τ => τ.j = s.tr.j ∧ τ.m = s.tr.m) (emitWrite b s) := by
  refine Ranged.seq (P := fun st τ => fitsIn cfg.resw st = true ∧ τ = s.tr) ?_ (fun st t ht he => ?_)
  · split
    · exact writeControl_ranged h
    · exact writeData_ranged h
  · exact ⟨ht.set_s he.1, by simp [he.2], by simp [he.2]⟩

theorem blankCells_ranged {cfg : Config} (n : Nat) : ∀ s : State, Within cfg s →
    Ranged cfg (fun _ _ => True) (blankCells n s) := by
  induction n with
  | zero => exact fun s h => ⟨h, trivial⟩
  | succ n ih =>
    intro s h
    exact Ranged.seq (writeData_ranged h) (fun st t ht _ => ih _ (ht.addStatus st))

theorem loadBuffer_within {cfg : Config} {buf : List Byte} {s : State} (h : Within cfg s) (hb : buf.length ≤ 80) :
    Within cfg (loadBuffer buf s) :=
  ⟨h.same, ⟨h.tr.k, h.tr.accLo, h.tr.accHi, h.tr.s, h.tr.sum, h.tr.i, h.tr.cnt, Nat.zero_le _, hb, hb⟩⟩

theorem emitAll_ranged {cfg : Config} (bs : List Byte) : ∀ s : State, Within cfg s → s.tr.j + bs.length ≤ 80 →
    Ranged cfg (fun _ _ => True) (emitAll bs s) := by
  induction bs with
  | nil => exact fun s h _ => ⟨h, trivial⟩
  | cons b bs ih =>
    intro s h hj
    simp only [List.length_cons] at hj
    refine Ranged.seq (emitWrite_ranged h) (fun st t ht he => ih _ (ht.set_j (by rw [he.1]; omega)) ?_)
    simp [he.1]; omega

theorem writeWrapped_ranged {cfg : Config} (bs : List Byte) : ∀ s : State, Within cfg s → s.tr.j + bs.length ≤ 80 →
    Ranged cfg (fun _ _ => True) (writeWrapped bs s) := by
  induction bs with
  | nil => exact fun s h _ => ⟨h, trivial⟩
  | cons b bs ih =>
    intro s h hj
    simp only [List.length_cons] at hj
    refine Ranged.seq (writeData_ranged h) (fun st t ht he => ?_)
    refine Ranged.seq (P := fun _ τ => τ = s.tr) ?_ (fun _ u hu hue => ih _ (hu.set_j (by rw [hue]; omega)) ?_)
    · unfold wrapAfter
      split
      · exact Ranged.seq (writeControl_ranged ht) (fun _ u hu hue => ⟨hu, hue.2.trans he.2⟩)
      · exact ⟨ht, he.2⟩
    · simp [hue]; omega

theorem repeatControl_ranged {cfg : Config} (c : Byte) (n : Nat) (hn : 2 * n ≤ 2 ^ cfg.opw) : ∀ s : State, Within cfg s →
    Ranged cfg (fun _ _ => True) (repeatControl c n s) := by
  induction n with
  | zero => exact fun s h => ⟨h, trivial⟩
  | succ n ih =>
    intro s h
    exact Ranged.seq (writeControl_ranged h) (fun _ t ht _ => ih (by omega) _ (ht.set_k (by omega)))

/-- The accumulator moves one way, by one a step (R21, R131). -/
theorem repeatShift_ranged {cfg : Config} (c : Byte) (d : Int) (hd : d = 1 ∨ d = -1) (n : Nat)
    (hn : 2 * n ≤ 2 ^ cfg.opw) : ∀ s : State, Within cfg s →
    (d = -1 → -(2 ^ cfg.opw : Int) ≤ 2 * (s.tr.acc - n)) → (d = 1 → 2 * (s.tr.acc + n) < (2 ^ cfg.opw : Int) + 78) →
    Ranged cfg (fun _ _ => True) (repeatShift c d n s) := by
  induction n with
  | zero => exact fun s h _ _ => ⟨h, trivial⟩
  | succ n ih =>
    intro s h hlo hhi
    have h1 := h.tr.accLo
    have h2 := h.tr.accHi
    push_cast at hlo hhi
    refine Ranged.seq (writeControl_ranged h) (fun _ t ht he => ih (by omega) _ ?_ ?_ ?_)
    · refine (ht.set_k (n := n) (by omega)).set_acc (v := t.tr.acc + d) ?_ ?_ <;> (rw [he.2]; omega)
    · simp only [setTr_tr, he.2]; omega
    · simp only [setTr_tr, he.2]; omega

theorem programModes_ranged {cfg : Config} {s : State} (h : Within cfg s) :
    Ranged cfg (fun _ _ => True) (programModes s) := by
  refine Ranged.seq (writeControl_ranged h) (fun _ t ht _ => ?_)
  refine Ranged.seq (writeControl_ranged ht) (fun _ u hu _ => ?_)
  refine Ranged.seq (writeControl_ranged hu) (fun _ v hv _ => ?_)
  exact Ranged.seq (writeControl_ranged hv) (fun _ w hw _ => ⟨hw, trivial⟩)

/-- One iteration: `i` counts on, `cnt` stays within both `i` and 80 (R144). -/
theorem selfTestRound_ranged {cfg : Config} {s : State} (h : Within cfg s) (hi : s.tr.i ≤ 80)
    (hc : s.tr.cnt ≤ min s.tr.i 80) :
    Ranged cfg (fun _ τ => τ.i = s.tr.i + 1 ∧ τ.cnt ≤ min τ.i 80) (selfTestRound s) := by
  have h0 : Within cfg (loadTestByte s) := ⟨h.same, ⟨h.tr.k, h.tr.accLo, h.tr.accHi, h.tr.s, h.tr.sum, h.tr.i, h.tr.cnt,
    h.tr.j, h.tr.m, h.tr.buf⟩⟩
  refine Ranged.seq (writeData_ranged h0) (fun _ t ht he => ?_)
  refine Ranged.seq (writeControl_ranged ht) (fun _ u hu hue => ?_)
  refine Ranged.seq (readData_ranged hu) (fun r v hv hve => ?_)
  have hi' : v.tr.i = s.tr.i := by rw [hve.2, hue.2, he.2]; rfl
  have hc' : v.tr.cnt = s.tr.cnt := by rw [hve.2, hue.2, he.2]; rfl
  have hn : (countMatch r v).tr.cnt ≤ min (s.tr.i + 1) 80 := by
    simp only [countMatch, setTr_tr, hi', hc']
    split
    · rename_i hm
      have := (selfTestMatch_iff _ _ _).1 hm
      omega
    · omega
  exact ⟨⟨hv.same, ⟨hv.tr.k, hv.tr.accLo, hv.tr.accHi, hv.tr.s, hv.tr.sum, by simp [hi']; omega, by omega, hv.tr.j, hv.tr.m,
    hv.tr.buf⟩⟩, by simp [hi'], by simpa [hi'] using hn⟩

theorem selfTestLoop_ranged {cfg : Config} (n : Nat) : ∀ s : State, Within cfg s → s.tr.i + n ≤ 81 →
    s.tr.cnt ≤ min s.tr.i 80 → Ranged cfg (fun _ _ => True) (selfTestLoop n s) := by
  induction n with
  | zero => exact fun s h _ _ => ⟨h, trivial⟩
  | succ n ih =>
    intro s h hi hc
    exact Ranged.seq (selfTestRound_ranged h (by omega) hc) (fun _ t ht hte => ih t ht (by rw [hte.1]; omega) hte.2)

end Sys2Proof.Machine
end

