-- ==== Sys2Proof/Laws/Requests.lean ====
section
/-! SUPPORT. What a request can do, said once over all of them: from which state its calls start, which calls they can be and
how many, and what its response adds. -/

namespace Sys2Proof.Machine

/-- The state in which an operation makes its first call. -/
def startState : Instr → State → State
  | .init, s => { accept .init s with fsm := .selfTesting }
  | .setColour name, s => selectColour (channelsOf name) (accept (.setColour name) s)
  | i, s => accept i s

/-- The calls an operation makes (R119, R136, R149, R158). -/
def callOk (cfg : Config) : Instr → Call → Prop
  | .init, c => (∃ b, c = .writeData b) ∨ c = .readData ∨ c = .busyWait
      ∨ c ∈ [.writeControl cfg.cmd.bootstrap, .writeControl cfg.cmd.functionSet, .writeControl cfg.cmd.displayCtrl,
          .writeControl cfg.cmd.entryMode, .writeControl cfg.cmd.clear, .writeControl cfg.cmd.cursorLeft]
  | .clear, c => c ∈ clearCalls cfg
  | .home, c => c = .writeControl cfg.cmd.home
  | .emit b, c => c = emitCall cfg b
  | .emitLineClear, c =>
      c ∈ [.readAddress, .writeControl (setAddressByte cfg.cmd 0x00#7), .writeControl (setAddressByte cfg.cmd 0x40#7),
        .writeData cfg.chSpace]
  | .emitFormatted str, c => ∃ b ∈ str, c = emitCall cfg b
  | .emitWrapped _, c => c ∈ clearCalls cfg ∨ (∃ b, c = .writeData b)
      ∨ c = .writeControl (setAddressByte cfg.cmd Config.row1Start)
  | .cursorMove _, c => c ∈ [.writeControl cfg.cmd.cursorRight, .writeControl cfg.cmd.cursorLeft, .readAddress]
  | .cursorGoto row col, c => row.toNat ≤ 2 ∧ col.toNat ≤ 39
      ∧ c ∈ [.writeControl (setAddressByte cfg.cmd (addrOf row col)), .readAddress]
  | .displayShift _, c => c ∈ [.writeControl cfg.cmd.shiftRight, .writeControl cfg.cmd.shiftLeft]
  | .setColour name, c =>
      c ∈ [.writePort0 (channelsOf name).red (channelsOf name).green, .writePort1 (channelsOf name).blue]
  | _, _ => False

/-- How many calls an operation makes at most (R93). -/
def callBound : Instr → Nat
  | .init => 251
  | .clear => 2
  | .home => 1
  | .emit _ => 1
  | .emitLineClear => 19
  | .emitFormatted _ => 80
  | .emitWrapped _ => 66
  | .cursorMove n => n.natAbs + 1
  | .cursorGoto _ _ => 2
  | .displayShift n => n.natAbs
  | .setColour _ => 2
  | _ => 0

/-- The operations that contain CLEAR_SEQ (R133). -/
def clearsScroll : Instr → Bool
  | .init | .clear | .emitWrapped _ => true
  | _ => false

/-- What a response adds to the calls: `m` is the state after the last call. -/
structure Responds (i : Instr) (m t : State) : Prop where
  response : ∃ v d, d ∈ allowedDiag i ∧ t = respond v d { m with fsm := t.fsm, so := t.so }
  fsm      : if i = .init then t.fsm = .ready ∨ t.fsm = .uninitialized else t.fsm = m.fsm
  scroll   : (∃ n, i = .displayShift n ∧ t.so.toNat < 40) ∨ (i = .home ∧ t.so = 0#6) ∨ t.so = m.so

/-- An operation: calls in its frame, then a response, or a hang on the way. -/
def Operation (i : Instr) (s : State) (x : Run Unit) : Prop :=
  x.Post (fun _ t => ∃ m, PartFrame (callOk s.cfg i) (callBound i) (clearsScroll i) (startState i s) m ∧ Responds i m t)
    (PartFrame (callOk s.cfg i) (callBound i) (clearsScroll i) (startState i s))

/-! ### Sequencing -/

theorem Operation.step {α : Type} {i : Instr} {s m : State} {n k : Nat} {z y : Bool} {x : Run α} {f : α → State → Run Unit}
    (hm : PartFrame (callOk s.cfg i) n z (startState i s) m) (hx : Framed (callOk s.cfg i) k y m x)
    (hf : ∀ a t, PartFrame (callOk s.cfg i) (n + k) (z || y) (startState i s) t → Operation i s (f a t))
    (hk : n + k ≤ callBound i) (hz : (z || y) = true → clearsScroll i = true) : Operation i s (x.bind f) :=
  Run.Post.seq (P := fun _ t => PartFrame (callOk s.cfg i) (n + k) (z || y) (startState i s) t)
    (Run.Post.mono hx (fun _ _ h => hm.trans h) (fun _ h => (hm.trans h).mono (fun _ h => h) hk hz)) hf

theorem Operation.first {α : Type} {i : Instr} {s : State} {k : Nat} {y : Bool} {x : Run α} {f : α → State → Run Unit}
    (hx : Framed (callOk s.cfg i) k y (startState i s) x)
    (hf : ∀ a t, PartFrame (callOk s.cfg i) k y (startState i s) t → Operation i s (f a t))
    (hk : k ≤ callBound i) (hz : y = true → clearsScroll i = true) : Operation i s (x.bind f) :=
  Operation.step (n := 0) (z := false) (PartFrame.refl _ 0 false _) hx
    (fun a t h => hf a t (h.mono (fun _ h => h) (by omega) (by simp))) (by omega) (by simpa using hz)

theorem Operation.respond {i : Instr} {s m t : State} {n : Nat} {z : Bool}
    (hm : PartFrame (callOk s.cfg i) n z (startState i s) m) (hk : n ≤ callBound i) (hz : z = true → clearsScroll i = true)
    (hr : Responds i m t) : Operation i s (.done () t) :=
  ⟨m, hm.mono (fun _ h => h) hk hz, hr⟩

/-! ### Responses -/

theorem responds_of {i : Instr} {d : Diag} {v : Int} {m : State} {f : Transient → Transient} (hd : d ∈ allowedDiag i)
    (hf : i ≠ .init) : Responds i m (respond v d (setTr f m)) :=
  ⟨⟨v, d, hd, rfl⟩, by rw [if_neg hf]; rfl, Or.inr (Or.inr rfl)⟩

theorem responds_self {i : Instr} {d : Diag} {v : Int} {m : State} (hd : d ∈ allowedDiag i) (hf : i ≠ .init) :
    Responds i m (Machine.respond v d m) :=
  ⟨⟨v, d, hd, rfl⟩, by rw [if_neg hf]; rfl, Or.inr (Or.inr rfl)⟩

/-- The response of an operation that ends in a status or a sum. -/
theorem Operation.status {i : Instr} {s m : State} {n : Nat} {z : Bool} (st : Int)
    (hm : PartFrame (callOk s.cfg i) n z (startState i s) m) (hk : n ≤ callBound i) (hz : z = true → clearsScroll i = true)
    (h1 : Diag.none ∈ allowedDiag i) (h2 : Diag.transportFailure ∈ allowedDiag i) (hf : i ≠ .init) :
    Operation i s (retStatus st m) := by
  unfold retStatus
  split
  · exact Operation.respond hm hk hz (responds_self h1 hf)
  · exact Operation.respond hm hk hz (responds_self h2 hf)

/-! ### The operations -/

theorem clear_operation (s : State) :
    Operation .clear s ((clearSeq (accept .clear s)).bind fun st s1 => retStatus st s1) := by
  refine Operation.first (k := 2) (y := true) (Run.Post.mono
    (clearSeq_framed (by simp [callOk, clearCalls]) (by simp [callOk, clearCalls])) (fun _ _ h => h.1) (fun _ h => h)) ?_
    (by decide) (by simp [clearsScroll])
  exact fun st t ht => Operation.status st ht (by decide) (by simp [clearsScroll]) (by decide) (by decide) (by decide)

theorem home_operation (s : State) :
    Operation .home s ((writeControl (accept .home s).cfg.cmd.home (accept .home s)).bind fun st s1 =>
      retStatus st { setTr (fun t => { t with s := st }) s1 with so := 0#6 }) := by
  refine Operation.first (k := 1) (y := false) (writeControl_framed (by simp [callOk])) ?_ (by decide) (by simp)
  intro st t ht
  have hr (v : Int) (d : Diag) (hd : d ∈ allowedDiag .home) : Responds .home t
      (Machine.respond v d { setTr (fun t => { t with s := st }) t with so := 0#6 }) :=
    ⟨⟨v, d, hd, rfl⟩, by rw [if_neg (by decide)]; rfl, Or.inr (Or.inl ⟨rfl, rfl⟩)⟩
  unfold retStatus
  split
  · exact Operation.respond ht (by decide) (by simp) (hr _ _ (by decide))
  · exact Operation.respond ht (by decide) (by simp) (hr _ _ (by decide))

theorem emit_operation (b : Byte) (s : State) :
    Operation (.emit b) s ((emitWrite b (accept (.emit b) s)).bind fun st s1 =>
      if st = 0 then ret (b.toNat : Int) s1 else raise .transportFailure s1.cfg.eof s1) := by
  refine Operation.first (k := 1) (y := false) (emitWrite_framed rfl) ?_ (Nat.le_refl 1) (by simp)
  intro st t ht
  split
  · exact Operation.respond ht (Nat.le_refl 1) (by simp) (responds_self (by simp [allowedDiag]) (by simp))
  · exact Operation.respond ht (Nat.le_refl 1) (by simp) (responds_self (by simp [allowedDiag]) (by simp))

theorem emitLineClear_operation (s : State) :
    Operation .emitLineClear s ((readAddress (accept .emitLineClear s)).bind fun a s1 =>
      (lineClearPhases (setTr (fun t => { t with a := a, tgt := rowStart a }) s1)).bind fun _ s2 =>
        retStatus s2.tr.sum s2) := by
  refine Operation.first (k := 1) (y := false) (readAddress_framed (by simp [callOk])) ?_ (by decide) (by simp)
  intro a t ht
  refine Operation.step (k := 18) (y := false) ht
    (Framed.after_setTr (f := fun t => { t with a := a, tgt := rowStart a }) (lineClearPhases_framed ?_ ?_)) ?_ (by decide)
    (by simp)
  · show callOk s.cfg .emitLineClear (.writeControl (setAddressByte t.cfg.cmd (rowStart a)))
    rw [ht.cfg, rowStart]
    cases a.getLsbD 6 <;> simp [callOk, startState, Config.row1Start]
  · simp [callOk, ht.cfg, startState]
  · exact fun _ u hu => Operation.status _ hu (by decide) (by simp) (by decide) (by decide) (by decide)

theorem emitFormatted_operation (str : List Byte) (s : State) :
    Operation (.emitFormatted str) s
      ((emitAll (bounded Config.fmtLen str)
          (loadBuffer (bounded Config.fmtLen str) (accept (.emitFormatted str) s))).bind fun _ s1 =>
        ret (s1.tr.m : Int) s1) := by
  refine Operation.first (k := 80) (y := false) (Framed.after_setTr (f := fun t => { t with j := 0, m := (bounded Config.fmtLen str).length, buf := bounded Config.fmtLen str })
    (Framed.mono (emitAll_framed _ _ ?_) (fun _ h => h) ?_ (by simp))) ?_ (Nat.le_refl 80) (by simp)
  · exact fun b hb => ⟨b, List.mem_of_mem_take hb, rfl⟩
  · simp [bounded, Config.fmtLen]
  · exact fun _ t ht => Operation.respond ht (Nat.le_refl 80) (by simp) (responds_self (by simp [allowedDiag]) (by simp))

theorem emitWrapped_operation (str : List Byte) (s : State) :
    Operation (.emitWrapped str) s ((clearSeq (accept (.emitWrapped str) s)).bind fun _ s1 =>
      (writeWrapped (bounded Config.wrapLen str) (loadBuffer (bounded Config.wrapLen str) s1)).bind fun _ s2 =>
        ret (s2.tr.m : Int) s2) := by
  refine Operation.first (k := 2) (y := true) (Run.Post.mono
    (clearSeq_framed (by simp [callOk, clearCalls]) (by simp [callOk, clearCalls])) (fun _ _ h => h.1) (fun _ h => h)) ?_
    (by simp [callBound]) (by simp [clearsScroll])
  intro _ t ht
  refine Operation.step (k := 64) (y := false) ht (Framed.after_setTr (f := fun t => { t with j := 0, m := (bounded Config.wrapLen str).length, buf := bounded Config.wrapLen str })
    (Framed.mono (writeWrapped_framed _ _ ?_ ?_) (fun _ h => h) ?_ (by simp))) ?_ (by simp [callBound])
    (by simp [clearsScroll])
  · exact fun b _ => Or.inr (Or.inl ⟨b, rfl⟩)
  · exact Or.inr (Or.inr (by simp [ht.cfg, startState]))
  · simp [bounded, Config.wrapLen]; omega
  · exact fun _ u hu => Operation.respond hu (by simp [callBound]) (by simp [clearsScroll])
      (responds_self (by simp [allowedDiag]) (by simp))

theorem cursorMove_operation (n : Int) (s : State) :
    Operation (.cursorMove n) s
      ((repeatControl (cursorByte s.cfg n) (magnitude n)
          (setTr (fun t => { t with k := magnitude n }) (accept (.cursorMove n) s))).bind fun _ s1 =>
        (readAddress s1).bind fun a s2 => ret (a.toNat : Int) (setTr (fun t => { t with a := a }) s2)) := by
  refine Operation.first (k := n.natAbs) (y := false) (Framed.after_setTr (f := fun t => { t with k := magnitude n })
    (Framed.mono (repeatControl_framed ?_ _ _) (fun _ h => h) (Nat.le_refl _) id)) ?_ (by simp [callBound]) (by simp)
  · unfold cursorByte
    split <;> simp [callOk]
  · intro _ t ht
    refine Operation.step (k := 1) (y := false) ht (readAddress_framed (by simp [callOk])) ?_ (by simp [callBound]) (by simp)
    exact fun a u hu => Operation.respond hu (by simp [callBound]) (by simp) (responds_of (by simp [allowedDiag]) (by simp))

theorem cursorGoto_operation (row col : Byte) (s : State) :
    Operation (.cursorGoto row col) s
      (if gotoInvalid row col then raise .validationError (-1) (accept (.cursorGoto row col) s)
        else
          (writeControl (setAddressByte s.cfg.cmd (addrOf row col))
              (setTr (fun t => { t with tgt := addrOf row col }) (accept (.cursorGoto row col) s))).bind fun _ s1 =>
            (readAddress s1).bind fun a s2 => gotoAnswer col (setTr (fun t => { t with a := a }) s2)) := by
  split
  · exact Operation.respond (PartFrame.refl _ 0 false _) (by simp) (by simp) (responds_self (by simp [allowedDiag]) (by simp))
  · rename_i hv
    have hr : row.toNat ≤ 2 ∧ col.toNat ≤ 39 := by
      have hv' : ¬(39 < col.toNat ∨ 2 < row.toNat) := fun h => hv ((gotoInvalid_iff row col).2 h)
      omega
    refine Operation.first (k := 1) (y := false) (Framed.after_setTr (f := fun t => { t with tgt := addrOf row col })
      (writeControl_framed ⟨hr.1, hr.2, by simp⟩)) ?_ (by simp [callBound]) (by simp)
    intro _ t ht
    refine Operation.step (k := 1) (y := false) ht (readAddress_framed ⟨hr.1, hr.2, by simp⟩) ?_ (by simp [callBound])
      (by simp)
    intro a u hu
    unfold gotoAnswer
    split
    · split
      · exact Operation.respond hu (by simp [callBound]) (by simp) (responds_of (by simp [allowedDiag]) (by simp))
      · exact Operation.respond hu (by simp [callBound]) (by simp) (responds_of (by simp [allowedDiag]) (by simp))
    · exact Operation.respond hu (by simp [callBound]) (by simp) (responds_of (by simp [allowedDiag]) (by simp))

theorem displayShift_operation (n : Int) (s : State) :
    Operation (.displayShift n) s
      ((repeatShift (shiftByte s.cfg n) (scrollDelta n) (magnitude n)
          (setTr (fun t => { t with acc := s.so.toNat, k := magnitude n }) (accept (.displayShift n) s))).bind
        fun _ s1 => storeScroll s1) := by
  refine Operation.first (k := n.natAbs) (y := false)
    (Framed.after_setTr (f := fun t => { t with acc := s.so.toNat, k := magnitude n })
      (Framed.mono (repeatShift_framed ?_ _ _ _) (fun _ h => h) (Nat.le_refl _) id)) ?_ (by simp [callBound]) (by simp)
  · unfold shiftByte
    split <;> simp [callOk]
  · exact fun _ t ht => Operation.respond ht (by simp [callBound]) (by simp)
      ⟨⟨_, _, by simp [allowedDiag], rfl⟩, by rw [if_neg (by simp)]; rfl, Or.inl ⟨n, rfl, scrollReduce_lt _⟩⟩

theorem setColour_operation (name : ColourName) (s : State) :
    Operation (.setColour name) s
      ((pushColour (channelsOf name) (selectColour (channelsOf name) (accept (.setColour name) s))).bind fun _ s1 =>
        retStatus s1.tr.sum s1) := by
  refine Operation.first (k := 2) (y := false) ?_ ?_ (by simp [callBound]) (by simp)
  · refine Framed.next (n := 1) (m := 1) (writePort0_framed (by simp [callOk])) (fun st t ht => ?_) (by omega)
    refine Framed.after_setTr (f := fun t => { t with s := st, sum := st }) ?_
    exact Framed.next (n := 1) (m := 0) (writePort1_framed (by simp [callOk]))
      (fun st u _ => PartFrame.of_setTr _ 0 false _ u) (by omega)
  · exact fun _ t ht => Operation.status _ ht (by simp [callBound]) (by simp) (by simp [allowedDiag]) (by simp [allowedDiag])
      (by simp)

theorem init_operation (s : State) :
    Operation .init s (initPhases { accept .init s with fsm := .selfTesting }) := by
  refine Operation.first (k := 4) (y := false) (programModes_framed ?_ ?_ ?_ ?_) ?_ (by simp [callBound]) (by simp)
  · simp [callOk, startState]
  · simp [callOk, startState]
  · simp [callOk, startState]
  · simp [callOk, startState]
  intro _ t ht
  refine Operation.step (k := 2) (y := true) ht (Run.Post.mono
    (clearSeq_framed (by simp [callOk, ht.cfg, startState]) (by simp [callOk])) (fun _ _ h => h.1) (fun _ h => h)) ?_
    (by simp [callBound]) (by simp [clearsScroll])
  intro _ u hu
  refine Operation.step (k := 243) (y := false) hu
    (Framed.after_setTr (f := fun t => { t with cnt := 0, i := 0 })
      (selfTestLoop_framed (fun b => Or.inl ⟨b, rfl⟩) (by simp [callOk]) 81 _
        (by simp [callOk, hu.cfg, startState]))) ?_ (by simp [callBound]) (by simp [clearsScroll])
  intro _ v hv
  split
  · refine Operation.step (k := 2) (y := true) hv (Run.Post.mono
      (clearSeq_framed (by simp [callOk, hv.cfg, startState]) (by simp [callOk])) (fun _ _ h => h.1) (fun _ h => h)) ?_
      (by simp [callBound]) (by simp [clearsScroll])
    intro _ w hw
    exact Operation.respond hw (by simp [callBound]) (by simp [clearsScroll])
      ⟨⟨_, _, by simp [allowedDiag], rfl⟩, by rw [if_pos rfl]; exact Or.inl rfl, Or.inr (Or.inr rfl)⟩
  · exact Operation.respond hv (by simp [callBound]) (by simp [clearsScroll])
      ⟨⟨_, _, by simp [allowedDiag], rfl⟩, by rw [if_pos rfl]; exact Or.inr rfl, Or.inr (Or.inr rfl)⟩

/-- What a request leaves when it answers a next state: a response, or a hang on the way. -/
def OperationEnd (i : Instr) (s t : State) : Prop :=
  (∃ m, PartFrame (callOk s.cfg i) (callBound i) (clearsScroll i) (startState i s) m ∧ Responds i m t)
    ∨ PartFrame (callOk s.cfg i) (callBound i) (clearsScroll i) (startState i s) t

theorem Operation.next {i : Instr} {s t : State} {x : Run Unit} (hx : Operation i s x) (h : finish x = .next t) :
    OperationEnd i s t := by
  cases x with
  | done a u => cases h; exact Or.inl hx
  | hung u => cases h; exact Or.inr hx
  | fault f => cases h
  | refused r => cases h

/-- A request that answers a next state: INIT of a Ready block answers at once; any other is an operation, from Ready unless
it is INIT. -/
theorem request_next {i : Instr} {s t : State} (hi : i.isRequest = true) (h : exec i s = .next t) :
    (i = .init ∧ s.fsm = .ready ∧ t = respond 0 .none (accept .init s))
    ∨ ((if i = .init then s.fsm ≠ .ready else s.fsm = .ready) ∧ OperationEnd i s t) := by
  cases i with
  | init =>
    simp only [exec, execInit] at h
    split at h
    · cases h
      exact Or.inl ⟨rfl, ‹_›, rfl⟩
    · exact Or.inr ⟨by rwa [if_pos rfl], (init_operation s).next h⟩
  | clear =>
    simp only [exec, execClear] at h
    obtain ⟨h1, h2⟩ := whenReady_next h
    exact Or.inr ⟨by rwa [if_neg (by simp)], (clear_operation s).next h2⟩
  | home =>
    simp only [exec, execHome] at h
    obtain ⟨h1, h2⟩ := whenReady_next h
    exact Or.inr ⟨by rwa [if_neg (by simp)], (home_operation s).next h2⟩
  | emit b =>
    simp only [exec, execEmit] at h
    obtain ⟨h1, h2⟩ := whenReady_next h
    exact Or.inr ⟨by rwa [if_neg (by simp)], (emit_operation b s).next h2⟩
  | emitLineClear =>
    simp only [exec, execEmitLineClear] at h
    obtain ⟨h1, h2⟩ := whenReady_next h
    exact Or.inr ⟨by rwa [if_neg (by simp)], (emitLineClear_operation s).next h2⟩
  | emitFormatted str =>
    simp only [exec, execEmitFormatted] at h
    obtain ⟨h1, h2⟩ := whenReady_next h
    exact Or.inr ⟨by rwa [if_neg (by simp)], (emitFormatted_operation str s).next h2⟩
  | emitWrapped str =>
    simp only [exec, execEmitWrapped] at h
    obtain ⟨h1, h2⟩ := whenReady_next h
    exact Or.inr ⟨by rwa [if_neg (by simp)], (emitWrapped_operation str s).next h2⟩
  | cursorMove n =>
    simp only [exec, execCursorMove] at h
    obtain ⟨h1, h2⟩ := whenReady_next h
    exact Or.inr ⟨by rwa [if_neg (by simp)], (cursorMove_operation n s).next h2⟩
  | cursorGoto row col =>
    simp only [exec, execCursorGoto] at h
    obtain ⟨h1, h2⟩ := whenReady_next h
    exact Or.inr ⟨by rwa [if_neg (by simp)], (cursorGoto_operation row col s).next h2⟩
  | displayShift n =>
    simp only [exec, execDisplayShift] at h
    obtain ⟨h1, h2⟩ := whenReady_next h
    exact Or.inr ⟨by rwa [if_neg (by simp)], (displayShift_operation n s).next h2⟩
  | setColour name =>
    simp only [exec, execSetColour] at h
    obtain ⟨h1, h2⟩ := whenReady_next h
    exact Or.inr ⟨by rwa [if_neg (by simp)], (setColour_operation name s).next h2⟩
  | cmdClear => cases hi
  | cmdHome => cases hi
  | cmdBootstrap => cases hi
  | cmdEntryMode x y => cases hi
  | cmdDisplayCtrl x y z => cases hi
  | cmdCursorLeft => cases hi
  | cmdCursorRight => cases hi
  | cmdShiftLeft => cases hi
  | cmdShiftRight => cases hi
  | cmdFunctionSet x y z => cases hi
  | cmdSetDdram a => cases hi

/-- A device command that answers a next state. -/
theorem deviceOutcome_next {x : DeviceAnswer} {s t : State} (h : deviceOutcome x s = .next t) :
    t = { s with dev := t.dev } ∧ ∃ r, x = .ok r t.dev := by
  cases x with
  | ok r d => cases h; exact ⟨rfl, r, rfl⟩
  | fault f => cases h
  | refused r => cases h

/-- A device command that answers a next state made one access to the device, and nothing else. -/
theorem command_next {i : Instr} {s t : State} (hi : i.isRequest = false) (h : exec i s = .next t) :
    t = { s with dev := t.dev } ∧ ((∃ c r, s.dev.run c = .ok r t.dev) ∨ ∃ b r, s.dev.control b = .ok r t.dev) := by
  cases i with
  | init => cases hi
  | clear => cases hi
  | home => cases hi
  | emit b => cases hi
  | emitLineClear => cases hi
  | emitFormatted str => cases hi
  | emitWrapped str => cases hi
  | cursorMove n => cases hi
  | cursorGoto row col => cases hi
  | displayShift n => cases hi
  | setColour name => cases hi
  | cmdClear =>
    simp only [exec, execCmdClear] at h
    obtain ⟨h1, r, h2⟩ := deviceOutcome_next h
    exact ⟨h1, Or.inl ⟨_, r, h2⟩⟩
  | cmdHome =>
    simp only [exec, execCmdHome] at h
    obtain ⟨h1, r, h2⟩ := deviceOutcome_next h
    exact ⟨h1, Or.inl ⟨_, r, h2⟩⟩
  | cmdEntryMode x y =>
    simp only [exec, execCmdEntryMode] at h
    obtain ⟨h1, r, h2⟩ := deviceOutcome_next h
    exact ⟨h1, Or.inl ⟨_, r, h2⟩⟩
  | cmdDisplayCtrl x y z =>
    simp only [exec, execCmdDisplayCtrl] at h
    obtain ⟨h1, r, h2⟩ := deviceOutcome_next h
    exact ⟨h1, Or.inl ⟨_, r, h2⟩⟩
  | cmdCursorLeft =>
    simp only [exec, execCmdCursorLeft] at h
    obtain ⟨h1, r, h2⟩ := deviceOutcome_next h
    exact ⟨h1, Or.inl ⟨_, r, h2⟩⟩
  | cmdCursorRight =>
    simp only [exec, execCmdCursorRight] at h
    obtain ⟨h1, r, h2⟩ := deviceOutcome_next h
    exact ⟨h1, Or.inl ⟨_, r, h2⟩⟩
  | cmdShiftLeft =>
    simp only [exec, execCmdShiftLeft] at h
    obtain ⟨h1, r, h2⟩ := deviceOutcome_next h
    exact ⟨h1, Or.inl ⟨_, r, h2⟩⟩
  | cmdShiftRight =>
    simp only [exec, execCmdShiftRight] at h
    obtain ⟨h1, r, h2⟩ := deviceOutcome_next h
    exact ⟨h1, Or.inl ⟨_, r, h2⟩⟩
  | cmdFunctionSet x y z =>
    simp only [exec, execCmdFunctionSet] at h
    obtain ⟨h1, r, h2⟩ := deviceOutcome_next h
    exact ⟨h1, Or.inl ⟨_, r, h2⟩⟩
  | cmdSetDdram a =>
    simp only [exec, execCmdSetDdram] at h
    obtain ⟨h1, r, h2⟩ := deviceOutcome_next h
    exact ⟨h1, Or.inl ⟨_, r, h2⟩⟩
  | cmdBootstrap =>
    simp only [exec, execCmdBootstrap] at h
    obtain ⟨h1, r, h2⟩ := deviceOutcome_next h
    exact ⟨h1, Or.inr ⟨_, r, h2⟩⟩

/-! ### The ranges of the transient registers -/

theorem respond_within {cfg : Config} {s : State} (v : Int) (d : Diag) (h : s.cfg = cfg) : Within cfg (respond v d s) :=
  ⟨h, Transient.idle_inRange cfg⟩

theorem ret_ranged {cfg : Config} {s : State} (v : Int) (h : s.cfg = cfg) : Ranged cfg (fun _ _ => True) (ret v s) :=
  ⟨respond_within v .none h, trivial⟩

theorem raise_ranged {cfg : Config} {s : State} (d : Diag) (v : Int) (h : s.cfg = cfg) :
    Ranged cfg (fun _ _ => True) (raise d v s) :=
  ⟨respond_within v d h, trivial⟩

theorem retStatus_ranged {cfg : Config} {s : State} (st : Int) (h : s.cfg = cfg) :
    Ranged cfg (fun _ _ => True) (retStatus st s) := by
  unfold retStatus
  split
  · exact ret_ranged _ h
  · exact raise_ranged _ _ h

theorem Ranged.next {cfg : Config} {x : Run Unit} {t : State} (hx : Ranged cfg (fun _ _ => True) x)
    (h : finish x = .next t) : Within cfg t :=
  finish_next (P := Within cfg) h (Run.Post.mono hx (fun _ _ h => h.1) (fun _ h => h))

theorem lineClearPhases_ranged {cfg : Config} {s : State} (h : Within cfg s) :
    Ranged cfg (fun _ _ => True) (lineClearPhases s) := by
  refine Ranged.seq (writeControl_ranged h) (fun st t ht hst => ?_)
  refine Ranged.seq (blankCells_ranged _ _ (ht.set_sum hst.1)) (fun _ u hu _ => ?_)
  exact Ranged.seq (writeControl_ranged hu) (fun st v hv _ => ⟨hv.addStatus st, trivial⟩)

theorem pushColour_ranged {cfg : Config} {c : Channels} {s : State} (h : Within cfg s) :
    Ranged cfg (fun _ _ => True) (pushColour c s) := by
  refine Ranged.seq (writePort0_ranged h) (fun st t ht hst => ?_)
  refine Ranged.seq (writePort1_ranged ((ht.set_sum hst.1).set_s hst.1)) (fun st v hv hst => ⟨?_, trivial⟩)
  have hz : fitsIn cfg.resw (narrow v.cfg.resw (v.tr.sum + st)) = true := by
    rw [hv.same]
    exact fitsIn_narrow _ _
  have hw := (hv.set_sum hz).set_s hst.1
  exact ⟨hw.same, hw.tr⟩

theorem initPhases_ranged {cfg : Config} {s : State} (h : Within cfg s) :
    Ranged cfg (fun _ _ => True) (initPhases s) := by
  refine Ranged.seq (programModes_ranged h) (fun _ t ht _ => ?_)
  refine Ranged.seq (clearSeq_ranged ht) (fun _ u hu _ => ?_)
  refine Ranged.seq (selfTestLoop_ranged 81 _
    ⟨hu.same, ⟨hu.tr.k, hu.tr.accLo, hu.tr.accHi, hu.tr.s, hu.tr.sum, by simp, by simp, hu.tr.j, hu.tr.m, hu.tr.buf⟩⟩
    (by simp) (by simp)) (fun _ v hv _ => ?_)
  split
  · exact Ranged.seq (clearSeq_ranged hv) (fun _ w hw _ => ret_ranged _ hw.same)
  · exact raise_ranged _ _ hv.same

/-- Every well-formed request leaves the transient registers in their ranges (R21), whether it ends or hangs. -/
theorem request_ranged {i : Instr} {s t : State} (hi : i.isRequest = true) (hw : i.wf s.cfg = true)
    (hs : s.tr.InRange s.cfg) (hso : s.so.toNat < 40) (h : exec i s = .next t) : Within s.cfg t := by
  have h0 (j : Instr) : Within s.cfg (accept j s) := ⟨rfl, hs⟩
  cases i with
  | init =>
    simp only [exec, execInit] at h
    split at h
    · cases h
      exact respond_within _ _ rfl
    · refine Ranged.next (initPhases_ranged ?_) h
      exact ⟨rfl, hs⟩
  | clear =>
    simp only [exec, execClear] at h
    refine Ranged.next ?_ (whenReady_next h).2
    exact Ranged.seq (clearSeq_ranged (h0 _)) (fun st t ht _ => retStatus_ranged st ht.same)
  | home =>
    simp only [exec, execHome] at h
    refine Ranged.next ?_ (whenReady_next h).2
    exact Ranged.seq (writeControl_ranged (h0 _)) (fun st t ht _ => retStatus_ranged st ht.same)
  | emit b =>
    simp only [exec, execEmit] at h
    refine Ranged.next ?_ (whenReady_next h).2
    refine Ranged.seq (emitWrite_ranged (h0 _)) (fun st t ht _ => ?_)
    split
    · exact ret_ranged _ ht.same
    · exact raise_ranged _ _ ht.same
  | emitLineClear =>
    simp only [exec, execEmitLineClear] at h
    refine Ranged.next ?_ (whenReady_next h).2
    refine Ranged.seq (readAddress_ranged (h0 _)) (fun a t ht _ => ?_)
    exact Ranged.seq (lineClearPhases_ranged (ht.set_addr a (rowStart a))) (fun _ u hu _ => retStatus_ranged _ hu.same)
  | emitFormatted str =>
    simp only [exec, execEmitFormatted] at h
    have hb : (bounded Config.fmtLen str).length ≤ 80 := by simp [bounded, Config.fmtLen]
    refine Ranged.next ?_ (whenReady_next h).2
    exact Ranged.seq (emitAll_ranged _ _ (loadBuffer_within (h0 _) hb) (by simpa [loadBuffer] using hb))
      (fun _ t ht _ => ret_ranged _ ht.same)
  | emitWrapped str =>
    simp only [exec, execEmitWrapped] at h
    have hb : (bounded Config.wrapLen str).length ≤ 80 := by simp [bounded, Config.wrapLen]
    refine Ranged.next ?_ (whenReady_next h).2
    refine Ranged.seq (clearSeq_ranged (h0 _)) (fun _ t ht _ => ?_)
    exact Ranged.seq (writeWrapped_ranged _ _ (loadBuffer_within ht hb) (by simpa [loadBuffer] using hb))
      (fun _ t ht _ => ret_ranged _ ht.same)
  | cursorMove n =>
    simp only [exec, execCursorMove] at h
    refine Ranged.next ?_ (whenReady_next h).2
    refine Ranged.seq (repeatControl_ranged _ _ (magnitude_le hw) _ ((h0 _).set_k (magnitude_le hw))) (fun _ t ht _ => ?_)
    exact Ranged.seq (readAddress_ranged ht) (fun a t ht _ => ret_ranged _ ht.same)
  | cursorGoto row col =>
    simp only [exec, execCursorGoto] at h
    refine Ranged.next ?_ (whenReady_next h).2
    split
    · exact raise_ranged _ _ rfl
    · refine Ranged.seq (writeControl_ranged ((h0 _).set_addr s.tr.a (addrOf row col))) (fun _ t ht _ => ?_)
      refine Ranged.seq (readAddress_ranged ht) (fun a u hu _ => ?_)
      unfold gotoAnswer
      split
      · split
        · exact ret_ranged _ hu.same
        · exact ret_ranged _ hu.same
      · exact raise_ranged _ _ hu.same
  | displayShift n =>
    simp only [exec, execDisplayShift] at h
    have hd : scrollDelta n = 1 ∨ scrollDelta n = -1 := by unfold scrollDelta; split <;> simp
    have hm : 2 * magnitude n ≤ 2 ^ s.cfg.opw := magnitude_le hw
    have hf := (fitsIn_iff _ _).1 hw
    have h3 : ((2 ^ s.cfg.opw : Nat) : Int) = 2 ^ s.cfg.opw := by push_cast; rfl
    refine Ranged.next ?_ (whenReady_next h).2
    refine Ranged.seq (repeatShift_ranged _ _ hd _ hm _
      (((h0 _).set_k (n := magnitude n) hm).set_acc (v := s.so.toNat) (by omega) (by omega)) (fun _ => ?_) (fun hd1 => ?_))
      (fun _ t ht _ => ret_ranged _ ht.same)
    · simp only [setTr_tr]; omega
    · have : 0 < n := by
        by_contra hn
        rw [scrollDelta, if_neg (fun hf => hn ((isForward_iff n).1 hf))] at hd1
        cases hd1
      simp only [setTr_tr, magnitude, accept_so]
      omega
  | setColour name =>
    simp only [exec, execSetColour] at h
    refine Ranged.next ?_ (whenReady_next h).2
    exact Ranged.seq (pushColour_ranged ⟨rfl, hs⟩) (fun _ t ht _ => retStatus_ranged _ ht.same)
  | cmdClear => cases hi
  | cmdHome => cases hi
  | cmdBootstrap => cases hi
  | cmdEntryMode x y => cases hi
  | cmdDisplayCtrl x y z => cases hi
  | cmdCursorLeft => cases hi
  | cmdCursorRight => cases hi
  | cmdShiftLeft => cases hi
  | cmdShiftRight => cases hi
  | cmdFunctionSet x y z => cases hi
  | cmdSetDdram a => cases hi

end Sys2Proof.Machine
end

