-- ==== Sys2Proof/Tests/Slice0.lean ====
section
/-! SUPPORT. Own tests: ill-formed terms the check refuses, words written out from the spec's encodings, one-step tests from
the spec's worked examples (the rule is named in each comment), and for each obligation with hypotheses a witness that meets
them. -/

namespace Sys2Proof.Tests

open Sys2Proof Sys2Proof.Machine

/-! ### Helpers -/

/-- The block with an oracle that will give these answers. -/
def onOracle (f : Fsm) (rs : List Reply) : State :=
  { State.reset with fsm := f, link := .oracle, replies := rs.map some }

/-- The block with the good device at an address. -/
def onGood (f : Fsm) (a : Addr) : State :=
  { State.reset with fsm := f, dev := { Device.reset with ac := a } }

/-- An answer. -/
def reply (st : Int) (b : Byte) (a : Addr) : Reply :=
  { status := st, byte := b, addr := a }

/-- Answers that echo the test byte of every iteration. -/
def echoes (n : Nat) : List Reply := (List.range n).map (fun k => reply 0 (BitVec.ofNat 8 (0x30 + (k - 8) / 3)) 0#7)

def nextOf : Host.Outcome State Fault Refusal → Option State
  | .next t => some t
  | .fault _ => none
  | .refused _ => none

/-- What the host sees of a step, and the device's address. -/
def view (o : Host.Outcome State Fault Refusal) : Option (Int × Diag × Addr × BitVec 6) :=
  (nextOf o).map (fun t => (t.result, t.diag, t.dev.ac, t.so))

/-! ### WellFormed: terms the check refuses -/

theorem test_wf_zero_in_formatted : (Instr.emitFormatted [0x41#8, 0x00#8]).wf Config.standard = false := by decide
theorem test_wf_zero_in_wrapped : (Instr.emitWrapped [0x00#8]).wf Config.standard = false := by decide
theorem test_wf_formatted_too_long : (Instr.emitFormatted (List.replicate 65536 0x41#8)).wf Config.standard = false := by
  simp only [Instr.wf, stringOk, List.length_replicate]
  rfl
theorem test_wf_wrapped_too_long : (Instr.emitWrapped (List.replicate 65536 0x41#8)).wf Config.standard = false := by
  simp only [Instr.wf, stringOk, List.length_replicate]
  rfl
theorem test_wf_operand_too_wide : (Instr.cursorMove 32768).wf Config.standard = false
    ∧ (Instr.displayShift (-32769)).wf Config.standard = false := by decide
theorem test_wf_record_with_one_code_twice :
    ({ Config.standard with opcodes := { Opcodes.standard with home := 0x01#8 } } : Config).wf = false := by decide
theorem test_wf_accepts : (Instr.emitWrapped [0x0A#8, 0xFF#8]).wf Config.standard = true
    ∧ (Instr.emitFormatted []).wf Config.standard = true ∧ (Instr.cursorMove (-32768)).wf Config.standard = true := by decide

/-! ### Decoding: words written bit by bit from R71, R72, R77, R80 (first byte in the low bits) -/

theorem test_decode_init : decodeTableWord 8 0b00000000 = some .init := by decide
theorem test_decode_clear : decodeTableWord 8 0b00000001 = some .clear := by decide
theorem test_decode_home : decodeTableWord 8 0b00000010 = some .home := by decide
theorem test_decode_emit : decodeTableWord 16 0b10000001_00000011 = some (.emit 0b10000001#8) := by decide
theorem test_decode_emitLineClear : decodeTableWord 8 0b00000100 = some .emitLineClear := by decide
theorem test_decode_emitFormatted :
    decodeTableWord 40 0b01000010_00001010_00000000_00000010_00000101 = some (.emitFormatted [0x0A#8, 0x42#8]) := by decide
theorem test_decode_emitFormatted_empty : decodeTableWord 8 0b00000101 = some (.emitFormatted []) := by decide
theorem test_decode_emitWrapped :
    decodeTableWord 32 0b01111010_00000000_00000001_00000110 = some (.emitWrapped [0b01111010#8]) := by decide
theorem test_decode_cursorMove : decodeTableWord 24 0b10000000_00000001_00000111 = some (.cursorMove (-32767)) := by decide
theorem test_decode_cursorGoto : decodeTableWord 24 0b00010100_00000010_00001000 = some (.cursorGoto 2#8 20#8) := by decide
theorem test_decode_displayShift :
    decodeTableWord 24 0b11111111_11111011_00001001 = some (.displayShift (-5)) := by decide
theorem test_decode_setColour : decodeTableWord 16 0b00000110_00001010 = some (.setColour .magenta) := by decide
theorem test_decode_cmdClear : (decodeCommand 0b00000001#8).map Command.toInstr = .ok .cmdClear := by decide
theorem test_decode_cmdHome : (decodeCommand 0b00000010#8).map Command.toInstr = .ok .cmdHome := by decide
theorem test_decode_cmdHome_low_bit : (decodeCommand 0b00000011#8).map Command.toInstr = .ok .cmdHome := by decide
theorem test_decode_cmdBootstrap :
    encode Config.standard .cmdBootstrap = [0b00000010#8] ∧ decodeCommand 0b00000010#8 = .ok .home := by decide
theorem test_decode_cmdEntryMode :
    (decodeCommand 0b00000110#8).map Command.toInstr = .ok (.cmdEntryMode true false) := by decide
theorem test_decode_cmdDisplayCtrl :
    (decodeCommand 0b00001110#8).map Command.toInstr = .ok (.cmdDisplayCtrl true true false) := by decide
theorem test_decode_cmdCursorLeft : decodeTableWord 8 0b00010000 = some .cmdCursorLeft := by decide
theorem test_decode_cmdCursorRight : decodeTableWord 8 0b00010100 = some .cmdCursorRight := by decide
theorem test_decode_cmdShiftLeft : decodeTableWord 8 0b00011000 = some .cmdShiftLeft := by decide
theorem test_decode_cmdShiftRight : decodeTableWord 8 0b00011100 = some .cmdShiftRight := by decide
theorem test_decode_cmdFunctionSet : decodeTableWord 8 0b00101000 = some (.cmdFunctionSet false true false) := by decide
theorem test_decode_cmdSetDdram : decodeTableWord 8 0b11000011 = some (.cmdSetDdram 0x43#7) := by decide
theorem test_decode_reserved : decodeTableWord 8 0b00001011 = some (.cmdDisplayCtrl false true true)
    ∧ decode Config.standard [0b00001011#8] = .error (.reservedOpcode 0x0B#8)
    ∧ decode Config.standard [0b11111111#8] = .error (.reservedOpcode 0xFF#8) := by
  decide
theorem test_decode_cgram : decodeTableWord 8 0b01000000 = none ∧ decodeCommand 0b01111111#8 = .error .cgram := by decide
theorem test_decode_noClass : decodeCommand 0b00000000#8 = .error .noClass := by decide

/-- R78: a longer word that holds no request is refused at the request port, also where a byte of it is a command. -/
theorem test_decode_illegal_word : decodeTableWord 16 0x080A = none
    ∧ step (State.reset.withFetchWord 16 0x080A) = .refused .illegalRequest := ⟨by decide, rfl⟩
/-- R8: an operand of 12 bits takes two bytes, and a bit above them is no operand. -/
theorem test_decode_other_width :
    decode { Config.standard with opw := 12 } [0x07#8, 0xFE#8, 0x0F#8] = .ok (.cursorMove (-2), [])
      ∧ decode { Config.standard with opw := 12 } [0x07#8, 0xFE#8, 0x1F#8] = .error .strayOperandBits := by
  decide +kernel

/-- R82, the worked values, and R81: another byte of the record is or-ed with the target and goes out. -/
theorem test_setAddress :
    [0x00#7, 0x14#7, 0x40#7, 0x67#7].map (setAddressByte Cmd.standard) = [0x80#8, 0x94#8, 0xC0#8, 0xE7#8]
      ∧ ∃ t, exec (.emit 0x0A#8)
          { onOracle .ready [reply 0 0#8 0#7] with cfg := { Config.standard with cmd := { Cmd.standard with setDdram := 0x00#8 } } }
            = .next t ∧ t.calls = [.writeControl 0x40#8] :=
  ⟨by decide, _, rfl, rfl⟩

/-! ### One step, from the worked examples -/

/-- R112: EMIT 'A' at 0x05 gives 65 and address 0x06. -/
theorem test_emit : view (exec (.emit 0x41#8) (onGood .ready 0x05#7)) = some (65, .none, 0x06#7, 0#6) := by decide
/-- R112: EMIT of 0x0A gives 10 on success, at 0x40; R75: a failure gives EOF. -/
theorem test_emit_newline : view (exec (.emit 0x0A#8) (onGood .ready 0x05#7)) = some (10, .none, 0x40#7, 0#6)
    ∧ view (exec (.emit 0xFF#8) (onOracle .ready [reply 7 0#8 0#7])) = some (-1, .transportFailure, 0x00#7, 0#6) := by
  decide
/-- R113: EMIT_LINE_CLEAR at 0x45 gives 0 and address 0x40; statuses of opposite sign cancel. -/
theorem test_emitLineClear :
    view (exec .emitLineClear (onGood .ready 0x45#7)) = some (0, .none, 0x40#7, 0#6) := by decide +kernel
theorem test_emitLineClear_cancels :
    view (exec .emitLineClear (onOracle .ready (reply 9 0#8 0x45#7 :: reply 1 0#8 0#7 :: reply (-1) 0#8 0#7
      :: List.replicate 16 (reply 0 0#8 0#7)))) = some (0, .none, 0x00#7, 0#6) := by
  decide +kernel
/-- R115: EMIT_FORMATTED "A\nB" at 0x00 gives 3, 'A' in 0x00, 'B' in 0x40, address 0x41. -/
theorem test_emitFormatted :
    (nextOf (exec (.emitFormatted [0x41#8, 0x0A#8, 0x42#8]) (onGood .ready 0x00#7))).map
      (fun t => (t.result, t.dev.cell 0x00#7, t.dev.cell 0x40#7, t.dev.ac)) = some (3, 0x41#8, 0x42#8, 0x41#7) := by decide
/-- R114: 81 bytes are cut to 80. -/
theorem test_emitFormatted_truncates :
    view (exec (.emitFormatted (List.replicate 81 0x41#8)) (onGood .ready 0x00#7)) = some (80, .none, 0x00#7, 0#6) := by
  decide +kernel
/-- R117: 20 characters give 20; the 17th stands in 0x40 and the address is 0x44. -/
theorem test_emitWrapped :
    (nextOf (exec (.emitWrapped ((List.range 20).map (fun k => BitVec.ofNat 8 (0x41 + k)))) (onGood .ready 0x13#7))).map
      (fun t => (t.result, t.dev.cell 0x0F#7, t.dev.cell 0x10#7, t.dev.cell 0x40#7, t.dev.ac))
      = some (20, 0x50#8, 0x20#8, 0x51#8, 0x44#7) := by decide
/-- R117: a control byte is written as data, and 16 characters end with the newline. -/
theorem test_emitWrapped_raw :
    (nextOf (exec (.emitWrapped (List.replicate 16 0x0A#8)) (onGood .ready 0x13#7))).map
      (fun t => (t.result, t.dev.cell 0x0F#7, t.dev.ac)) = some (16, 0x0A#8, 0x40#7) := by decide
/-- R126: CURSOR_MOVE -2 at 0x40 gives 38. -/
theorem test_cursorMove : view (exec (.cursorMove (-2)) (onGood .ready 0x40#7)) = some (38, .none, 0x26#7, 0#6) := by
  decide
/-- R128: CURSOR_GOTO 0, 20 gives 1; R129: row 2 is accepted. -/
theorem test_cursorGoto : view (exec (.cursorGoto 0#8 20#8) (onGood .ready 0x00#7)) = some (1, .none, 0x14#7, 0#6)
    ∧ view (exec (.cursorGoto 2#8 5#8) (onGood .ready 0x00#7)) = some (0, .none, 0x45#7, 0#6) := by decide
/-- R127: row 3 and column 40 are rejected; R128: a mismatch gives -1 and its own kind. -/
theorem test_cursorGoto_errors :
    view (exec (.cursorGoto 3#8 5#8) (onGood .ready 0x11#7)) = some (-1, .validationError, 0x11#7, 0#6)
      ∧ view (exec (.cursorGoto 0#8 40#8) (onGood .ready 0x11#7)) = some (-1, .validationError, 0x11#7, 0#6)
      ∧ view (exec (.cursorGoto 0#8 20#8) { onGood .ready 0x11#7 with link := .device .stuck })
        = some (-1, .addressConsistencyError, 0x14#7, 0#6) := by decide
/-- R131: so = 3, DISPLAY_SHIFT -5 gives 38; n = -1 from 0 gives 39. -/
theorem test_displayShift :
    view (exec (.displayShift (-5)) { onGood .ready 0x11#7 with so := 3#6 }) = some (38, .none, 0x11#7, 38#6)
      ∧ view (exec (.displayShift (-1)) (onGood .ready 0x11#7)) = some (39, .none, 0x11#7, 39#6) := by decide
/-- R134: so = 17, CLEAR gives 0, so 0, address 0. -/
theorem test_clear : view (exec .clear { onGood .ready 0x11#7 with so := 17#6 }) = some (0, .none, 0x00#7, 0#6) := by
  decide
/-- R134: the status is passed through, and so is 0 all the same. -/
theorem test_clear_fails :
    view (exec .clear { onGood .ready 0x11#7 with so := 17#6, link := .device .failing })
      = some (-1, .transportFailure, 0x00#7, 0#6) := by decide
/-- R135: so = 38, HOME gives 0, so 0, address 0. -/
theorem test_home : view (exec .home { onGood .ready 0x11#7 with so := 38#6 }) = some (0, .none, 0x00#7, 0#6) := by decide
/-- R156: White records (0, 0) and (0); Red lights the red LED only. -/
theorem test_setColour :
    (nextOf (exec (.setColour .white) (onGood .ready 0x11#7))).map (fun t => (t.calls, t.result))
        = some ([.writePort0 false false, .writePort1 false], 0)
      ∧ (nextOf (exec (.setColour .red) (onGood .ready 0x11#7))).map (fun t => (t.dev.port0, t.dev.port1, t.chanSet))
        = some ((false, true), true, true) := by decide
/-- R149: INIT on the reference device from reset gives 0, Ready, address 0. It is run as the first instruction. -/
theorem test_init :
    (nextOf (step (State.reset.withFetchWord 8 0))).map
      (fun t => (t.result, t.diag, t.fsm, t.dev.ac, t.dev.ddram.length, t.calls.length))
      = some (0, .none, .ready, 0x00#7, 0, 251) := by decide +kernel
/-- R146: on RD_bad INIT gives -1, Uninitialized, address 0x01. -/
theorem test_init_fails :
    (nextOf (exec .init { State.reset with link := .device (.bad [79]) })).map
      (fun t => (t.result, t.diag, t.fsm, t.dev.ac, t.calls.length))
      = some (-1, .selfTestFailure, .uninitialized, 0x01#7, 249) := by decide +kernel
/-- R166: outside Ready a request is refused; R61: the device refuses an address that is no cell. -/
theorem test_refusals :
    step { State.reset with port := [0x01#8] } = .refused .notReady
      ∧ exec (.cmdSetDdram 0x28#7) State.reset = .refused .deviceAddress := ⟨rfl, rfl⟩
/-- R57 to R61: the device's commands. -/
theorem test_cmdClear :
    (nextOf (exec .cmdClear { State.reset with dev := { Device.reset with ddram := [(5, 0x41#8)], ac := 0x41#7 } })).map
      (fun t => (t.dev.cell 0x05#7, t.dev.ac)) = some (0x20#8, 0x00#7) := by decide
theorem test_cmdHome :
    (nextOf (exec .cmdHome { State.reset with dev := { Device.reset with ddram := [(5, 0x41#8)], shift := 3#6 } })).map
      (fun t => (t.dev.cell 0x05#7, t.dev.shift)) = some (0x41#8, 0#6) := by decide
theorem test_cmdBootstrap :
    (nextOf (exec .cmdBootstrap (onGood .uninitialized 0x41#7))).map (fun t => t.dev.ac) = some 0x00#7 := by decide
theorem test_cmdEntryMode :
    (nextOf (exec (.cmdEntryMode false true) State.reset)).map (fun t => (t.dev.idinc, t.dev.sdisp)) = some (false, true) := by
  decide
theorem test_cmdDisplayCtrl :
    (nextOf (exec (.cmdDisplayCtrl true false true) State.reset)).map (fun t => t.dev.dcb) = some 0b101#3 := by decide
theorem test_cmdFunctionSet :
    (nextOf (exec (.cmdFunctionSet false true false) State.reset)).map (fun t => t.dev.fn) = some 0b010#3 := by decide
theorem test_cmdCursor :
    (nextOf (exec .cmdCursorRight (onGood .ready 0x27#7))).map (fun t => t.dev.ac) = some 0x40#7
      ∧ (nextOf (exec .cmdCursorLeft (onGood .ready 0x00#7))).map (fun t => t.dev.ac) = some 0x67#7 := by decide
theorem test_cmdShift :
    (nextOf (exec .cmdShiftLeft State.reset)).map (fun t => t.dev.shift) = some 39#6
      ∧ (nextOf (exec .cmdShiftRight { State.reset with dev := { Device.reset with shift := 39#6 } })).map
        (fun t => t.dev.shift) = some 0#6 := by decide
theorem test_cmdSetDdram :
    (nextOf (exec (.cmdSetDdram 0x67#7) State.reset)).map (fun t => t.dev.ac) = some 0x67#7 := by decide
/-- R185: after reset the block waits; R44: a stuck block takes no step. -/
theorem test_waits : step State.reset = .next State.reset ∧ step { State.reset with busy := true } = .fault .stuck := ⟨rfl, rfl⟩

/-! ### Witnesses: a state and operands that meet the hypotheses of each obligation -/

theorem witness_ResetEventRestoresTheBlockOnly :
    ({ State.reset with resetReq := true, busy := true, fsm := .selfTesting } : State).resetReq = true := rfl

theorem open_with_port (p : List Byte) : ({ State.reset with port := p } : State).Open := ⟨rfl, rfl, rfl⟩

theorem witness_StepRunsTheDecodedRequest :
    ({ State.reset with port := [0x03#8, 0x41#8, 0x01#8] } : State).Open
      ∧ decode Config.standard [0x03#8, 0x41#8, 0x01#8] = .ok (.emit 0x41#8, [0x01#8]) := ⟨open_with_port _, by decide⟩

theorem witness_StepRunsTheDeviceCommand :
    ({ State.reset with command := some 0x14#8 } : State).resetReq = false
      ∧ ({ State.reset with command := some 0x14#8 } : State).busy = false
      ∧ ({ State.reset with command := some 0x14#8 } : State).command = some 0x14#8
      ∧ decodeCommand 0x14#8 = .ok (.cursorShift true) := ⟨rfl, rfl, rfl, by decide⟩

theorem witness_StuckBlockTakesNoStepAndIdleBlockWaits :
    (({ State.reset with busy := true } : State).resetReq = false ∧ ({ State.reset with busy := true } : State).busy = true)
      ∧ State.reset.Open ∧ State.reset.port = [] := ⟨⟨rfl, rfl⟩, ⟨rfl, rfl, rfl⟩, rfl⟩

/-- INIT at its first call, at its first busy-wait, in its last clear after eighty echoes (250 answers), and SET_COLOUR
between its ports; a hang that the answers say, and one where they end. -/
theorem witness_HungRequestLeavesWhatItWrote :
    (onOracle .uninitialized []).HangsAfter [] ∧ (onOracle .uninitialized (echoes 5)).HangsAfter (echoes 5)
      ∧ (echoes 5).length < (requestCalls Config.standard .init (echoes 5)).length
      ∧ (onOracle .uninitialized (echoes 250)).HangsAfter (echoes 250)
      ∧ (echoes 250).length < (requestCalls Config.standard .init (echoes 250)).length
      ∧ (∀ j, j < 80 → echoOf (echoes 250) j = Config.standard.chZero + BitVec.ofNat 8 j)
      ∧ ({ onOracle .ready [] with replies := [some (reply 0 0#8 0#7), none] } : State).HangsAfter [reply 0 0#8 0#7]
      ∧ [reply 0 0#8 0#7].length < (requestCalls Config.standard (.setColour .red) [reply 0 0#8 0#7]).length :=
  ⟨⟨rfl, Or.inl rfl⟩, ⟨rfl, Or.inl rfl⟩, by decide +kernel, ⟨rfl, Or.inl rfl⟩, by decide +kernel, by decide +kernel,
    ⟨rfl, Or.inr ⟨[], rfl⟩⟩, by decide⟩

theorem witness_RequestDecodesToItself :
    Config.standard.wf = true ∧ ((Instr.emitWrapped [0xFF#8]).isRequest = true ∧ (Instr.emitWrapped [0xFF#8]).wf Config.standard = true)
      ∧ (Instr.cursorMove (-32768)).isRequest = true ∧ (Instr.cursorMove (-32768)).wf Config.standard = true := by decide

theorem witness_AcceptedBytesAreTheEncoding :
    decode Config.standard [0x05#8, 0x01#8, 0x00#8, 0xFF#8, 0x00#8] = .ok (.emitFormatted [0xFF#8], [0x00#8]) := by decide

theorem witness_CommandByteDecodesToItself :
    (Instr.cmdSetDdram 0x7F#7).isRequest = false ∧ Instr.cmdSetDdram 0x7F#7 ≠ .cmdBootstrap := by decide

theorem witness_IllegalRequestsAreRefused :
    State.reset.cfg.opcodes = Opcodes.standard ∧ Opcodes.standard.toList.Nodup
      ∧ State.Open { State.reset with port := [0x0B#8] } ∧ 0x0B#8 ∉ Opcodes.standard.toList ∧ 0x0B ≤ (0x0B#8).toNat
      ∧ State.Open { State.reset with port := [0x0A#8, 0x08#8] } ∧ (0x08#8).extractLsb' 3 5 ≠ 0#5
      ∧ State.Open { State.reset with port := [0x05#8, 0x01#8, 0x00#8, 0x00#8] }
      ∧ [0x00#8].length = (0x01#8).toNat + 256 * (0x00#8).toNat ∧ 0x00#8 ∈ [0x00#8]
      ∧ State.Open { State.reset with port := [0x06#8, 0x00#8, 0x01#8] }
      ∧ ([] : List Byte).length < (0x00#8).toNat + 256 * (0x01#8).toNat
      ∧ State.Open { State.reset with port := [0x03#8] } ∧ ([] : List Byte).length < 1
      ∧ State.Open { State.reset with port := [0x08#8, 0x00#8] } ∧ [0x00#8].length < 2
      ∧ State.Open { State.reset with port := [0x09#8, 0x00#8] } ∧ 8 * [0x00#8].length < State.reset.cfg.opw :=
  ⟨rfl, by decide, open_with_port _, by decide, by decide, open_with_port _, by decide, open_with_port _, by decide,
    by decide, open_with_port _, by decide, open_with_port _, by decide, open_with_port _, by decide, open_with_port _,
    by decide⟩

theorem witness_SetAddressByteIsOneThenTheAddress :
    Cmd.standard.setDdram = 0x80#8 ∧ validAddr 0x00#7 = true ∧ validAddr 0x27#7 = true ∧ validAddr 0x40#7 = true
      ∧ validAddr 0x67#7 = true := by decide

theorem witness_AddressModelPlacesRowsAndColumns :
    ((0#8).toNat ≤ 2 ∧ (39#8).toNat ≤ 39) ∧ (2#8).toNat ≤ 2 ∧ (39#8).toNat ≤ 39 := by decide

theorem witness_LinearViewIsABijectionOfTheCells : 79 < 80 ∧ validAddr 0x67#7 = true ∧ validAddr 0x28#7 = false := by decide

theorem witness_RequestsBeforeReadyAreRefused :
    (Instr.setColour .black).isRequest = true ∧ Instr.setColour .black ≠ .init ∧ State.reset.fsm ≠ .ready := by decide

/-- The state that HOME leaves on the good device. -/
def homeDone : State := (onGood .ready 0x00#7).responded [.writeControl 0x02#8] 0 .none

theorem home_next : exec .home (onGood .ready 0x00#7) = .next homeDone := rfl

theorem witness_EachRegisterHasItsWriters :
    exec .cmdHome State.reset = .next State.reset ∧ Instr.cmdHome ≠ .init ∧ (∀ c, Instr.cmdHome ≠ .setColour c)
      ∧ Instr.cmdHome ≠ .clear ∧ Instr.cmdHome ≠ .home ∧ (∀ str, Instr.cmdHome ≠ .emitWrapped str)
      ∧ (∀ n, Instr.cmdHome ≠ .displayShift n) ∧ Instr.cmdHome.isRequest = false :=
  ⟨rfl, by decide, by simp, by decide, by decide, by simp, by simp, by decide⟩

theorem witness_ReadyIsLeftOnlyByReset :
    step { onGood .ready 0x00#7 with port := [0x02#8] } = .next homeDone ∧ (onGood .ready 0x00#7).fsm = .ready
      ∧ (onGood .ready 0x00#7).resetReq = false := ⟨rfl, rfl, rfl⟩

theorem witness_RequestRespondsOrHangs :
    (Instr.home.isRequest = true ∧ exec .home (onGood .ready 0x00#7) = .next homeDone)
      ∧ nextOf (exec .home (onOracle .ready [])) ≠ none := ⟨⟨rfl, home_next⟩, by decide⟩

theorem witness_ResponsesCarryOnlyTheListedKinds :
    Instr.home.isRequest = true ∧ exec .home (onGood .ready 0x00#7) = .next homeDone ∧ homeDone.busy = false :=
  ⟨rfl, home_next, rfl⟩

theorem witness_OnlyListedCommandBytesAreSent :
    Instr.home.isRequest = true ∧ Instr.home.wf (onGood .ready 0x00#7).cfg = true ∧ (onGood .ready 0x00#7).cfg = Config.standard
      ∧ exec .home (onGood .ready 0x00#7) = .next homeDone := ⟨rfl, rfl, rfl, home_next⟩

theorem witness_OracleRunsDoNotDependOnTheDevice :
    Instr.home.isRequest = true ∧ (onOracle .ready [reply 0 0#8 0#7]).link = .oracle
      ∧ nextOf (exec .home (onOracle .ready [reply 0 0#8 0#7])) ≠ none := by decide

theorem witness_CgramIsNeverTouched : step State.reset = .next State.reset := rfl

/-- The invariant holds of a Ready block at a cell, and of a block stuck in INIT. -/
theorem witness_EveryStepKeepsTheInvariant :
    (onGood .ready 0x67#7).Inv ∧ step (onGood .ready 0x67#7) = .next (onGood .ready 0x67#7)
      ∧ ({ State.reset with busy := true, fsm := .selfTesting, pos := some { op := .init, ix := 1 } } : State).Inv := by
  have hd : (onGood .ready 0x67#7).dev.Inv := ⟨by decide, Memory.wf_nil, by decide, by decide⟩
  have hr : Device.reset.Inv := ⟨by decide, Memory.wf_nil, by decide, by decide⟩
  exact ⟨⟨by decide, Transient.idle_inRange _, fitsIn_narrow 32 0, hd, fun _ => ⟨Or.inr rfl, rfl, rfl⟩,
      fun h => absurd h (by decide)⟩, rfl,
    ⟨by decide, Transient.idle_inRange _, fitsIn_narrow 32 0, hr, fun h => absurd h (by decide),
      fun _ => ⟨_, rfl, rfl, fun _ => rfl, fun h => absurd rfl h⟩⟩⟩

/-- EMIT, HOME: one answer. -/
theorem witness_one_answer :
    (onOracle .ready [reply 1 2#8 3#7]).fsm = .ready ∧ (onOracle .ready [reply 1 2#8 3#7]).Answers [reply 1 2#8 3#7] [] :=
  ⟨rfl, rfl, rfl⟩

theorem witness_EmitLineClearHomesBlanksHomes :
    (onOracle .ready (reply 1 2#8 3#7 :: List.replicate 18 (reply 0 0#8 0#7))).fsm = .ready
      ∧ (onOracle .ready (reply 1 2#8 3#7 :: List.replicate 18 (reply 0 0#8 0#7))).Answers
        (reply 1 2#8 3#7 :: List.replicate 18 (reply 0 0#8 0#7)) []
      ∧ (List.replicate 18 (reply 0 0#8 0#7)).length = 18 := ⟨rfl, ⟨rfl, rfl⟩, rfl⟩

theorem witness_EmitFormattedFeedsEachByte :
    (onOracle .ready [reply 1 2#8 3#7]).Answers [reply 1 2#8 3#7] [] ∧ [reply 1 2#8 3#7].length = min [0x41#8].length 80 :=
  ⟨⟨rfl, rfl⟩, rfl⟩

theorem witness_EmitWrappedClearsThenWrapsAfterSixteen :
    (onOracle .ready (List.replicate 19 (reply 0 0#8 0#7))).Answers (List.replicate 19 (reply 0 0#8 0#7)) []
      ∧ (List.replicate 19 (reply 0 0#8 0#7)).length
        = 2 + min (List.replicate 16 0x41#8).length 32 + (if 16 ≤ (List.replicate 16 0x41#8).length then 1 else 0) :=
  ⟨⟨rfl, rfl⟩, rfl⟩

theorem witness_CursorMoveStepsThenReadsBack :
    (onOracle .ready [reply 1 2#8 3#7, reply 0 0#8 9#7]).Answers ([reply 1 2#8 3#7] ++ [reply 0 0#8 9#7]) []
      ∧ [reply 1 2#8 3#7].length = (-1 : Int).natAbs := ⟨⟨rfl, rfl⟩, by decide⟩

theorem witness_CursorGotoRejectsOutOfRange :
    (onOracle .ready []).fsm = .ready ∧ (39 < (40#8).toNat ∨ 2 < (0#8).toNat) ∧ (39 < (39#8).toNat ∨ 2 < (3#8).toNat)
      ∧ (39#8).toNat ≤ 39 ∧ (2#8).toNat ≤ 2 ∧ nextOf (exec (.cursorGoto 2#8 39#8) (onOracle .ready [])) ≠ none := by decide

theorem witness_CursorGotoSetsThenChecksTheAddress :
    (onOracle .ready [reply 1 2#8 3#7, reply 0 0#8 0x67#7]).fsm = .ready
      ∧ (onOracle .ready [reply 1 2#8 3#7, reply 0 0#8 0x67#7]).Answers
        [reply 1 2#8 3#7, reply 0 0#8 0x67#7] []
      ∧ (39#8).toNat ≤ 39 ∧ (2#8).toNat ≤ 2 := ⟨rfl, ⟨rfl, rfl⟩, by decide, by decide⟩

theorem witness_DisplayShiftCountsModuloForty :
    (onOracle .ready [reply 1 2#8 3#7]).Answers [reply 1 2#8 3#7] []
      ∧ [reply 1 2#8 3#7].length = (-1 : Int).natAbs := ⟨⟨rfl, rfl⟩, by decide⟩

/-- The state after one shift, and the one after the shift back. -/
def shifted (b : Byte) (s : State) (so : BitVec 6) (cs : List Call) : State :=
  { s.responded (cs ++ [.writeControl b]) (so.toNat : Int) .none with
    so := so, dev := { s.dev with shift := so } }

theorem witness_ShiftAndShiftBackRestoresTheOffset :
    (onGood .ready 0x00#7).so.toNat < 40
      ∧ exec (.displayShift 1) (onGood .ready 0x00#7) = .next (shifted 0x1C#8 (onGood .ready 0x00#7) 1#6 [])
      ∧ (shifted 0x1C#8 (onGood .ready 0x00#7) 1#6 []).busy = false
      ∧ exec (.displayShift (-1)) (shifted 0x1C#8 (onGood .ready 0x00#7) 1#6 [])
        = .next (shifted 0x18#8 (onGood .ready 0x00#7) 0#6 [.writeControl 0x1C#8]) :=
  ⟨by decide, rfl, rfl, rfl⟩

/-- CLEAR, SET_COLOUR: two answers. -/
theorem witness_two_answers :
    (onOracle .ready [reply 1 2#8 3#7, reply 4 5#8 6#7]).fsm = .ready
      ∧ (onOracle .ready [reply 1 2#8 3#7, reply 4 5#8 6#7]).Answers [reply 1 2#8 3#7, reply 4 5#8 6#7] [] :=
  ⟨rfl, rfl, rfl⟩

theorem witness_SecondInitIsANoOp : (onOracle .ready []).fsm = .ready := rfl

theorem witness_InitPassesOnEightyEchoes :
    (onOracle .uninitialized (echoes 251)).fsm ≠ .ready ∧ (onOracle .uninitialized (echoes 251)).Answers (echoes 251) []
      ∧ (echoes 251).length = 251
      ∧ ∀ i, i < 80 → echoOf (echoes 251) i = Config.standard.chZero + BitVec.ofNat 8 i :=
  ⟨by decide, ⟨rfl, by rw [List.append_nil]; rfl⟩, by decide +kernel, by decide +kernel⟩

theorem witness_InitFailsOnOneWrongEcho :
    (onOracle .uninitialized (List.replicate 249 (reply 0 0x30#8 0#7))).fsm ≠ .ready
      ∧ (onOracle .uninitialized (List.replicate 249 (reply 0 0x30#8 0#7))).Answers
        (List.replicate 249 (reply 0 0x30#8 0#7)) []
      ∧ (List.replicate 249 (reply 0 0x30#8 0#7)).length = 249 ∧ 79 < 80
      ∧ echoOf (List.replicate 249 (reply 0 0x30#8 0#7)) 79 ≠ Config.standard.chZero + BitVec.ofNat 8 79 :=
  ⟨by decide, ⟨rfl, by rw [List.append_nil]; rfl⟩, List.length_replicate, by decide, by decide +kernel⟩

theorem witness_DeviceSetAddressTakesCellsOnly : validAddr 0x27#7 = true ∧ validAddr 0x28#7 = false := by decide

/-- A bootstrap byte for each clause: 0x02 (of the home class), the ends of the set-CGRAM class, 0x00. -/
theorem witness_DeviceReadsTheBootstrapByteByItsClass :
    State.reset.cfg.cmd.bootstrap = 0x02#8 ∧ decodeCommand State.reset.cfg.cmd.bootstrap = .ok .home
      ∧ (∀ b ∈ [0x40#8, 0x7F#8], ({ State.reset with
          cfg := { Config.standard with cmd := { Cmd.standard with bootstrap := b } } } : State).cfg.cmd.bootstrap.extractLsb' 6 2
        = 0b01#2)
      ∧ ({ State.reset with
          cfg := { Config.standard with cmd := { Cmd.standard with bootstrap := 0x00#8 } } } : State).cfg.cmd.bootstrap
        = 0x00#8 := by decide

/-- A byte for each clause: home, entry mode, display control, function set, cursor, display shift, set address of a cell and
of none, set-CGRAM, no class, clear. -/
theorem witness_CommandByteActsByItsBits :
    ({ State.reset with command := some 0x03#8 } : State).resetReq = false
      ∧ ({ State.reset with command := some 0x03#8 } : State).busy = false
      ∧ (0x03#8).extractLsb' 1 7 = 0b0000001#7 ∧ (0x07#8).extractLsb' 2 6 = 0b000001#6
      ∧ (0x0F#8).extractLsb' 3 5 = 0b00001#5 ∧ (0x3F#8).extractLsb' 5 3 = 0b001#3
      ∧ ((0x17#8).extractLsb' 4 4 = 0b0001#4 ∧ (0x17#8).getLsbD 3 = false)
      ∧ ((0x1F#8).extractLsb' 4 4 = 0b0001#4 ∧ (0x1F#8).getLsbD 3 = true)
      ∧ ((0xA7#8).getLsbD 7 = true ∧ validAddr ((0xA7#8).extractLsb' 0 7) = true)
      ∧ ((0xA8#8).getLsbD 7 = true ∧ validAddr ((0xA8#8).extractLsb' 0 7) = false)
      ∧ (0x7F#8).extractLsb' 6 2 = 0b01#2 := by decide

theorem witness_AddressStepsAreInverseOnTheCells :
    validAddr 0x67#7 = true ∧ (0x66#7 ≠ 0x27#7 ∧ 0x66#7 ≠ 0x67#7) ∧ 0x01#7 ≠ 0x00#7 ∧ 0x01#7 ≠ 0x40#7 := by decide

theorem witness_ClearHomeAndShiftBytesOnTheDevice :
    (0x02#8).extractLsb' 1 7 = 0b0000001#7 ∧ ((0x10#8).extractLsb' 4 4 = 0b0001#4 ∧ (0x10#8).getLsbD 3 = false)
      ∧ (0x18#8).extractLsb' 4 4 = 0b0001#4 ∧ (0x18#8).getLsbD 3 = true := by decide

theorem witness_DataPortAndFixtureCallsOnTheDevice :
    Device.reset.modeOk = true ∧ validAddr Device.reset.ac = true ∧ Device.reset.ddram.wf
      ∧ State.reset.link = .device .good
      ∧ call .readAddress State.reset = .done Reply.zero { State.reset with calls := [.readAddress] } :=
  ⟨by decide, by decide, Memory.wf_nil, rfl, rfl⟩

/-- The good device in the modes it is defined for, at the last cell: EMIT, EMIT_FORMATTED; a control byte and another. -/
theorem witness_on_device :
    (onGood .ready 0x67#7).fsm = .ready ∧ (onGood .ready 0x67#7).OnDevice ∧ (onGood .ready 0x67#7).dev.ddram.wf
      ∧ (onGood .ready 0x67#7).cfg.cmd.setDdram = 0x80#8
      ∧ 0x0D#8 = Config.standard.chCr ∧ 0x41#8 ≠ Config.standard.chCr ∧ 0x41#8 ≠ Config.standard.chLf :=
  ⟨rfl, ⟨rfl, by decide, by decide⟩, Memory.wf_nil, by decide, by decide, by decide, by decide⟩

theorem witness_EmitLineClearOnTheDeviceBlanksSixteenCells :
    (onGood .ready 0x67#7).OnDevice ∧ 0x40#7 = (if (onGood .ready 0x67#7).dev.ac.toNat < 0x40 then 0x00#7 else 0x40#7)
      ∧ (onGood .ready 0x27#7).cfg.cmd.setDdram = 0x80#8
      ∧ (onGood .ready 0x27#7).OnDevice ∧ 0x00#7 = (if (onGood .ready 0x27#7).dev.ac.toNat < 0x40 then 0x00#7 else 0x40#7) :=
  ⟨⟨rfl, by decide, by decide⟩, by decide, by decide, ⟨rfl, by decide, by decide⟩, by decide⟩

theorem witness_EmitWrappedOnTheDeviceFillsTwoRows :
    (onGood .ready 0x67#7).link = .device .good ∧ (onGood .ready 0x67#7).dev.sdisp = false
      ∧ (onGood .ready 0x67#7).cfg.cmd.clear = 0x01#8 ∧ (onGood .ready 0x67#7).cfg.cmd.setDdram = 0x80#8
      ∧ 16 = min (List.replicate 16 0x41#8).length 32 := by decide

theorem witness_MovesAndColoursStoreNothing :
    (onGood .ready 0x00#7).cfg = Config.standard ∧ exec .home (onGood .ready 0x00#7) = .next homeDone
      ∧ nextOf (exec (.cursorGoto 0#8 0#8) (onGood .ready 0x00#7)) ≠ none := ⟨rfl, home_next, by decide⟩

theorem witness_ClearHomeAndColourOnTheDevice :
    (onGood .ready 0x67#7).fsm = .ready ∧ (onGood .ready 0x67#7).link = .device .good
      ∧ (onGood .ready 0x67#7).cfg.cmd.clear = 0x01#8
      ∧ (onGood .ready 0x67#7).cfg.cmd.home.extractLsb' 1 7 = 0b0000001#7 := by decide

/-- CURSOR_MOVE, CURSOR_GOTO, DISPLAY_SHIFT, INIT on the good device. -/
theorem witness_standard_device :
    (onGood .ready 0x67#7).fsm = .ready ∧ (onGood .ready 0x67#7).link = .device .good
      ∧ (onGood .ready 0x67#7).cfg = Config.standard
      ∧ 0x00#7 = (if 0 < (1 : Int) then incAddr^[(1 : Int).natAbs] (onGood .ready 0x67#7).dev.ac
        else decAddr^[(1 : Int).natAbs] (onGood .ready 0x67#7).dev.ac)
      ∧ (onGood .ready 0x67#7).so = (onGood .ready 0x67#7).dev.shift ∧ (onGood .ready 0x67#7).so.toNat < 40
      ∧ State.reset.fsm ≠ .ready ∧ State.reset.link = .device .good ∧ State.reset.cfg = Config.standard := by decide

theorem witness_InitOnABadDeviceLeavesThePattern :
    ({ State.reset with link := .device (.bad [79]) } : State).fsm ≠ .ready
      ∧ ({ State.reset with link := .device (.bad [79]) } : State).link = .device (.bad [79])
      ∧ 79 < 80 ∧ State.reset.dev.rdCount + 79 ∈ [79] := by decide

end Sys2Proof.Tests
end

/-! ### The request decoder reads back what the encoder wrote (R71 to R74, R77, R79) -/

namespace Sys2Proof

/-- A bounded string's length field reads back as its length (R73). -/
theorem halfOf_lowByte_highByte (n : BitVec 16) : halfOf (lowByte n) (highByte n) = n := by
  rw [halfOf, lowByte, highByte, BitVec.extractLsb'_append_extractLsb'_eq_extractLsb' (start₁ := 0) (start₂ := 8) rfl]
  exact BitVec.extractLsb'_eq_self

/-- A format S body reads back (R71, R74). -/
theorem decodeS_encodeS (mk : List Byte → Instr) {str : List Byte} (rest : List Byte) (h : stringOk str = true) :
    decodeS mk (encodeS str ++ rest) = .ok (mk str, rest) := by
  obtain ⟨hlen, hz⟩ : str.length ≤ 65535 ∧ str.all (fun b => b != 0#8) = true := by
    simpa only [stringOk, Bool.and_eq_true, decide_eq_true_iff] using h
  have hL : (halfOf (lowByte (BitVec.ofNat 16 str.length)) (highByte (BitVec.ofNat 16 str.length))).toNat = str.length := by
    rw [halfOf_lowByte_highByte, BitVec.toNat_ofNat]
    omega
  have hlong : ¬ (str ++ rest).length < str.length := by simp
  simp only [encodeS, List.cons_append, decodeS, hL, if_neg hlong, List.take_left', List.drop_left', hz, if_true]

/-- The codes of a record in its list's order: each differs from the ones before it, which the decoders test first. -/
theorem pairwise_ne_of_nodup {α : Type} {l : List α} (h : l.Nodup) : l.Pairwise (fun a b => b ≠ a) :=
  List.Pairwise.imp Ne.symm h

/-- A colour's code names that colour (R77). -/
theorem colourOfCode_codeOfColour {cc : ColourCodes} (h : cc.toList.Nodup) (name : ColourName) :
    colourOfCode cc (codeOfColour cc name) = some name := by
  have hne := pairwise_ne_of_nodup h
  simp only [ColourCodes.toList, List.pairwise_cons, List.forall_mem_cons] at hne
  cases name <;> simp [colourOfCode, codeOfColour, hne]

/-- A format C body reads back (R71). -/
theorem decodeC_encodeC {cfg : Config} (mk : ColourName → Instr) (name : ColourName) (rest : List Byte)
    (h : cfg.colours.toList.Nodup) :
    decodeC cfg mk ((0#5 ++ codeOfColour cfg.colours name) :: rest) = .ok (mk name, rest) := by
  have hbits (c : BitVec 3) : (0#5 ++ c).extractLsb' 3 5 = 0#5 ∧ (0#5 ++ c).extractLsb' 0 3 = c := by
    revert c
    decide
  simp only [decodeC, (hbits _).1, (hbits _).2, if_true, colourOfCode_codeOfColour h]

/-- A record that tells its codes apart. -/
theorem Config.wf_iff (cfg : Config) :
    cfg.wf = true ↔ cfg.opcodes.toList.Nodup ∧ cfg.colours.toList.Nodup ∧ cfg.diags.toList.Nodup := by
  simp only [Config.wf, Bool.and_eq_true, decide_eq_true_iff, and_assoc]

/-- Settles O7: each opcode is no opcode the decoder tests before it, and each format's body reads back. -/
theorem requestDecodesToItself : Obligations.RequestDecodesToItself := by
  unfold Obligations.RequestDecodesToItself
  intro cfg i rest hcfg hi hw
  obtain ⟨hops, hcols, -⟩ := (Config.wf_iff cfg).1 hcfg
  have hne := pairwise_ne_of_nodup hops
  simp only [Opcodes.toList, List.pairwise_cons, List.forall_mem_cons] at hne
  cases i with
  | init => simp [encode, decode]
  | clear => simp [encode, decode, hne]
  | home => simp [encode, decode, hne]
  | emit b => simp [encode, decode, hne, decodeB]
  | emitLineClear => simp [encode, decode, hne]
  | emitFormatted str => simp [encode, decode, hne, decodeS_encodeS _ rest (str := str) hw]
  | emitWrapped str => simp [encode, decode, hne, decodeS_encodeS _ rest (str := str) hw]
  | cursorMove n => simp [encode, decode, hne, decodeW_encodeW _ rest (n := n) hw]
  | cursorGoto row col => simp [encode, decode, hne, decodeRC]
  | displayShift n => simp [encode, decode, hne, decodeW_encodeW _ rest (n := n) hw]
  | setColour name =>
    simp only [encode, decode, hne, List.cons_append, List.nil_append, if_false, if_true]
    exact decodeC_encodeC _ name rest hcols
  | _ => cases hi -- a device command is no request

end Sys2Proof

/-! ### What a step can do -/

namespace Sys2Proof.Machine

/-- The ways in which a step answers a next state: the reset event (R185); else, with no call outstanding, a byte at the
device's command register, or a request, or waiting (log 9, log 13). -/
inductive StepNext (s : State) : State → Prop where
  | reset (hr : s.resetReq = true) : StepNext s (resetEvent s)
  | noClass {b : Byte} (hr : s.resetReq = false) (hb : s.busy = false) (hc : s.command = some b)
      (hd : decodeCommand b = .error .noClass) : StepNext s { s with command := none }
  | command {b : Byte} {c : Command} {t : State} (hr : s.resetReq = false) (hb : s.busy = false) (hc : s.command = some b)
      (hd : decodeCommand b = .ok c) (ht : exec c.toInstr { s with command := none } = .next t) : StepNext s t
  | wait (hs : s.Open) (hp : s.port = []) : StepNext s s
  | request {i : Instr} {after : List Byte} {t : State} (hs : s.Open) (hd : decode s.cfg s.port = .ok (i, after))
      (ht : exec i { s with port := after } = .next t) : StepNext s t

/-- A next state comes about in one of these ways. -/
theorem step_next {s t : State} (h : step s = .next t) : StepNext s t := by
  unfold step fetch at h
  by_cases hr : s.resetReq = true
  · rw [if_pos hr] at h
    cases h
    exact .reset hr
  rw [if_neg hr] at h
  rw [Bool.not_eq_true] at hr
  by_cases hb : s.busy = true
  · rw [if_pos hb] at h
    cases h
  rw [if_neg hb] at h
  rw [Bool.not_eq_true] at hb
  cases hc : s.command with
  | some b =>
    rw [hc] at h
    cases hd : decodeCommand b with
    | ok c =>
      simp only [fetchCommand, hd] at h
      exact .command hr hb hc hd h
    | error e =>
      cases e with
      | noClass =>
        simp only [fetchCommand, hd] at h
        cases h
        exact .noClass hr hb hc hd
      | cgram =>
        simp only [fetchCommand, hd] at h
        cases h
  | none =>
    rw [hc] at h
    cases hp : s.port with
    | nil =>
      simp only [fetchRequest, hp] at h
      cases h
      exact .wait ⟨hr, hb, hc⟩ hp
    | cons b rest =>
      cases hd : decode s.cfg (b :: rest) with
      | ok r =>
        simp only [fetchRequest, hp, hd] at h
        exact .request ⟨hr, hb, hc⟩ (hp ▸ hd) h
      | error e =>
        simp only [fetchRequest, hp, hd] at h
        cases h

/-! ### The invariant, part by part -/

/-- The invariant says nothing of the ports, and of the device only what is the device's own. -/
theorem State.Inv.with_device_and_ports {s : State} (h : s.Inv) {d : Device} (hd : d.Inv) (p : List Byte)
    (c : Option Byte) : ({ s with port := p, command := c, dev := d } : State).Inv where
  scroll := h.scroll
  ranges := h.ranges
  result := h.result
  device := hd
  resting hb := ⟨(h.resting hb).fsm, (h.resting hb).pos, (h.resting hb).tr⟩
  running := h.running

/-- The reset event meets the invariant, whatever the block did before (R185). -/
theorem State.Inv.resetEvent {s : State} (h : s.Inv) : (resetEvent s).Inv where
  scroll := by simp
  ranges := Transient.idle_inRange _
  result := by simpa using fitsIn_narrow s.cfg.resw 0
  device := h.device
  resting _ := ⟨Or.inl rfl, rfl, rfl⟩
  running hb := absurd hb (by simp)

/-- A response in a resting mode meets the invariant, whatever the transient registers held. -/
theorem respond_inv {m : State} (v : Int) (d : Diag) (hso : m.so.toNat < 40) (hdev : m.dev.Inv)
    (hfsm : m.fsm = .uninitialized ∨ m.fsm = .ready) : (respond v d m).Inv where
  scroll := hso
  ranges := Transient.idle_inRange _
  result := fitsIn_narrow _ _
  device := hdev
  resting _ := ⟨hfsm, rfl, rfl⟩
  running hb := absurd hb (by simp)

/-! #### The parts of an operation -/

theorem PartFrame.so_lt {C : Call → Prop} {n : Nat} {z : Bool} {s t : State} (h : PartFrame C n z s t)
    (hs : s.so.toNat < 40) : t.so.toNat < 40 := by
  rcases h.scroll with hso | ⟨-, hso⟩
  · rwa [hso]
  · rw [hso]
    decide

theorem PartFrame.dev_inv {C : Call → Prop} {n : Nat} {z : Bool} {s t : State} (h : PartFrame C n z s t)
    (hs : s.dev.Inv) : t.dev.Inv :=
  h.device Device.Inv (fun _ _ _ _ _ hd hr => Device.answer_inv hd hr) hs

theorem PartFrame.fsm {C : Call → Prop} {n : Nat} {z : Bool} {s t : State} (h : PartFrame C n z s t) : t.fsm = s.fsm := by
  obtain ⟨_, -, -, ht⟩ := h.frame
  rw [ht]

theorem PartFrame.busy {C : Call → Prop} {n : Nat} {z : Bool} {s t : State} (h : PartFrame C n z s t) :
    t.busy = s.busy := by
  obtain ⟨_, -, -, ht⟩ := h.frame
  rw [ht]

theorem PartFrame.result {C : Call → Prop} {n : Nat} {z : Bool} {s t : State} (h : PartFrame C n z s t) :
    t.result = s.result := by
  obtain ⟨_, -, -, ht⟩ := h.frame
  rw [ht]

/-- The calls move the position's index only, so a running operation goes on running. -/
theorem PartFrame.running {C : Call → Prop} {n : Nat} {z : Bool} {s t : State} (h : PartFrame C n z s t)
    (hs : s.Running) : t.Running := by
  obtain ⟨new, -, -, ht⟩ := h.frame
  obtain ⟨p, hp, hop⟩ := hs
  rw [← h.fsm] at hop
  exact ⟨{ p with ix := p.ix + new.length }, by rw [ht, hp]; rfl, hop⟩

/-! #### The state of an operation's first call -/

@[simp] theorem startState_so (i : Instr) (s : State) : (startState i s).so = s.so := by
  cases i <;> rfl

@[simp] theorem startState_dev (i : Instr) (s : State) : (startState i s).dev = s.dev := by
  cases i <;> rfl

@[simp] theorem startState_result (i : Instr) (s : State) : (startState i s).result = s.result := by
  cases i <;> rfl

@[simp] theorem startState_busy (i : Instr) (s : State) : (startState i s).busy = true := by
  cases i <;> rfl

@[simp] theorem startState_pos (i : Instr) (s : State) : (startState i s).pos = some { op := i, ix := 0 } := by
  cases i <;> rfl

theorem startState_fsm {i : Instr} (s : State) (h : i ≠ .init) : (startState i s).fsm = s.fsm := by
  cases i with
  | init => exact absurd rfl h
  | _ => rfl

theorem startState_running {i : Instr} {s : State} (hi : i.isRequest = true) (hf : i ≠ .init → s.fsm = .ready) :
    (startState i s).Running :=
  ⟨_, startState_pos i s, hi, by rintro rfl; rfl, fun h => (startState_fsm s h).trans (hf h)⟩

/-! #### Requests and device commands -/

/-- A response leaves ScrollOffset below 40 (R131, R133, R135). -/
theorem Responds.so_lt {i : Instr} {m t : State} (h : Responds i m t) (hm : m.so.toNat < 40) : t.so.toNat < 40 := by
  rcases h.scroll with ⟨_, -, hso⟩ | ⟨-, hso⟩ | hso
  · exact hso
  · rw [hso]
    decide
  · rwa [hso]

/-- A response leaves a resting mode: INIT's own, and Ready after any other request, which leaves `fsm` alone (R147). -/
theorem Responds.fsm_resting {i : Instr} {m t : State} (h : Responds i m t) (hm : i ≠ .init → m.fsm = .ready) :
    t.fsm = .uninitialized ∨ t.fsm = .ready := by
  have hf := h.fsm
  split at hf
  · exact hf.symm
  · exact Or.inr (hf.trans (hm ‹_›))

/-- An operation that responds ends in the invariant, and one that hangs, with its transient registers in their ranges, is
stuck in it. -/
theorem OperationEnd.inv {i : Instr} {s t : State} (h : OperationEnd i s t) (hi : i.isRequest = true)
    (hf : i ≠ .init → s.fsm = .ready) (hs : s.Inv) (ht : Within s.cfg t) : t.Inv := by
  rcases h with ⟨m, hm, hr⟩ | hm
  · obtain ⟨v, d, -, he⟩ := hr.response
    have hso : m.so.toNat < 40 := hm.so_lt (by simpa using hs.scroll)
    have hfsm : i ≠ .init → m.fsm = .ready := fun h => hm.fsm.trans ((startState_fsm s h).trans (hf h))
    rw [he]
    exact respond_inv v d (hr.so_lt hso) (hm.dev_inv (by simpa using hs.device)) (hr.fsm_resting hfsm)
  · have hbusy : t.busy = true := hm.busy.trans (startState_busy i s)
    exact {
      scroll := hm.so_lt (by simpa using hs.scroll)
      ranges := by rw [ht.same]; exact ht.tr
      result := by rw [ht.same, hm.result, startState_result]; exact hs.result
      device := hm.dev_inv (by simpa using hs.device)
      resting := fun hb => absurd hbusy (by simp [hb])
      running := fun _ => hm.running (startState_running hi hf) }

/-- A well-formed request keeps the invariant, whether it responds or hangs. -/
theorem request_keeps_inv {i : Instr} {s t : State} (hi : i.isRequest = true) (hw : i.wf s.cfg = true) (hs : s.Inv)
    (h : exec i s = .next t) : t.Inv := by
  have ht : Within s.cfg t := request_ranged hi hw hs.ranges hs.scroll h
  rcases request_next hi h with ⟨-, hready, rfl⟩ | ⟨hf, hend⟩
  · exact respond_inv 0 .none hs.scroll hs.device (Or.inr hready)
  · exact hend.inv hi (fun hne => by rwa [if_neg hne] at hf) hs ht

/-- A device command keeps the invariant: it changes the device only. -/
theorem command_keeps_inv {i : Instr} {s t : State} (hi : i.isRequest = false) (hs : s.Inv) (h : exec i s = .next t) :
    t.Inv := by
  obtain ⟨ht, hdev⟩ := command_next hi h
  have hd : t.dev.Inv := by
    rcases hdev with ⟨_, _, hr⟩ | ⟨_, _, hr⟩
    · exact Device.run_inv hs.device hr
    · exact Device.control_inv hs.device hr
  rw [ht]
  exact hs.with_device_and_ports hd s.port s.command

/-- Settles O24, by the ways in which a step answers a next state. -/
theorem everyStepKeepsTheInvariant : Obligations.EveryStepKeepsTheInvariant := by
  unfold Obligations.EveryStepKeepsTheInvariant
  intro s t hs h
  cases step_next h with
  | reset hr => exact hs.resetEvent
  | noClass hr hb hc hd => exact hs.with_device_and_ports hs.device s.port none
  | command hr hb hc hd ht =>
    exact command_keeps_inv (Command.toInstr_command s.cfg _).1 (hs.with_device_and_ports hs.device s.port none) ht
  | wait ho hp => exact hs
  | @request _ after _ ho hd ht =>
    obtain ⟨hi, hw⟩ := decode_request hd
    exact request_keeps_inv (s := { s with port := after }) hi hw (hs.with_device_and_ports hs.device after s.command) ht

end Sys2Proof.Machine

/-! ### The writers of the block's registers, and how a request ends -/

namespace Sys2Proof.Machine

/-! #### What the state of the first call and the calls leave -/

@[simp] theorem startState_cfg (i : Instr) (s : State) : (startState i s).cfg = s.cfg := by
  cases i <;> rfl

@[simp] theorem startState_port (i : Instr) (s : State) : (startState i s).port = s.port := by
  cases i <;> rfl

@[simp] theorem startState_command (i : Instr) (s : State) : (startState i s).command = s.command := by
  cases i <;> rfl

@[simp] theorem startState_resetReq (i : Instr) (s : State) : (startState i s).resetReq = s.resetReq := by
  cases i <;> rfl

@[simp] theorem startState_diag (i : Instr) (s : State) : (startState i s).diag = s.diag := by
  cases i <;> rfl

@[simp] theorem startState_calls (i : Instr) (s : State) : (startState i s).calls = s.calls := by
  cases i <;> rfl

/-- SET_COLOUR alone selects a colour before its calls (R156). -/
theorem startState_chan {i : Instr} (s : State) (h : ∀ name, i ≠ .setColour name) :
    (startState i s).chan = s.chan ∧ (startState i s).chanSet = s.chanSet := by
  cases i with
  | setColour name => exact absurd rfl (h name)
  | _ => exact ⟨rfl, rfl⟩

theorem PartFrame.diag {C : Call → Prop} {n : Nat} {z : Bool} {s t : State} (h : PartFrame C n z s t) :
    t.diag = s.diag := by
  obtain ⟨_, -, -, ht⟩ := h.frame
  rw [ht]

/-- The position's index counts the calls that go out (R20, log 23). -/
theorem PartFrame.calls_pos {C : Call → Prop} {n : Nat} {z : Bool} {s t : State} (h : PartFrame C n z s t) :
    ∃ new, t.calls = s.calls ++ new ∧ t.pos = s.pos.map (fun p => { p with ix := p.ix + new.length }) := by
  obtain ⟨new, -, -, ht⟩ := h.frame
  exact ⟨new, by rw [ht], by rw [ht]⟩

theorem clearsScroll_iff (i : Instr) :
    clearsScroll i = true ↔ i = .init ∨ i = .clear ∨ ∃ str, i = .emitWrapped str := by
  cases i <;> simp [clearsScroll]

/-! #### What an operation can write -/

/-- `t` is `s` but for what some request writes from its first call on: not the configuration, the colour, the host's side. -/
def OnlyRequestWrites (s t : State) : Prop :=
  t = { s with
        fsm := t.fsm, so := t.so, result := t.result, diag := t.diag, busy := t.busy, pos := t.pos, tr := t.tr,
        link := t.link, replies := t.replies, dev := t.dev, calls := t.calls }

theorem PartFrame.onlyRequestWrites {C : Call → Prop} {n : Nat} {z : Bool} {s t : State} (h : PartFrame C n z s t) :
    OnlyRequestWrites s t := by
  obtain ⟨_, -, -, ht⟩ := h.frame
  rw [ht]
  rfl

theorem Responds.onlyRequestWrites {i : Instr} {m t : State} (h : Responds i m t) : OnlyRequestWrites m t := by
  obtain ⟨_, _, -, ht⟩ := h.response
  rw [ht]
  rfl

theorem OnlyRequestWrites.trans {s m t : State} (h : OnlyRequestWrites s m) (k : OnlyRequestWrites m t) :
    OnlyRequestWrites s t := by
  unfold OnlyRequestWrites at h k
  rw [k, h]
  rfl

theorem OnlyRequestWrites.colour {s t : State} (h : OnlyRequestWrites s t) : t.chan = s.chan ∧ t.chanSet = s.chanSet := by
  rw [h]
  exact ⟨rfl, rfl⟩

theorem OnlyRequestWrites.cfg_and_inputs {s t : State} (h : OnlyRequestWrites s t) :
    t.cfg = s.cfg ∧ t.port = s.port ∧ t.command = s.command ∧ t.resetReq = s.resetReq := by
  rw [h]
  exact ⟨rfl, rfl, rfl, rfl⟩

theorem OperationEnd.onlyRequestWrites {i : Instr} {s t : State} (h : OperationEnd i s t) :
    OnlyRequestWrites (startState i s) t := by
  rcases h with ⟨_, hm, hr⟩ | hm
  · exact hm.onlyRequestWrites.trans hr.onlyRequestWrites
  · exact hm.onlyRequestWrites

/-- From its first call on no request writes the colour, the configuration, the ports or the reset input. -/
theorem request_onlyRequestWrites {i : Instr} {s t : State} (hi : i.isRequest = true) (h : exec i s = .next t) :
    OnlyRequestWrites (startState i s) t := by
  rcases request_next hi h with ⟨rfl, -, rfl⟩ | ⟨-, hend⟩
  · rfl
  · exact hend.onlyRequestWrites

theorem OperationEnd.fsm {i : Instr} {s t : State} (h : OperationEnd i s t) (hi : i ≠ .init) : t.fsm = s.fsm := by
  rcases h with ⟨m, hm, hr⟩ | hm
  · have hf := hr.fsm
    rw [if_neg hi] at hf
    exact hf.trans (hm.fsm.trans (startState_fsm s hi))
  · exact hm.fsm.trans (startState_fsm s hi)

theorem PartFrame.so_eq {C : Call → Prop} {n : Nat} {s t : State} (h : PartFrame C n false s t) : t.so = s.so := by
  rcases h.scroll with hso | ⟨hz, -⟩
  · exact hso
  · cases hz

/-- `so` is written by CLEAR_SEQ, by HOME and by DISPLAY_SHIFT (R14). -/
theorem OperationEnd.so {i : Instr} {s t : State} (h : OperationEnd i s t) (hc : clearsScroll i = false)
    (hh : i ≠ .home) (hd : ∀ n, i ≠ .displayShift n) : t.so = s.so := by
  unfold OperationEnd at h
  rw [hc] at h
  rcases h with ⟨m, hm, hr⟩ | hm
  · have hso : m.so = s.so := hm.so_eq.trans (startState_so i s)
    rcases hr.scroll with ⟨n, hi, -⟩ | ⟨hi, -⟩ | hk
    · exact absurd hi (hd n)
    · exact absurd hi hh
    · exact hk.trans hso
  · exact hm.so_eq.trans (startState_so i s)

/-- A request other than INIT has only one way to answer a next state: it runs. -/
theorem request_operationEnd {i : Instr} {s t : State} (hi : i.isRequest = true) (hne : i ≠ .init)
    (h : exec i s = .next t) : OperationEnd i s t := by
  rcases request_next hi h with ⟨hinit, -, -⟩ | ⟨-, hend⟩
  · exact absurd hinit hne
  · exact hend

/-- Settles O16: a device command writes the device; a request writes what its frame leaves open. -/
theorem eachRegisterHasItsWriters : Obligations.EachRegisterHasItsWriters := by
  unfold Obligations.EachRegisterHasItsWriters
  intro i s t h
  cases hi : i.isRequest with
  | false =>
    obtain ⟨ht, -⟩ := command_next hi h
    rw [ht]
    simp
  | true =>
    have hw : OnlyRequestWrites (startState i s) t := request_onlyRequestWrites hi h
    obtain ⟨hchan, hchanSet⟩ := hw.colour
    obtain ⟨hcfg, hport, hcommand, hreset⟩ := hw.cfg_and_inputs
    refine ⟨fun hne => (request_operationEnd hi hne h).fsm hne, fun hset => ?_, fun hne hcl hho hwr hsh => ?_,
      hcfg.trans (startState_cfg i s), hport.trans (startState_port i s), hcommand.trans (startState_command i s),
      hreset.trans (startState_resetReq i s), by simp⟩
    · obtain ⟨hsc, hsset⟩ := startState_chan s hset
      exact ⟨hchan.trans hsc, hchanSet.trans hsset⟩
    · have hc : clearsScroll i = false :=
        Bool.eq_false_iff.2 fun hc => by simpa [hne, hcl, hwr] using (clearsScroll_iff i).1 hc
      exact (request_operationEnd hi hne h).so hc hho hsh

/-! #### How a request ends -/

/-- A response leaves the trace of the calls before it, and a block at rest (R19 to R21, R170). -/
theorem Responds.at_rest {i : Instr} {m t : State} (h : Responds i m t) :
    t.calls = m.calls ∧ t.busy = false ∧ t.pos = none ∧ t.tr = Transient.idle := by
  obtain ⟨_, _, -, ht⟩ := h.response
  rw [ht]
  exact ⟨rfl, rfl, rfl, rfl⟩

/-- Settles O18: the response is delivered after the calls, and a hang leaves the frame of the calls made. -/
theorem requestRespondsOrHangs : Obligations.RequestRespondsOrHangs := by
  unfold Obligations.RequestRespondsOrHangs
  intro i s t hi h
  rcases request_next hi h with ⟨-, -, rfl⟩ | ⟨-, ⟨m, hm, hr⟩ | hm⟩
  · exact ⟨[], by simp, Or.inl ⟨rfl, rfl, rfl⟩⟩
  · obtain ⟨new, hcalls, -⟩ := hm.calls_pos
    obtain ⟨hkept, hrest⟩ := hr.at_rest
    exact ⟨new, by rw [hkept, hcalls, startState_calls], Or.inl hrest⟩
  · obtain ⟨new, hcalls, hpos⟩ := hm.calls_pos
    refine ⟨new, by rw [hcalls, startState_calls], Or.inr ⟨?_, ?_, ?_, ?_⟩⟩
    · rw [hm.busy, startState_busy]
    · rw [hm.result, startState_result]
    · rw [hm.diag, startState_diag]
    · simp [hpos]

/-! #### A block that takes no step, and the reset state -/

/-- A block with a call outstanding has no step but the reset event (R44). -/
theorem step_stuck {s : State} (hr : s.resetReq = false) (hb : s.busy = true) : step s = .fault .stuck := by
  simp [step, fetch, hr, hb]

/-- An open block with no bytes at its request port waits (R185). -/
theorem step_wait {s : State} (ho : s.Open) (hp : s.port = []) : step s = .next s := by
  simp [step, fetch, fetchRequest, ho.noReset, ho.notBusy, ho.noCommand, hp]

/-- Settles O5. -/
theorem stuckBlockTakesNoStepAndIdleBlockWaits : Obligations.StuckBlockTakesNoStepAndIdleBlockWaits := by
  unfold Obligations.StuckBlockTakesNoStepAndIdleBlockWaits
  exact ⟨fun _ => step_stuck, fun _ => step_wait⟩

/-- The reference device before anything reached it: AC a cell, nothing listed in DDRAM (R55). -/
theorem Device.reset_inv : Device.reset.Inv where
  ac := by decide
  wf := Memory.wf_nil
  cells := by simp [Device.reset]
  shift := by decide

/-- Settles O23: a block at rest in Uninitialized, with idle transient registers. -/
theorem resetMeetsTheInvariant : Obligations.ResetMeetsTheInvariant := by
  unfold Obligations.ResetMeetsTheInvariant
  exact {
    scroll := by decide
    ranges := Transient.idle_inRange _
    result := by decide
    device := Device.reset_inv
    resting := fun _ => ⟨Or.inl rfl, rfl, rfl⟩
    running := fun hb => absurd hb (by decide) }

end Sys2Proof.Machine

/-! ### The device's commands, by the bits of their bytes (R57 to R61, R80) -/

namespace Sys2Proof.Machine

/-! #### The classes of R80 -/

theorem decodeCommand_home {b : Byte} (h : b.extractLsb' 1 7 = 0b0000001#7) : decodeCommand b = .ok .home := by
  revert b
  decide

theorem decodeCommand_entryMode {b : Byte} (h : b.extractLsb' 2 6 = 0b000001#6) :
    decodeCommand b = .ok (.entryMode (b.getLsbD 1) (b.getLsbD 0)) := by
  revert b
  decide

theorem decodeCommand_displayCtrl {b : Byte} (h : b.extractLsb' 3 5 = 0b00001#5) :
    decodeCommand b = .ok (.displayCtrl (b.getLsbD 2) (b.getLsbD 1) (b.getLsbD 0)) := by
  revert b
  decide

theorem decodeCommand_functionSet {b : Byte} (h : b.extractLsb' 5 3 = 0b001#3) :
    decodeCommand b = .ok (.functionSet (b.getLsbD 4) (b.getLsbD 3) (b.getLsbD 2)) := by
  revert b
  decide

theorem decodeCommand_cursorShift {b : Byte} (h : b.extractLsb' 4 4 = 0b0001#4) (h3 : b.getLsbD 3 = false) :
    decodeCommand b = .ok (.cursorShift (b.getLsbD 2)) := by
  revert b
  decide

theorem decodeCommand_displayShift {b : Byte} (h : b.extractLsb' 4 4 = 0b0001#4) (h3 : b.getLsbD 3 = true) :
    decodeCommand b = .ok (.displayShift (b.getLsbD 2)) := by
  revert b
  decide

theorem decodeCommand_setDdram {b : Byte} (h : b.getLsbD 7 = true) :
    decodeCommand b = .ok (.setDdram (b.extractLsb' 0 7)) := if_pos h

theorem decodeCommand_cgram {b : Byte} (h : b.extractLsb' 6 2 = 0b01#2) : decodeCommand b = .error .cgram := by
  revert b
  decide

/-! #### What the device makes of a byte -/

/-- A byte of a class is that class's command. -/
theorem Device.control_of_decode {b : Byte} {c : Command} (d : Device) (h : decodeCommand b = .ok c) :
    d.control b = d.run c := by
  rw [Device.control, h]

/-- A set-CGRAM byte is refused (R61). -/
theorem Device.control_cgram {b : Byte} (d : Device) (h : b.extractLsb' 6 2 = 0b01#2) :
    d.control b = .refused .deviceCgram := by
  rw [Device.control, decodeCommand_cgram h]

/-- A display shift moves the shift by one modulo 40 (R60), also where it is 40 or more. -/
theorem moveShift_eq_scrollReduce (right : Bool) (x : BitVec 6) :
    moveShift right x = scrollReduce ((x.toNat : Int) + (if right then 1 else -1)) := by
  cases right
  · exact congrArg (BitVec.ofNat 6) (by simp [Config.scrollMod]; omega)
  · exact congrArg (BitVec.ofNat 6) (by simp [Config.scrollMod]; omega)

theorem moveShift_eq (right : Bool) (x : BitVec 6) :
    moveShift right x = BitVec.ofInt 6 (((x.toNat : Int) + (if right then 1 else -1)) % 40) := by
  rw [moveShift_eq_scrollReduce, scrollReduce_eq]

/-- The device's set-address command takes the address of a cell, and no other (R61). -/
theorem Device.run_setDdram (d : Device) (a : Addr) :
    d.run (.setDdram a) = if validAddr a = true then .ok Reply.zero { d with ac := a } else .refused .deviceAddress := rfl

/-- Three flags as a field, the first the highest bit. -/
theorem flags_getLsbD (x y z : Bool) :
    (BitVec.ofBool x ++ BitVec.ofBool y ++ BitVec.ofBool z).getLsbD 2 = x
      ∧ (BitVec.ofBool x ++ BitVec.ofBool y ++ BitVec.ofBool z).getLsbD 1 = y
      ∧ (BitVec.ofBool x ++ BitVec.ofBool y ++ BitVec.ofBool z).getLsbD 0 = z := by
  revert x y z
  decide

/-- The three flags of display control are the low bits of the byte (R80). -/
theorem flags_low (b : Byte) :
    BitVec.ofBool (b.getLsbD 2) ++ BitVec.ofBool (b.getLsbD 1) ++ BitVec.ofBool (b.getLsbD 0) = b.extractLsb' 0 3 := by
  revert b
  decide

/-- The three flags of function set are the bits 4:2 of the byte (R80). -/
theorem flags_middle (b : Byte) :
    BitVec.ofBool (b.getLsbD 4) ++ BitVec.ofBool (b.getLsbD 3) ++ BitVec.ofBool (b.getLsbD 2) = b.extractLsb' 2 3 := by
  revert b
  decide

/-- Settles O48: each byte by its class. -/
theorem clearHomeAndShiftBytesOnTheDevice : Obligations.ClearHomeAndShiftBytesOnTheDevice := by
  unfold Obligations.ClearHomeAndShiftBytesOnTheDevice
  intro d b
  refine ⟨?_, fun h => ?_, fun h h3 => ?_, fun h h3 => ?_⟩
  · rintro rfl
    exact ⟨_, rfl, fun _ => rfl, rfl⟩
  · exact d.control_of_decode (decodeCommand_home h)
  · exact d.control_of_decode (decodeCommand_cursorShift h h3)
  · rw [d.control_of_decode (decodeCommand_displayShift h h3), Device.run, moveShift_eq]

/-! #### The commands as instructions of the device -/

/-- The instruction of a class is that class's command. -/
theorem exec_toInstr (c : Command) (s : State) : exec c.toInstr s = deviceOutcome (s.dev.run c) s := by
  cases c with
  | cursorShift right => cases right <;> rfl
  | displayShift right => cases right <;> rfl
  | _ => rfl

/-- Settles O4: the step fetches the byte's class before any request. -/
theorem stepRunsTheDeviceCommand : Obligations.StepRunsTheDeviceCommand := by
  unfold Obligations.StepRunsTheDeviceCommand
  intro s b c hr hb hc hd
  simp [step, fetch, fetchCommand, hr, hb, hc, hd]

/-- A step with a byte at the device's command register empties the register and does what the device makes of the byte. -/
theorem step_command {s : State} {b : Byte} (hr : s.resetReq = false) (hb : s.busy = false) (hc : s.command = some b) :
    step s = deviceOutcome (s.dev.control b) { s with command := none } := by
  cases hd : decodeCommand b with
  | ok c => rw [stepRunsTheDeviceCommand s b c hr hb hc hd, exec_toInstr, s.dev.control_of_decode hd]
  | error e => cases e <;> simp [step, fetch, fetchCommand, hr, hb, hc, hd, Device.control, deviceOutcome]

/-- Settles O46: the step is what the device makes of the byte, and that goes by the byte's class. -/
theorem commandByteActsByItsBits : Obligations.CommandByteActsByItsBits := by
  unfold Obligations.CommandByteActsByItsBits
  rintro s t b hr hb hc rfl
  rw [step_command hr hb hc]
  refine ⟨fun h => ?_, fun h => ?_, fun h => ?_, fun h => ?_, fun h h3 => ?_, fun h h3 => ?_, fun h ha => ?_,
    fun h ha => ?_, fun h => ?_, ?_, ?_⟩
  · rw [s.dev.control_of_decode (decodeCommand_home h)]
    rfl
  · rw [s.dev.control_of_decode (decodeCommand_entryMode h)]
    rfl
  · rw [s.dev.control_of_decode (decodeCommand_displayCtrl h), ← flags_low]
    rfl
  · rw [s.dev.control_of_decode (decodeCommand_functionSet h), ← flags_middle]
    rfl
  · rw [s.dev.control_of_decode (decodeCommand_cursorShift h h3)]
    rfl
  · rw [s.dev.control_of_decode (decodeCommand_displayShift h h3), ← moveShift_eq]
    rfl
  · rw [s.dev.control_of_decode (decodeCommand_setDdram h), Device.run_setDdram, if_pos ha]
    rfl
  · rw [s.dev.control_of_decode (decodeCommand_setDdram h), Device.run_setDdram, if_neg (by simp [ha])]
    rfl
  · rw [s.dev.control_cgram h]
    rfl
  · rintro rfl
    rfl
  · rintro rfl
    exact ⟨_, rfl, rfl, fun _ => rfl⟩

/-- Settles O41. -/
theorem deviceClearAndHome : Obligations.DeviceClearAndHome := by
  unfold Obligations.DeviceClearAndHome
  exact fun s => ⟨⟨_, exec_toInstr .clear s, rfl, fun _ => rfl⟩, exec_toInstr .home s⟩

/-- Settles O42: the flags of display control and of function set are the bits of one field each. -/
theorem deviceModeCommandsWriteTheirFields : Obligations.DeviceModeCommandsWriteTheirFields := by
  unfold Obligations.DeviceModeCommandsWriteTheirFields
  intro s x y z
  exact ⟨exec_toInstr (.entryMode x y) s, ⟨_, exec_toInstr (.displayCtrl x y z) s, rfl, flags_getLsbD x y z⟩,
    ⟨_, exec_toInstr (.functionSet x y z) s, rfl, flags_getLsbD x y z⟩⟩

/-- Settles O43. -/
theorem deviceShiftCommandsMoveOneStep : Obligations.DeviceShiftCommandsMoveOneStep := by
  unfold Obligations.DeviceShiftCommandsMoveOneStep
  intro s
  have hshift (right : Bool) := exec_toInstr (.displayShift right) s
  simp only [Device.run, moveShift_eq] at hshift
  exact ⟨exec_toInstr (.cursorShift true) s, exec_toInstr (.cursorShift false) s, hshift true, hshift false⟩

/-- Settles O44. -/
theorem deviceSetAddressTakesCellsOnly : Obligations.DeviceSetAddressTakesCellsOnly := by
  unfold Obligations.DeviceSetAddressTakesCellsOnly
  intro s a
  rw [show Instr.cmdSetDdram a = (Command.setDdram a).toInstr from rfl, exec_toInstr, Device.run_setDdram]
  exact ⟨fun h => by rw [if_pos h]; rfl, fun h => by rw [if_neg (by simp [h])]; rfl⟩

/-- CMD_BOOTSTRAP is what the device makes of the parameter byte (R81). -/
theorem exec_cmdBootstrap (s : State) : exec .cmdBootstrap s = deviceOutcome (s.dev.control s.cfg.cmd.bootstrap) s := rfl

/-- Settles O45. -/
theorem deviceReadsTheBootstrapByteByItsClass : Obligations.DeviceReadsTheBootstrapByteByItsClass := by
  unfold Obligations.DeviceReadsTheBootstrapByteByItsClass
  intro s
  rw [exec_cmdBootstrap]
  refine ⟨fun h => ?_, fun c h => ?_, fun h => ?_, fun h => ?_⟩
  · rw [h]
    rfl
  · rw [s.dev.control_of_decode h, exec_toInstr]
  · rw [s.dev.control_cgram h]
    rfl
  · rw [h]
    rfl

/-! #### The steps of the address -/

theorem decAddr_incAddr (a : Addr) (h : validAddr a = true) : decAddr (incAddr a) = a := by
  revert a
  decide

theorem incAddr_decAddr (a : Addr) (h : validAddr a = true) : incAddr (decAddr a) = a := by
  revert a
  decide

/-- Settles O47: the row ends by their values, every other address by the last branch. -/
theorem addressStepsAreInverseOnTheCells : Obligations.AddressStepsAreInverseOnTheCells := by
  unfold Obligations.AddressStepsAreInverseOnTheCells
  refine ⟨rfl, rfl, fun a h1 h2 => ?_, rfl, rfl, fun a h1 h2 => ?_, fun a h => ?_⟩
  · rw [incAddr, if_neg h1, if_neg h2]
  · rw [decAddr, if_neg h1, if_neg h2]
  · exact ⟨validAddr_incAddr a h, validAddr_decAddr a h, decAddr_incAddr a h, incAddr_decAddr a h⟩

end Sys2Proof.Machine

/-! ### What a run does to the device's record: nothing to the CGRAM, nothing at all under an oracle -/

namespace Sys2Proof.Machine

/-! #### What every access keeps, a run keeps -/

theorem Responds.dev {i : Instr} {m t : State} (h : Responds i m t) : t.dev = m.dev := by
  obtain ⟨_, _, -, ht⟩ := h.response
  rw [ht]
  rfl

@[simp] theorem startState_link (i : Instr) (s : State) : (startState i s).link = s.link := by
  cases i <;> rfl

/-- What each of its calls keeps of the device, an operation keeps. -/
theorem OperationEnd.device {i : Instr} {s t : State} (h : OperationEnd i s t) {Q : Device → Prop}
    (hq : ∀ d c r e, callOk s.cfg i c → Q d → d.answer c = .ok r e → Q e) (hs : Q s.dev) : Q t.dev := by
  rcases h with ⟨m, hm, hr⟩ | hm
  · rw [hr.dev]
    exact hm.device Q hq (by simpa using hs)
  · exact hm.device Q hq (by simpa using hs)

/-- Under an oracle the record `dev` stays (log 25). -/
theorem OperationEnd.oracle_dev {i : Instr} {s t : State} (h : OperationEnd i s t) (hl : s.link = .oracle) :
    t.dev = s.dev := by
  rcases h with ⟨m, hm, hr⟩ | hm
  · exact hr.dev.trans ((hm.oracle (by simpa using hl)).2.trans (startState_dev i s))
  · exact (hm.oracle (by simpa using hl)).2.trans (startState_dev i s)

/-! #### The CGRAM -/

theorem Device.run_cgram {d e : Device} {c : Command} {r : Reply} (h : d.run c = .ok r e) : e.cgram = d.cgram := by
  cases c with
  | setDdram a =>
    rw [Device.run_setDdram] at h
    split at h
    · cases h; rfl
    · cases h
  | _ => cases h; rfl

theorem request_cgram {i : Instr} {s t : State} (hi : i.isRequest = true) (h : exec i s = .next t) :
    t.dev.cgram = s.dev.cgram := by
  rcases request_next hi h with ⟨-, -, rfl⟩ | ⟨-, hend⟩
  · rfl
  · exact hend.device (Q := fun d => d.cgram = s.dev.cgram)
      (fun _ _ _ _ _ hd hr => (Device.answer_cgram hr).trans hd) rfl

theorem command_cgram {i : Instr} {s t : State} (hi : i.isRequest = false) (h : exec i s = .next t) :
    t.dev.cgram = s.dev.cgram := by
  obtain ⟨-, ⟨_, _, hr⟩ | ⟨b, _, hr⟩⟩ := command_next hi h
  · exact Device.run_cgram hr
  · exact Device.answer_cgram (c := .writeControl b) hr

/-- Settles O22: no access touches the CGRAM, and a step changes the device by accesses only. -/
theorem cgramIsNeverTouched : Obligations.CgramIsNeverTouched := by
  unfold Obligations.CgramIsNeverTouched
  intro s t h
  cases step_next h with
  | reset hr => rfl
  | noClass hr hb hc hd => rfl
  | command hr hb hc hd ht => exact command_cgram (s := { s with command := none }) (Command.toInstr_command s.cfg _).1 ht
  | wait ho hp => rfl
  | @request _ after _ ho hd ht => exact request_cgram (s := { s with port := after }) (decode_request hd).1 ht

/-! #### Two runs that differ in the record `dev` only -/

/-- The state with another record in the place of the device. -/
def State.withDev (s : State) (d : Device) : State :=
  { s with dev := d }

/-- Two parts under an oracle that end alike but for the record `dev`, which is `d` in the second. (A call to an oracle never
stops a run.) -/
inductive Twin {α : Type} (d : Device) : Run α → Run α → Prop where
  | done (a : α) (s : State) (hl : s.link = .oracle) : Twin d (.done a s) (.done a (s.withDev d))
  | hung (s : State) : Twin d (.hung s) (.hung (s.withDev d))

theorem Twin.seq {α β : Type} {d : Device} {x y : Run α} {f g : α → State → Run β} (h : Twin d x y)
    (hf : ∀ a s, s.link = .oracle → Twin d (f a s) (g a (s.withDev d))) : Twin d (x.bind f) (y.bind g) := by
  cases h with
  | done a s hl => exact hf a s hl
  | hung s => exact .hung s

/-- The outcome of an operation whose parts end alike. -/
theorem Twin.finish {d : Device} {x y : Run Unit} (h : Twin d x y) {t : State} (hx : finish x = .next t) :
    finish y = .next (t.withDev d) := by
  cases h with
  | done a s hl => cases hx; rfl
  | hung s => cases hx; rfl

theorem call_of_oracle (c : Call) {s : State} (hl : s.link = .oracle) : call c s = oracleCall (issue c s) := by
  simp [call, hl]

/-- An oracle does not look at the record. -/
theorem call_twin (c : Call) {s : State} (d : Device) (hl : s.link = .oracle) :
    Twin d (call c s) (call c (s.withDev d)) := by
  rw [call_of_oracle c hl, call_of_oracle c (s := s.withDev d) hl, oracleCall, oracleCall,
    show (issue c (s.withDev d)).replies = (issue c s).replies from rfl]
  split
  · exact .done _ { issue c s with replies := _ } hl
  · exact .hung { issue c s with replies := _ }
  · exact .hung (issue c s)

section
variable {s : State} (d : Device) (hl : s.link = .oracle)
include hl

/-- A call whose answer is handed on. -/
theorem call_hand_twin {α : Type} (c : Call) (g : Reply → Config → α) :
    Twin d ((call c s).bind fun r s1 => .done (g r s1.cfg) s1)
      ((call c (s.withDev d)).bind fun r s1 => .done (g r s1.cfg) s1) :=
  (call_twin c d hl).seq fun r t ht => .done (g r t.cfg) t ht

theorem writeControl_twin (b : Byte) : Twin d (writeControl b s) (writeControl b (s.withDev d)) :=
  call_hand_twin d hl _ fun r cfg => narrow cfg.resw r.status

theorem writeData_twin (b : Byte) : Twin d (writeData b s) (writeData b (s.withDev d)) :=
  call_hand_twin d hl _ fun r cfg => narrow cfg.resw r.status

theorem writePort0_twin (x y : Bool) : Twin d (writePort0 x y s) (writePort0 x y (s.withDev d)) :=
  call_hand_twin d hl _ fun r cfg => narrow cfg.resw r.status

theorem writePort1_twin (x : Bool) : Twin d (writePort1 x s) (writePort1 x (s.withDev d)) :=
  call_hand_twin d hl _ fun r cfg => narrow cfg.resw r.status

theorem readData_twin : Twin d (readData s) (readData (s.withDev d)) :=
  call_hand_twin d hl _ fun r _ => r.byte

theorem readAddress_twin : Twin d (readAddress s) (readAddress (s.withDev d)) :=
  call_hand_twin d hl _ fun r _ => r.addr

theorem busyWait_twin : Twin d (busyWait s) (busyWait (s.withDev d)) :=
  call_hand_twin d hl _ fun _ _ => ()

theorem clearSeq_twin : Twin d (clearSeq s) (clearSeq (s.withDev d)) :=
  (writeControl_twin d hl _).seq fun st _ ht =>
    (busyWait_twin d (by exact ht)).seq fun _ u hu => .done st u hu

theorem emitWrite_twin (b : Byte) : Twin d (emitWrite b s) (emitWrite b (s.withDev d)) := by
  refine Twin.seq ?_ fun st t ht => .done st (setTr (fun t => { t with s := st }) t) ht
  by_cases hb : isControl s.cfg b = true
  · rw [if_pos hb, if_pos (by exact hb)]
    exact writeControl_twin d hl _
  · rw [if_neg hb, if_neg (by exact hb)]
    exact writeData_twin d hl b

theorem pushColour_twin (c : Channels) : Twin d (pushColour c s) (pushColour c (s.withDev d)) :=
  (writePort0_twin d hl _ _).seq fun _ _ ht =>
    (writePort1_twin d (by exact ht) _).seq fun st1 u hu =>
      .done () (setTr (fun t => { t with s := st1, sum := narrow u.cfg.resw (t.sum + st1) }) u) hu

theorem programModes_twin : Twin d (programModes s) (programModes (s.withDev d)) :=
  (writeControl_twin d hl _).seq fun _ _ ht => (writeControl_twin d ht _).seq fun _ _ hu =>
    (writeControl_twin d hu _).seq fun _ _ hv => (writeControl_twin d hv _).seq fun _ w hw => .done () w hw

theorem selfTestRound_twin : Twin d (selfTestRound s) (selfTestRound (s.withDev d)) :=
  (writeData_twin (s := loadTestByte s) d hl _).seq fun _ _ ht => (writeControl_twin d ht _).seq fun _ _ hu =>
    (readData_twin d hu).seq fun r v hv => .done () (countMatch r v) hv

theorem ret_twin (v : Int) : Twin d (ret v s) (ret v (s.withDev d)) := .done () (respond v .none s) hl

theorem raise_twin (k : Diag) (v : Int) : Twin d (raise k v s) (raise k v (s.withDev d)) := .done () (respond v k s) hl

theorem retStatus_twin (st : Int) : Twin d (retStatus st s) (retStatus st (s.withDev d)) := by
  unfold retStatus
  split
  · exact ret_twin d hl 0
  · exact raise_twin d hl .transportFailure st

theorem gotoAnswer_twin (col : Byte) : Twin d (gotoAnswer col s) (gotoAnswer col (s.withDev d)) := by
  unfold gotoAnswer
  rw [show (s.withDev d).tr = s.tr from rfl]
  split
  · split
    · exact ret_twin d hl 0
    · exact ret_twin d hl 1
  · exact raise_twin d hl .addressConsistencyError (-1)

end

theorem blankCells_twin (d : Device) (n : Nat) : ∀ {s : State}, s.link = .oracle →
    Twin d (blankCells n s) (blankCells n (s.withDev d)) := by
  induction n with
  | zero => exact fun hl => .done () _ hl
  | succ n ih => exact fun hl => (writeData_twin d hl _).seq fun st t ht => ih (s := addStatus st t) ht

theorem emitAll_twin (d : Device) (bs : List Byte) : ∀ {s : State}, s.link = .oracle →
    Twin d (emitAll bs s) (emitAll bs (s.withDev d)) := by
  induction bs with
  | nil => exact fun hl => .done () _ hl
  | cons b bs ih =>
    exact fun hl => (emitWrite_twin d hl b).seq fun _ t ht => ih (s := setTr (fun t => { t with j := t.j + 1 }) t) ht

theorem wrapAfter_twin {s : State} (d : Device) (hl : s.link = .oracle) :
    Twin d (wrapAfter s) (wrapAfter (s.withDev d)) := by
  unfold wrapAfter
  rw [show (s.withDev d).tr = s.tr from rfl]
  split
  · exact (writeControl_twin d hl _).seq fun _ t ht => .done () t ht
  · exact .done () s hl

theorem writeWrapped_twin (d : Device) (bs : List Byte) : ∀ {s : State}, s.link = .oracle →
    Twin d (writeWrapped bs s) (writeWrapped bs (s.withDev d)) := by
  induction bs with
  | nil => exact fun hl => .done () _ hl
  | cons b bs ih =>
    exact fun hl => (writeData_twin d hl b).seq fun _ _ ht => (wrapAfter_twin d ht).seq fun _ u hu =>
      ih (s := setTr (fun t => { t with j := t.j + 1 }) u) hu

theorem repeatControl_twin (d : Device) (c : Byte) (n : Nat) : ∀ {s : State}, s.link = .oracle →
    Twin d (repeatControl c n s) (repeatControl c n (s.withDev d)) := by
  induction n with
  | zero => exact fun hl => .done () _ hl
  | succ n ih =>
    exact fun hl => (writeControl_twin d hl c).seq fun _ t ht => ih (s := setTr (fun t => { t with k := n }) t) ht

theorem repeatShift_twin (d : Device) (c : Byte) (δ : Int) (n : Nat) : ∀ {s : State}, s.link = .oracle →
    Twin d (repeatShift c δ n s) (repeatShift c δ n (s.withDev d)) := by
  induction n with
  | zero => exact fun hl => .done () _ hl
  | succ n ih =>
    exact fun hl => (writeControl_twin d hl c).seq fun _ t ht =>
      ih (s := setTr (fun t => { t with k := n, acc := t.acc + δ }) t) ht

theorem selfTestLoop_twin (d : Device) (n : Nat) : ∀ {s : State}, s.link = .oracle →
    Twin d (selfTestLoop n s) (selfTestLoop n (s.withDev d)) := by
  induction n with
  | zero => exact fun hl => .done () _ hl
  | succ n ih => exact fun hl => (selfTestRound_twin d hl).seq fun _ t ht => ih ht

theorem lineClearPhases_twin {s : State} (d : Device) (hl : s.link = .oracle) :
    Twin d (lineClearPhases s) (lineClearPhases (s.withDev d)) :=
  (writeControl_twin d hl _).seq fun st t ht =>
    (blankCells_twin d Config.lcdLength (s := setTr (fun t => { t with sum := st }) t) ht).seq fun _ _ hu =>
      (writeControl_twin d hu _).seq fun st3 v hv => .done () (addStatus st3 v) hv

theorem initPhases_twin {s : State} (d : Device) (hl : s.link = .oracle) :
    Twin d (initPhases s) (initPhases (s.withDev d)) := by
  refine (programModes_twin d hl).seq fun _ t ht => (clearSeq_twin d ht).seq fun _ u hu => ?_
  refine (selfTestLoop_twin d _ (s := setTr (fun t => { t with cnt := 0, i := 0 }) u) hu).seq fun _ v hv => ?_
  by_cases hc : v.tr.cnt = Config.selfTestPass
  · rw [if_pos hc, if_pos (by exact hc)]
    exact (clearSeq_twin d hv).seq fun _ w hw => ret_twin (s := { w with fsm := .ready }) d hw 0
  · rw [if_neg hc, if_neg (by exact hc)]
    exact raise_twin (s := { v with fsm := .uninitialized }) d hv .selfTestFailure (-1)

/-- A gated operation whose parts do not look at the record. -/
theorem whenReady_twin {i : Instr} {body : State → Run Unit} {s t : State} {d : Device}
    (h : Twin d (body (accept i s)) (body (accept i (s.withDev d)))) (hx : whenReady i body s = .next t) :
    whenReady i body (s.withDev d) = .next (t.withDev d) := by
  obtain ⟨hr, hx⟩ := whenReady_next hx
  rw [whenReady_ready (by exact hr)]
  exact h.finish hx

theorem request_twin {i : Instr} {s t : State} (d : Device) (hi : i.isRequest = true) (hl : s.link = .oracle)
    (h : exec i s = .next t) : exec i (s.withDev d) = .next (t.withDev d) := by
  have ha (j : Instr) : (accept j s).link = .oracle := hl
  cases i with
  | init =>
    simp only [exec, execInit] at h ⊢
    split at h
    · rw [if_pos ‹_›]
      cases h
      rfl
    · rw [if_neg ‹_›]
      exact (initPhases_twin (s := { accept .init s with fsm := .selfTesting }) d hl).finish h
  | clear =>
    simp only [exec, execClear] at h ⊢
    refine whenReady_twin ?_ h
    exact (clearSeq_twin d (ha _)).seq fun st _ ht => retStatus_twin d ht st
  | home =>
    simp only [exec, execHome] at h ⊢
    refine whenReady_twin ?_ h
    exact (writeControl_twin d (ha _) _).seq fun st t ht =>
      retStatus_twin (s := { setTr (fun t => { t with s := st }) t with so := 0#6 }) d ht st
  | emit b =>
    simp only [exec, execEmit] at h ⊢
    refine whenReady_twin ?_ h
    refine (emitWrite_twin d (ha _) b).seq fun st t ht => ?_
    split
    · exact ret_twin d ht b.toNat
    · exact raise_twin d ht .transportFailure t.cfg.eof
  | emitLineClear =>
    simp only [exec, execEmitLineClear] at h ⊢
    refine whenReady_twin ?_ h
    exact (readAddress_twin d (ha _)).seq fun a t ht =>
      (lineClearPhases_twin (s := setTr (fun t => { t with a := a, tgt := rowStart a }) t) d ht).seq fun _ _ hu =>
        retStatus_twin d hu _
  | emitFormatted str =>
    simp only [exec, execEmitFormatted] at h ⊢
    refine whenReady_twin ?_ h
    exact (emitAll_twin d _ (s := loadBuffer (bounded Config.fmtLen str) (accept (.emitFormatted str) s)) hl).seq
      fun _ t ht => ret_twin d ht t.tr.m
  | emitWrapped str =>
    simp only [exec, execEmitWrapped] at h ⊢
    refine whenReady_twin ?_ h
    exact (clearSeq_twin d (ha _)).seq fun _ t ht =>
      (writeWrapped_twin d _ (s := loadBuffer (bounded Config.wrapLen str) t) ht).seq fun _ u hu =>
        ret_twin d hu u.tr.m
  | cursorMove n =>
    simp only [exec, execCursorMove] at h ⊢
    refine whenReady_twin ?_ h
    exact (repeatControl_twin d _ _ (s := setTr (fun t => { t with k := magnitude n }) (accept (.cursorMove n) s)) hl).seq
      fun _ _ ht => (readAddress_twin d ht).seq fun a u hu =>
        ret_twin (s := setTr (fun t => { t with a := a }) u) d hu a.toNat
  | cursorGoto row col =>
    simp only [exec, execCursorGoto] at h ⊢
    refine whenReady_twin ?_ h
    by_cases hv : gotoInvalid row col = true
    · rw [if_pos hv, if_pos hv]
      exact raise_twin (s := accept (.cursorGoto row col) s) d hl .validationError (-1)
    · rw [if_neg hv, if_neg hv]
      refine (writeControl_twin (s := setTr (fun t => { t with tgt := addrOf row col }) (accept (.cursorGoto row col) s)) d
        hl _).seq fun _ _ ht => ?_
      exact (readAddress_twin d ht).seq fun a u hu => gotoAnswer_twin (s := setTr (fun t => { t with a := a }) u) d hu col
  | displayShift n =>
    simp only [exec, execDisplayShift] at h ⊢
    refine whenReady_twin ?_ h
    exact (repeatShift_twin d _ _ _
      (s := setTr (fun t => { t with acc := s.so.toNat, k := magnitude n }) (accept (.displayShift n) s)) hl).seq
        fun _ t ht => ret_twin (s := { t with so := scrollReduce t.tr.acc }) d ht (scrollReduce t.tr.acc).toNat
  | setColour name =>
    simp only [exec, execSetColour] at h ⊢
    refine whenReady_twin ?_ h
    exact (pushColour_twin (s := selectColour (channelsOf name) (accept (.setColour name) s)) d hl (channelsOf name)).seq
      fun _ t ht => retStatus_twin d ht t.tr.sum
  | _ => cases hi -- a device command is no request

/-- Settles O21: under an oracle no part of a run looks at the record. -/
theorem oracleRunsDoNotDependOnTheDevice : Obligations.OracleRunsDoNotDependOnTheDevice := by
  unfold Obligations.OracleRunsDoNotDependOnTheDevice
  intro i s t d hi hl h
  refine ⟨?_, request_twin d hi hl h⟩
  rcases request_next hi h with ⟨-, -, rfl⟩ | ⟨-, hend⟩
  · rfl
  · exact hend.oracle_dev hl

end Sys2Proof.Machine

/-! ### A request stuck in a call (R44, R192) -/

namespace Sys2Proof.Machine

/-- The request runs as a part that is stuck in one of its calls when the answers `rs` do not suffice. -/
def RequestStuck (i : Instr) (s : State) (rs : List Reply) : Prop :=
  ∃ x : Run Unit, exec i s = finish x ∧ StuckIn (requestCalls s.cfg i rs) (hungSo i) (startState i s) rs x

/-- EMIT_LINE_CLEAR looks at the address its first answer brings (R113). -/
theorem emitLineClear_stuck (s : State) (rs : List Reply) (h : s.fsm = .ready) : RequestStuck .emitLineClear s rs := by
  simp only [RequestStuck, exec, execEmitLineClear, whenReady_ready h]
  refine ⟨_, rfl, (readAddress_scripted (accept .emitLineClear s) rs).before
    (ds := lineClearCalls s.cfg (rs.getD 0 Reply.zero).addr) (h := keeps) (fun a t _ hc hq => ?_) rfl (fun n => by simp [hungSo])⟩
  rw [← hq.1, show s.cfg = t.cfg from hc.symm]
  exact (Scripted.after_setTr (f := fun t => { t with a := a, tgt := rowStart a }) (lineClearPhases_scripted a _ _ rfl)).last

theorem emitWrapped_stuck (str : List Byte) (s : State) (rs : List Reply) (h : s.fsm = .ready) :
    RequestStuck (.emitWrapped str) s rs := by
  simp only [RequestStuck, exec, execEmitWrapped, whenReady_ready h]
  refine ⟨_, rfl, (clearSeq_scripted (accept (.emitWrapped str) s) rs).cleared (ds := wrapFrom s.cfg 0 (str.take 32))
    (h := keeps) (fun _ t hc _ => ?_) (by rw [wrapFrom_zero]; rfl) (by simp [clearCalls]) (fun _ => rfl)⟩
  rw [show s.cfg = t.cfg from hc.symm]
  exact (Scripted.after_setTr (f := fun t => { t with j := 0, m := (str.take 32).length, buf := str.take 32 })
    (writeWrapped_scripted (str.take 32) _ _)).last

theorem cursorMove_stuck (n : Int) (s : State) (rs : List Reply) (h : s.fsm = .ready) :
    RequestStuck (.cursorMove n) s rs := by
  simp only [RequestStuck, exec, execCursorMove, whenReady_ready h]
  refine ⟨_, rfl, Scripted.before (Scripted.after_setTr (f := fun t => { t with k := magnitude n })
    (repeatControl_scripted (cursorByte s.cfg n) (magnitude n) _ rs)) (ds := [.readAddress]) (h := keeps)
    (fun _ t _ _ _ => (readAddress_scripted t _).last) ?_ (fun k => by simp [hungSo])⟩
  by_cases hn : 0 < n
  · simp [requestCalls, cursorByte, magnitude, (isForward_iff n).2 hn, hn]
  · simp [requestCalls, cursorByte, magnitude, isForward, hn]

theorem cursorGoto_stuck (row col : Byte) (s : State) (rs : List Reply) (h : s.fsm = .ready) :
    RequestStuck (.cursorGoto row col) s rs := by
  simp only [RequestStuck, exec, execCursorGoto, whenReady_ready h]
  refine ⟨_, rfl, ?_⟩
  by_cases hv : gotoInvalid row col = true
  · rw [if_pos hv, requestCalls, if_pos ((gotoInvalid_iff row col).1 hv)]
    exact StuckIn.none _
  · rw [if_neg hv, requestCalls, if_neg (fun hc => hv ((gotoInvalid_iff row col).2 hc))]
    exact Scripted.before (Scripted.after_setTr (f := fun t => { t with tgt := addrOf row col })
      (writeControl_scripted _ _ rs)) (ds := [.readAddress]) (h := keeps)
      (fun _ t _ _ _ => (readAddress_scripted t _).last) rfl (fun k => by simp [hungSo])

theorem displayShift_stuck (n : Int) (s : State) (rs : List Reply) (h : s.fsm = .ready) :
    RequestStuck (.displayShift n) s rs := by
  simp only [RequestStuck, exec, execDisplayShift, whenReady_ready h]
  refine ⟨_, rfl, StuckIn.mono (Scripted.after_setTr (f := fun t => { t with acc := s.so.toNat, k := magnitude n })
    (repeatShift_scripted (shiftByte s.cfg n) (scrollDelta n) (magnitude n) _ rs)).last ?_ (fun _ _ => rfl)⟩
  by_cases hn : 0 < n
  · simp [requestCalls, shiftByte, magnitude, (isForward_iff n).2 hn, hn]
  · simp [requestCalls, shiftByte, magnitude, isForward, hn]

/-- The self-test and the last clear: where the answers reach past the loop, its first 80 bytes were the ones written, so the
test passes. -/
theorem selfTest_stuck (s : State) (rs : List Reply) (h0 : s.tr.cnt = 0) (hi : s.tr.i = 0)
    (he : 243 ≤ rs.length → ∀ j, j < 80 → (rs.getD (2 + 3 * j) Reply.zero).byte = testByte s.cfg j) :
    StuckIn ((List.range 81).flatMap (roundCalls s.cfg) ++ clearCalls s.cfg)
      (fun n so => if n < 243 then so else zeroFrom 1 (n - 243) so) s rs
      ((selfTestLoop Config.selfTestIters s).bind fun _ t =>
        if t.tr.cnt = Config.selfTestPass then initPass t else initFail t) := by
  have hloop := selfTestLoop_scripted 81 s rs
  rw [hi, ← List.range_eq_range'] at hloop
  have hlen : ((List.range 81).flatMap (roundCalls s.cfg)).length = 243 := by
    simp [List.length_flatMap, roundCalls]
  refine hloop.before (h := zeroFrom 1) (fun _ t hn hc hq => ?_) rfl (fun n => by rw [hlen])
  rw [hlen] at hn
  have hpass : t.tr.cnt = Config.selfTestPass := by
    refine (hq (fun k hk h80 => ?_) h0).trans rfl
    rw [Nat.zero_add] at h80 ⊢
    exact he hn k h80
  rw [if_pos hpass, ← hc]
  exact (clearSeq_scripted t _).last

/-- INIT after its entry: `so` is 0 from the busy-wait of the first CLEAR_SEQ on, five answers (R142, R149). -/
theorem initPhases_stuck (s : State) (rs : List Reply)
    (he : rs.length < 249 ∨ ∀ j, j < 80 → echoOf rs j = s.cfg.chZero + BitVec.ofNat 8 j) :
    StuckIn (initCalls s.cfg ++ clearCalls s.cfg) (zeroFrom 5) s rs (initPhases s) := by
  refine (programModes_scripted s rs).before
    (ds := clearCalls s.cfg ++ ((List.range 81).flatMap (roundCalls s.cfg) ++ clearCalls s.cfg)) (h := zeroFrom 1)
    (fun _ t _ ht _ => ?_) (by simp [initCalls]) (fun n => ?_)
  · rw [← ht]
    refine (clearSeq_scripted t _).cleared (h := fun n so => if n < 243 then so else zeroFrom 1 (n - 243) so)
      (fun _ u hu _ => ?_) rfl (by simp [clearCalls]) (fun n => by simp [zeroFrom])
    rw [← hu]
    refine selfTest_stuck (setTr (fun t => { t with cnt := 0, i := 0 }) u) ((rs.drop 4).drop 2) rfl rfl (fun hn j hj => ?_)
    have hlong : ¬ rs.length < 249 := by
      simp only [List.length_drop] at hn
      omega
    rw [testByte, setTr_cfg, hu, ht, ← he.resolve_left hlong j hj, echoOf]
    simp [List.getD_eq_getElem?_getD, show 6 + (2 + 3 * j) = 8 + 3 * j by omega]
  · by_cases h4 : n < 4
    · simp [zeroFrom, h4, show n < 5 by omega]
    · simp [zeroFrom, h4, show n - 4 < 1 ↔ n < 5 by omega]

/-- Every request that passes its gate is stuck in its first call without an answer. -/
theorem request_stuck {i : Instr} {s : State} {rs : List Reply} (hi : i.isRequest = true)
    (hf : if i = .init then s.fsm ≠ .ready else s.fsm = .ready)
    (he : i = .init → rs.length < 249 ∨ ∀ j, j < 80 → echoOf rs j = s.cfg.chZero + BitVec.ofNat 8 j) :
    RequestStuck i s rs := by
  cases i with
  | init =>
    simp only [RequestStuck, exec, execInit, if_neg (show s.fsm ≠ .ready by simpa using hf)]
    exact ⟨_, rfl, initPhases_stuck _ rs (he rfl)⟩
  | clear =>
    simp only [RequestStuck, exec, execClear, whenReady_ready (by simpa using hf)]
    exact ⟨_, rfl, (clearSeq_scripted _ rs).last⟩
  | home =>
    simp only [RequestStuck, exec, execHome, whenReady_ready (by simpa using hf)]
    exact ⟨_, rfl, (writeControl_scripted _ _ rs).last⟩
  | emit b =>
    simp only [RequestStuck, exec, execEmit, whenReady_ready (by simpa using hf)]
    exact ⟨_, rfl, (emitWrite_scripted b _ rs).last⟩
  | emitLineClear => exact emitLineClear_stuck s rs (by simpa using hf)
  | emitFormatted str =>
    simp only [RequestStuck, exec, execEmitFormatted, whenReady_ready (by simpa using hf)]
    exact ⟨_, rfl, (Scripted.after_setTr (f := fun t => { t with j := 0, m := (str.take 80).length, buf := str.take 80 })
      (emitAll_scripted (str.take 80) _ rs)).last⟩
  | emitWrapped str => exact emitWrapped_stuck str s rs (by simpa using hf)
  | cursorMove n => exact cursorMove_stuck n s rs (by simpa using hf)
  | cursorGoto row col => exact cursorGoto_stuck row col s rs (by simpa using hf)
  | displayShift n => exact displayShift_stuck n s rs (by simpa using hf)
  | setColour name =>
    simp only [RequestStuck, exec, execSetColour, whenReady_ready (by simpa using hf)]
    exact ⟨_, rfl, (pushColour_scripted (channelsOf name) _ rs).last⟩
  | _ => cases hi -- a device command is no request

/-- The state of an operation's first call: accepted, INIT in SelfTesting, the colour selected (R19, R20, R149, R156). -/
theorem startState_eq (i : Instr) (s : State) :
    startState i s = { s with
      busy := true, pos := some { op := i, ix := 0 }, fsm := if i = .init then .selfTesting else s.fsm,
      chan := (startState i s).chan, chanSet := (startState i s).chanSet } := by
  cases i <;> rfl

/-- The answers of an oracle are not touched before the first call. -/
theorem State.HangsAfter.startState_silent {s : State} {rs : List Reply} (h : s.HangsAfter rs) (i : Instr) :
    Silent (startState i s) rs := by
  rw [startState_eq]
  exact h.silent

/-- Settles O6: the calls made are the first ones of the request's, and what was written before them is the start state's and
CLEAR_SEQ's. -/
theorem hungRequestLeavesWhatItWrote : Obligations.HungRequestLeavesWhatItWrote := by
  unfold Obligations.HungRequestLeavesWhatItWrote
  intro i s rs hi hf hs hl he
  obtain ⟨x, hx, hstuck⟩ := request_stuck hi hf he
  obtain ⟨t, ht, hmade, hso⟩ := hstuck (hs.startState_silent i) hl
  have hchan : t.chan = (startState i s).chan ∧ t.chanSet = (startState i s).chanSet := by
    rw [hmade]
    exact ⟨rfl, rfl⟩
  have hfsm : (if i = .init then Fsm.selfTesting else s.fsm) = if i = .init then .selfTesting else .ready := by
    split at hf
    · rw [if_pos ‹_›, if_pos ‹_›]
    · rw [hf]
  refine ⟨t, by rw [hx, ht, finish_hung], ?_, ?_, fun hne => ?_⟩
  · rw [startState_so] at hso
    rw [Made, startState_eq] at hmade
    rw [← hfsm, ← hso, hchan.1, hchan.2]
    refine hmade.trans ?_
    simp [Nat.min_eq_left (Nat.succ_le_of_lt hl)]
  · rintro name rfl
    exact hchan
  · rw [hchan.1, hchan.2]
    exact startState_chan s hne

end Sys2Proof.Machine

/-! ### The calls and the parts on the reference device (R55 to R63, R107) -/

namespace Sys2Proof.Machine

/-! #### The updates, named -/

/-- The state after the call `c` has gone out and the device behind the transport, now `d`, has answered it. -/
def answered (c : Call) (d : Device) (s : State) : State :=
  { issue c s with dev := d }

@[simp] theorem answered_cfg (c : Call) (d : Device) (s : State) : (answered c d s).cfg = s.cfg := rfl
@[simp] theorem answered_tr (c : Call) (d : Device) (s : State) : (answered c d s).tr = s.tr := rfl
@[simp] theorem answered_link (c : Call) (d : Device) (s : State) : (answered c d s).link = s.link := rfl
@[simp] theorem answered_dev (c : Call) (d : Device) (s : State) : (answered c d s).dev = d := rfl

/-- The device after a data write (R61). -/
def Device.stored (v : Byte) (d : Device) : Device :=
  { d with ddram := d.ddram.write d.ac.toNat v, ac := incAddr d.ac }

/-- The device after a data read (R62, R63). -/
def Device.fetched (d : Device) : Device :=
  { d with ac := incAddr d.ac, rdCount := d.rdCount + 1 }

/-- The device with its address moved. -/
def Device.mapAc (g : Addr → Addr) (d : Device) : Device :=
  { d with ac := g d.ac }

/-- The device with its shift moved. -/
def Device.mapShift (g : BitVec 6 → BitVec 6) (d : Device) : Device :=
  { d with shift := g d.shift }

/-- The device after the clear command (R57). -/
def Device.cleared (d : Device) : Device :=
  { d with ddram := [], ac := 0x00#7, shift := 0#6, idinc := true }

@[simp] theorem Device.stored_ac (v : Byte) (d : Device) : (d.stored v).ac = incAddr d.ac := rfl
@[simp] theorem Device.stored_modeOk (v : Byte) (d : Device) : (d.stored v).modeOk = d.modeOk := rfl
@[simp] theorem Device.mapAc_modeOk (g : Addr → Addr) (d : Device) : (d.mapAc g).modeOk = d.modeOk := rfl

theorem Device.stored_cell_same {d : Device} (v : Byte) (h : d.ddram.wf) : (d.stored v).cell d.ac = v :=
  d.cell_write_same d.ac v h

theorem Device.stored_cell_other {d : Device} {a : Addr} (v : Byte) (h : a ≠ d.ac) : (d.stored v).cell a = d.cell a :=
  d.cell_write_other d.ac a v h

theorem Device.stored_wf {d : Device} (v : Byte) (h : d.ddram.wf) : (d.stored v).ddram.wf :=
  Memory.write_wf _ _ _ h

/-! #### The calls through a fixture -/

/-- A fixture of R63 answers every call: the good device's effect, the reply distorted. -/
theorem call_device {fx : Fixture} {c : Call} {s : State} {r : Reply} {d : Device} (hfx : ∀ n, fx ≠ .hangs n)
    (hl : s.link = .device fx) (h : s.dev.answer c = .ok r d) :
    call c s = .done (fx.distort s.dev.rdCount c r) (answered c d s) := by
  have hc : call c s = deviceCall fx c (issue c s) := by
    cases fx with
    | hangs n => exact absurd rfl (hfx n)
    | _ => simp [call, hl]
  rw [hc, deviceCall, show (issue c s).dev = s.dev from rfl, h]
  rfl

/-- What a call brought back from the good device is the device's answer. -/
theorem call_good_done {c : Call} {s t : State} {r : Reply} (hl : s.link = .device .good) (h : call c s = .done r t) :
    ∃ d, s.dev.answer c = .ok r d ∧ t = answered c d s := by
  rw [call_good hl, deviceCall, show (issue c s).dev = s.dev from rfl] at h
  cases ha : s.dev.answer c with
  | ok r' d =>
    rw [ha] at h
    cases h
    exact ⟨d, rfl, rfl⟩
  | fault f => rw [ha] at h; cases h
  | refused f => rw [ha] at h; cases h

/-- A call that the good device answers, through another fixture of R63. -/
theorem call_fixture {fx : Fixture} {c : Call} {s t : State} {r : Reply} (hfx : ∀ n, fx ≠ .hangs n)
    (hl : s.link = .device .good) (h : call c s = .done r t) :
    call c { s with link := .device fx } = .done (fx.distort s.dev.rdCount c r) { t with link := .device fx } := by
  obtain ⟨d, ha, rfl⟩ := call_good_done hl h
  exact call_device (s := { s with link := .device fx }) hfx rfl ha

theorem Device.answer_writeData {d : Device} (v : Byte) (hm : d.modeOk = true) (hv : validAddr d.ac = true) :
    d.answer (.writeData v) = .ok Reply.zero (d.stored v) := by
  simp [Device.answer, Device.writeData, Device.stored, hm, hv]

theorem Device.answer_readData {d : Device} (hm : d.modeOk = true) (hv : validAddr d.ac = true) :
    d.answer .readData = .ok { Reply.zero with byte := d.cell d.ac } d.fetched := by
  simp [Device.answer, Device.readData, Device.fetched, hm, hv]

/-- Settles O49: the accesses in the modes they are defined for, and the fixtures by their distortions. -/
theorem dataPortAndFixtureCallsOnTheDevice : Obligations.DataPortAndFixtureCallsOnTheDevice := by
  unfold Obligations.DataPortAndFixtureCallsOnTheDevice
  refine ⟨fun d v hm hv hwf => ⟨?_, ?_⟩, fun d x y z => ⟨⟨_, rfl, rfl⟩, rfl, rfl, rfl⟩, fun s t c r hl h => ⟨?_, ?_, ?_⟩⟩
  · exact ⟨_, Device.answer_writeData v hm hv, rfl, Device.stored_cell_same v hwf,
      fun a ha => Device.stored_cell_other v ha⟩
  · exact ⟨_, Device.answer_readData hm hv, rfl⟩
  · rw [call_fixture (by simp) hl h]
    cases c <;> rfl
  · rw [call_fixture (by simp) hl h]
    cases c <;> rfl
  · intro calls
    rw [call_fixture (by simp) hl h, Fixture.distort]
    split
    · rfl
    · rfl

/-! #### Fixtures whose writes succeed -/

/-- The fixtures that answer every call, and every write call with success. -/
def Fixture.WritesOk (fx : Fixture) : Prop :=
  fx ≠ .failing ∧ ∀ n, fx ≠ .hangs n

theorem Fixture.good_writesOk : Fixture.good.WritesOk := ⟨by simp, by simp⟩

theorem Fixture.bad_writesOk (calls : List Nat) : (Fixture.bad calls).WritesOk := ⟨by simp, by simp⟩

/-- Such a fixture changes what the reads bring back, and nothing else. -/
theorem Fixture.WritesOk.distort {fx : Fixture} (h : fx.WritesOk) {c : Call} (hc : c.isWrite = true) (n : Nat) (r : Reply) :
    fx.distort n c r = r := by
  have hr : c ≠ .readData ∧ c ≠ .readAddress := by
    constructor <;> rintro rfl <;> cases hc
  cases fx with
  | good => rfl
  | bad calls => exact if_neg fun hb => hr.1 hb.1
  | stuck => exact if_neg hr.2
  | failing => exact absurd rfl h.1
  | hangs n => exact absurd rfl (h.2 n)

/-- The byte that the fixture's read number `n` brings back for the byte `v` of the cell. -/
def Fixture.readByte (fx : Fixture) (n : Nat) (v : Byte) : Byte :=
  (fx.distort n .readData { Reply.zero with byte := v }).byte

/-- RD_bad spoils exactly the reads it lists. -/
theorem Fixture.readByte_bad_eq_iff (calls : List Nat) (n : Nat) (v : Byte) :
    (Fixture.bad calls).readByte n v = v ↔ n ∉ calls := by
  have hx : v ^^^ 1#8 ≠ v := by
    revert v
    decide
  by_cases h : n ∈ calls
  · simp [Fixture.readByte, Fixture.distort, h]
  · simp [Fixture.readByte, Fixture.distort, h]

section
variable {fx : Fixture} {s : State} (hfx : fx.WritesOk) (hl : s.link = .device fx)
include hfx hl

theorem writeControl_device {b : Byte} {d : Device} (h : s.dev.control b = .ok Reply.zero d) :
    writeControl b s = .done 0 (answered (.writeControl b) d s) := by
  rw [writeControl, call_device (c := .writeControl b) hfx.2 hl h, hfx.distort rfl]
  simp [Reply.zero]

theorem writeData_device (b : Byte) (hm : s.dev.modeOk = true) (hv : validAddr s.dev.ac = true) :
    writeData b s = .done 0 (answered (.writeData b) (s.dev.stored b) s) := by
  rw [writeData, call_device hfx.2 hl (Device.answer_writeData b hm hv), hfx.distort rfl]
  simp [Reply.zero]

theorem writePort0_device (x y : Bool) :
    writePort0 x y s = .done 0 (answered (.writePort0 x y) { s.dev with port0 := (x, y) } s) := by
  rw [writePort0, call_device (c := .writePort0 x y) hfx.2 hl rfl, hfx.distort rfl]
  simp [Reply.zero]

theorem writePort1_device (x : Bool) :
    writePort1 x s = .done 0 (answered (.writePort1 x) { s.dev with port1 := x } s) := by
  rw [writePort1, call_device (c := .writePort1 x) hfx.2 hl rfl, hfx.distort rfl]
  simp [Reply.zero]

theorem busyWait_device : busyWait s = .done () (issue .busyWait s) := by
  rw [busyWait, call_device (c := .busyWait) hfx.2 hl rfl]
  rfl

theorem readData_device (hm : s.dev.modeOk = true) (hv : validAddr s.dev.ac = true) :
    readData s = .done (fx.readByte s.dev.rdCount (s.dev.cell s.dev.ac)) (answered .readData s.dev.fetched s) := by
  rw [readData, call_device hfx.2 hl (Device.answer_readData hm hv)]
  rfl

/-! #### CLEAR_SEQ, the port writes, the repeated commands, EMIT's body -/

theorem clearSeq_device (hc : s.cfg.cmd.clear = 0x01#8) :
    ∃ p τ, clearSeq s = .done 0
      { s with calls := s.calls ++ clearCalls s.cfg, pos := p, tr := τ, so := 0#6, dev := s.dev.cleared } := by
  rw [clearSeq, writeControl_device (d := s.dev.cleared) hfx hl (by rw [hc]; rfl), Run.bind_done,
    busyWait_device hfx (by exact hl), Run.bind_done]
  exact ⟨_, _, by simp [setTr, answered, issue, clearCalls]; exact ⟨rfl, rfl⟩⟩

theorem pushColour_device (c : Channels) :
    ∃ p τ, pushColour c s = .done ()
        { s with
          calls := s.calls ++ [.writePort0 c.red c.green, .writePort1 c.blue], pos := p, tr := τ,
          dev := { s.dev with port0 := (c.red, c.green), port1 := c.blue } }
      ∧ τ.sum = 0 := by
  rw [pushColour, writePort0_device hfx hl, Run.bind_done, writePort1_device hfx (by exact hl), Run.bind_done]
  exact ⟨_, _, by simp [setTr, answered, issue]; exact ⟨rfl, rfl⟩, by simp⟩

/-- A command repeated `n` times does its effect `n` times. -/
theorem repeatControl_device {c : Byte} {f : Device → Device} (hc : ∀ d : Device, d.control c = .ok Reply.zero (f d))
    (n : Nat) :
    ∃ p τ, repeatControl c n s = .done ()
      { s with calls := s.calls ++ List.replicate n (.writeControl c), pos := p, tr := τ, dev := f^[n] s.dev } := by
  induction n generalizing s with
  | zero => exact ⟨s.pos, s.tr, by simp [repeatControl]⟩
  | succ n ih =>
    obtain ⟨p, τ, h⟩ := ih (s := setTr (fun t => { t with k := n }) (answered (.writeControl c) (f s.dev) s)) hl
    refine ⟨p, τ, ?_⟩
    rw [repeatControl, writeControl_device hfx hl (hc s.dev), Run.bind_done, h]
    simp [setTr, answered, issue, List.replicate_succ]

/-- The same with the accumulator's steps (R131). -/
theorem repeatShift_device {c : Byte} {f : Device → Device} (hc : ∀ d : Device, d.control c = .ok Reply.zero (f d))
    (δ : Int) (n : Nat) :
    ∃ p τ, repeatShift c δ n s = .done ()
        { s with calls := s.calls ++ List.replicate n (.writeControl c), pos := p, tr := τ, dev := f^[n] s.dev }
      ∧ τ.acc = s.tr.acc + n * δ := by
  induction n generalizing s with
  | zero => exact ⟨s.pos, s.tr, by simp [repeatShift], by simp⟩
  | succ n ih =>
    obtain ⟨p, τ, h, hacc⟩ := ih
      (s := setTr (fun t => { t with k := n, acc := t.acc + δ }) (answered (.writeControl c) (f s.dev) s)) hl
    refine ⟨p, τ, ?_, ?_⟩
    · rw [repeatShift, writeControl_device hfx hl (hc s.dev), Run.bind_done, h]
      simp [setTr, answered, issue, List.replicate_succ]
    · rw [hacc]
      simp
      ring

end

/-- What EMIT's body does to the device (R61, R111, R112, R116). -/
def Device.emitted (cfg : Config) (b : Byte) (d : Device) : Device :=
  if isControl cfg b = true then { d with ac := Config.row1Start } else d.stored b

theorem emitWrite_device {fx : Fixture} {s : State} (hfx : fx.WritesOk) (hl : s.link = .device fx) (b : Byte)
    (hm : s.dev.modeOk = true) (hv : validAddr s.dev.ac = true)
    (hc : b = s.cfg.chCr ∨ b = s.cfg.chLf → s.cfg.cmd.setDdram = 0x80#8) :
    emitWrite b s = .done 0
      (setTr (fun t => { t with s := 0 }) (answered (emitCall s.cfg b) (s.dev.emitted s.cfg b) s)) := by
  by_cases hb : isControl s.cfg b = true
  · have hb' := (isControl_iff _ _).1 hb
    rw [emitWrite, if_pos hb, newline, writeControl_device hfx hl (control_setAddress _ (hc hb') (by decide)), emitCall,
      if_pos hb', Device.emitted, if_pos hb]
    rfl
  · rw [emitWrite, if_neg hb, writeData_device hfx hl b hm hv, emitCall, if_neg (fun h => hb ((isControl_iff _ _).2 h)),
      Device.emitted, if_neg hb]
    rfl

/-! #### EMIT, CLEAR, HOME and SET_COLOUR on the good device -/

/-- EMIT on the good device answers the byte's value (R112). -/
theorem emit_good {s : State} (b : Byte) (hf : s.fsm = .ready) (hs : s.OnDevice)
    (hc : b = s.cfg.chCr ∨ b = s.cfg.chLf → s.cfg.cmd.setDdram = 0x80#8) :
    exec (.emit b) s
      = .next { s.responded [emitCall s.cfg b] (b.toNat : Int) .none with dev := s.dev.emitted s.cfg b } := by
  simp only [exec, execEmit, whenReady_ready hf]
  rw [emitWrite_device (s := accept (.emit b) s) Fixture.good_writesOk hs.link b hs.mode hs.valid hc, Run.bind_done]
  rfl

/-- Settles O50: EMIT's body is NEWLINE or one data write. -/
theorem emitOnTheDeviceStoresOneCell : Obligations.EmitOnTheDeviceStoresOneCell := by
  unfold Obligations.EmitOnTheDeviceStoresOneCell
  intro s b hf hs hwf hc
  refine ⟨_, emit_good b hf hs hc, ?_⟩
  by_cases hb : b = s.cfg.chCr ∨ b = s.cfg.chLf
  · rw [Device.emitted, if_pos ((isControl_iff _ _).2 hb)]
    exact ⟨rfl, fun _ => ⟨rfl, fun _ => rfl⟩, fun h1 h2 => absurd hb (by simp [h1, h2])⟩
  · rw [Device.emitted, if_neg (fun h => hb ((isControl_iff _ _).1 h))]
    exact ⟨rfl, fun h => absurd h hb,
      fun _ _ => ⟨rfl, Device.stored_cell_same b hwf, fun a ha => Device.stored_cell_other b ha⟩⟩

/-- Settles O54: the calls succeed, so the status is 0 and the diagnosis None. -/
theorem clearHomeAndColourOnTheDevice : Obligations.ClearHomeAndColourOnTheDevice := by
  unfold Obligations.ClearHomeAndColourOnTheDevice
  intro s hf hl
  refine ⟨fun hc => ?_, fun hh => ?_, ?_⟩
  · obtain ⟨p, τ, h⟩ := clearSeq_device (s := accept .clear s) Fixture.good_writesOk hl hc
    refine ⟨{ s.responded [.writeControl 0x01#8, .busyWait] 0 .none with so := 0#6, dev := s.dev.cleared }, ?_, rfl,
      fun _ => rfl⟩
    simp only [exec, execClear, whenReady_ready hf]
    rw [h, clearCalls, show (accept .clear s).cfg = s.cfg from rfl, hc]
    rfl
  · simp only [exec, execHome, whenReady_ready hf]
    rw [accept_cfg, writeControl_device (s := accept .home s) Fixture.good_writesOk hl
      (s.dev.control_of_decode (decodeCommand_home hh))]
    rfl
  · rintro name _ rfl
    obtain ⟨p, τ, h, hsum⟩ := pushColour_device
      (s := selectColour (channelsOf name) (accept (.setColour name) s)) Fixture.good_writesOk hl (channelsOf name)
    simp only [exec, execSetColour, whenReady_ready hf]
    rw [h, Run.bind_done, hsum]
    rfl

/-! #### CURSOR_MOVE and DISPLAY_SHIFT on the good device -/

theorem Device.iterate_mapAc (g : Addr → Addr) (n : Nat) (d : Device) : (Device.mapAc g)^[n] d = d.mapAc g^[n] := by
  induction n generalizing d with
  | zero => rfl
  | succ n ih => exact ih (d.mapAc g)

theorem Device.iterate_mapShift (g : BitVec 6 → BitVec 6) (n : Nat) (d : Device) :
    (Device.mapShift g)^[n] d = d.mapShift g^[n] := by
  induction n generalizing d with
  | zero => rfl
  | succ n ih => exact ih (d.mapShift g)

/-- The step command of CURSOR_MOVE, with the bytes of R81, moves the address one cell in the direction of `n` (R60). -/
theorem control_cursorByte (n : Int) (d : Device) :
    d.control (cursorByte Config.standard n) = .ok Reply.zero (d.mapAc (if 0 < n then incAddr else decAddr)) := by
  by_cases h : 0 < n
  · rw [cursorByte, if_pos ((isForward_iff n).2 h), if_pos h]
    rfl
  · rw [cursorByte, if_neg (fun hf => h ((isForward_iff n).1 hf)), if_neg h]
    rfl

/-- The step command of DISPLAY_SHIFT, with the bytes of R81, moves the shift one place in the direction of `n` (R60). -/
theorem control_shiftByte (n : Int) (d : Device) :
    d.control (shiftByte Config.standard n) = .ok Reply.zero (d.mapShift (moveShift (isForward n))) := by
  by_cases h : isForward n = true
  · rw [shiftByte, if_pos h, h]
    rfl
  · rw [shiftByte, if_neg h, Bool.eq_false_iff.2 h]
    rfl

/-- Settles O56: `|n|` steps in the direction of `n`, then the address read back. -/
theorem cursorMoveOnTheDeviceWalksTheCells : Obligations.CursorMoveOnTheDeviceWalksTheCells := by
  unfold Obligations.CursorMoveOnTheDeviceWalksTheCells
  intro s n a hf hl hcfg ha
  obtain ⟨p, τ, h⟩ := repeatControl_device
    (s := setTr (fun t => { t with k := magnitude n }) (accept (.cursorMove n) s)) Fixture.good_writesOk hl (control_cursorByte n) (magnitude n)
  have hac : (if 0 < n then incAddr else decAddr)^[magnitude n] s.dev.ac = a := by
    rw [ha]
    split
    · rfl
    · rfl
  refine ⟨List.replicate (magnitude n) (.writeControl (cursorByte Config.standard n)) ++ [.readAddress], ?_⟩
  simp only [exec, execCursorMove, whenReady_ready hf]
  rw [accept_cfg, hcfg, h, Run.bind_done, readAddress_good (by exact hl), Run.bind_done, Device.iterate_mapAc]
  simp [ret, respond, State.responded, setTr, issue, accept, Device.mapAc, hac]

/-- One step of the shift is one step of the accumulator, modulo 40 (R60, R131). -/
theorem moveShift_scrollReduce (n acc : Int) :
    moveShift (isForward n) (scrollReduce acc) = scrollReduce (acc + scrollDelta n) := by
  rw [moveShift_eq_scrollReduce, scrollReduce_toNat, scrollReduce_eq, scrollReduce_eq, Int.emod_add_emod, scrollDelta]

theorem moveShift_iterate_scrollReduce (n : Int) (k : Nat) (acc : Int) :
    (moveShift (isForward n))^[k] (scrollReduce acc) = scrollReduce (acc + k * scrollDelta n) := by
  induction k generalizing acc with
  | zero => simp
  | succ k ih =>
    rw [Function.iterate_succ_apply, moveShift_scrollReduce, ih]
    congr 1
    push_cast
    ring

/-- An offset below 40 is its own remainder. -/
theorem scrollReduce_of_lt {x : BitVec 6} (h : x.toNat < 40) : scrollReduce x.toNat = x := by
  apply BitVec.eq_of_toNat_eq
  have := scrollReduce_toNat x.toNat
  omega

/-- Settles O58: shift and accumulator take the same steps. -/
theorem scrollOffsetMirrorsTheDeviceShift : Obligations.ScrollOffsetMirrorsTheDeviceShift := by
  unfold Obligations.ScrollOffsetMirrorsTheDeviceShift
  intro s n hf hl hcfg hso hlt
  obtain ⟨p, τ, h, hacc⟩ := repeatShift_device
    (s := setTr (fun t => { t with acc := s.so.toNat, k := magnitude n }) (accept (.displayShift n) s))
    Fixture.good_writesOk hl (control_shiftByte n) (scrollDelta n) (magnitude n)
  have hshift : (moveShift (isForward n))^[magnitude n] s.dev.shift = scrollReduce ((s.so.toNat : Int) + n) := by
    have h := moveShift_iterate_scrollReduce n (magnitude n) s.so.toNat
    rw [scrollReduce_of_lt hlt, magnitude_mul_scrollDelta] at h
    rwa [← hso]
  have hread : τ.acc = (s.so.toNat : Int) + n := by
    rw [hacc, magnitude_mul_scrollDelta]
    rfl
  simp only [exec, execDisplayShift, whenReady_ready hf]
  rw [accept_cfg, accept_so, hcfg, h, Run.bind_done, Device.iterate_mapShift]
  refine ⟨_, rfl, rfl, ?_, ?_, rfl⟩
  · exact (congrArg scrollReduce hread).trans hshift.symm
  · exact (congrArg scrollReduce hread).trans (scrollReduce_eq _)

end Sys2Proof.Machine

/-! ### EMIT_WRAPPED on the good device: the text in the two visible rows (R107, R117) -/

namespace Sys2Proof.Machine

/-! #### Where the bytes of a wrapped text stand -/

/-- The cell of the wrapped text's byte number `m`: 16 in row 0, then row 1. -/
def wrapAddr (m : Nat) : Addr :=
  if m < 16 then BitVec.ofNat 7 m else BitVec.ofNat 7 (0x40 + (m - 16))

/-- The number of the wrapped text's byte that stands in a cell; 32, which is no byte's, for a cell of none. -/
def wrapIndex (a : Addr) : Nat :=
  if a.toNat < 16 then a.toNat else if 0x40 ≤ a.toNat ∧ a.toNat < 0x50 then 16 + (a.toNat - 0x40) else 32

theorem wrapAddr_toNat {m : Nat} (h : m ≤ 32) : (wrapAddr m).toNat = if m < 16 then m else 0x40 + (m - 16) := by
  rw [wrapAddr]
  split
  · simp; omega
  · simp; omega

theorem validAddr_wrapAddr : ∀ m < 32, validAddr (wrapAddr m) = true := by decide

theorem wrapIndex_wrapAddr : ∀ m < 32, wrapIndex (wrapAddr m) = m := by decide

theorem wrapAddr_wrapIndex : ∀ a : Addr, wrapIndex a < 32 → wrapAddr (wrapIndex a) = a := by decide

/-- After each byte but the 16th the device itself moves to the next byte's cell (R56). -/
theorem incAddr_wrapAddr : ∀ m < 32, m + 1 ≠ 16 → incAddr (wrapAddr m) = wrapAddr (m + 1) := by decide

/-- The device `d` is `d0` with the text `pre` in the two rows, every other cell blank, and the address behind the text. -/
structure Wrapped (d0 : Device) (pre : List Byte) (d : Device) : Prop where
  frame : d = { d0 with ac := wrapAddr pre.length, ddram := d.ddram }
  wf    : d.ddram.wf
  cells : ∀ a, d.cell a = pre.getD (wrapIndex a) 0x20#8

theorem Wrapped.cleared (d : Device) : Wrapped d.cleared [] d.cleared :=
  ⟨rfl, Memory.wf_nil, fun _ => rfl⟩

theorem Wrapped.ac {d0 d : Device} {pre : List Byte} (h : Wrapped d0 pre d) : d.ac = wrapAddr pre.length := by
  rw [h.frame]

theorem Wrapped.modeOk {d0 d : Device} {pre : List Byte} (h : Wrapped d0 pre d) : d.modeOk = d0.modeOk := by
  rw [h.frame]
  rfl

/-- The next byte in its cell, and the address moved behind it. -/
theorem Wrapped.snoc {d0 d : Device} {pre : List Byte} (h : Wrapped d0 pre d) (hlt : pre.length < 32) (b : Byte) :
    Wrapped d0 (pre ++ [b]) { d.stored b with ac := wrapAddr (pre.length + 1) } := by
  refine ⟨?_, Device.stored_wf b h.wf, fun a => ?_⟩
  · rw [h.frame, List.length_append]
    rfl
  · by_cases ha : a = d.ac
    · rw [ha]
      refine (Device.stored_cell_same b h.wf).trans ?_
      simp [h.ac, wrapIndex_wrapAddr _ hlt]
    · refine (Device.stored_cell_other b ha).trans ((h.cells a).trans ?_)
      have hne : wrapIndex a ≠ pre.length := fun hi =>
        ha (by rw [h.ac, ← hi, wrapAddr_wrapIndex a (by omega)])
      rcases Nat.lt_or_gt_of_ne hne with hi | hi
      · rw [List.getD_append _ _ _ _ hi]
      · rw [List.getD_eq_default _ _ (by omega), List.getD_eq_default _ _ (by simp; omega)]

/-! #### The writes -/

section
variable {fx : Fixture} {s : State} (hfx : fx.WritesOk) (hl : s.link = .device fx) (hc : s.cfg.cmd.setDdram = 0x80#8)
include hfx hl hc

/-- The forced newline after the 16th byte (R117). -/
theorem wrapAfter_device : ∃ p, wrapAfter s = .done ()
    { s with
      calls := s.calls ++ (if s.tr.j + 1 = 16 then [.writeControl (setAddressByte s.cfg.cmd Config.row1Start)] else []),
      pos := p, dev := { s.dev with ac := if s.tr.j + 1 = 16 then Config.row1Start else s.dev.ac } } := by
  rw [wrapAfter, show Config.lcdLength = 16 from rfl]
  by_cases hj : s.tr.j + 1 = 16
  · rw [if_pos hj, newline, writeControl_device hfx hl (control_setAddress _ hc (by decide)), Run.bind_done, if_pos hj,
      if_pos hj]
    exact ⟨_, rfl⟩
  · rw [if_neg hj, if_neg hj, if_neg hj, List.append_nil]
    exact ⟨s.pos, rfl⟩

/-- One byte of the text, and the newline where it is the 16th. -/
theorem writeWrapped_cons_device (b : Byte) (bs : List Byte) (hm : s.dev.modeOk = true) (hv : validAddr s.dev.ac = true) :
    ∃ t, writeWrapped (b :: bs) s = writeWrapped bs t
      ∧ t = { s with
          calls := s.calls ++ (.writeData b ::
            if s.tr.j + 1 = 16 then [.writeControl (setAddressByte s.cfg.cmd Config.row1Start)] else []),
          pos := t.pos, tr := { s.tr with j := s.tr.j + 1 },
          dev := { s.dev.stored b with ac := if s.tr.j + 1 = 16 then Config.row1Start else incAddr s.dev.ac } } := by
  obtain ⟨p, h⟩ := wrapAfter_device (s := answered (.writeData b) (s.dev.stored b) s) hfx hl hc
  rw [writeWrapped, writeData_device hfx hl b hm hv, Run.bind_done, h, Run.bind_done]
  exact ⟨_, rfl, by simp [setTr, answered, issue]⟩

end

/-- The rest of the text, written after `pre`. -/
theorem writeWrapped_device {fx : Fixture} (hfx : fx.WritesOk) {d0 : Device} (hm : d0.modeOk = true) (bs : List Byte) :
    ∀ (pre : List Byte) (s : State), s.link = .device fx → s.cfg.cmd.setDdram = 0x80#8 → s.tr.j = pre.length →
      Wrapped d0 pre s.dev → pre.length + bs.length ≤ 32 →
      ∃ p τ d, writeWrapped bs s = .done ()
          { s with calls := s.calls ++ wrapFrom s.cfg s.tr.j bs, pos := p, tr := τ, dev := d }
        ∧ Wrapped d0 (pre ++ bs) d ∧ τ.m = s.tr.m := by
  induction bs with
  | nil => exact fun pre s _ _ _ hw _ => ⟨s.pos, s.tr, s.dev, by simp [writeWrapped, wrapFrom], by simpa using hw, rfl⟩
  | cons b bs ih =>
    intro pre s hl hc hj hw hlen
    rw [List.length_cons] at hlen
    have hlt : pre.length < 32 := by omega
    have hv : validAddr s.dev.ac = true := hw.ac ▸ validAddr_wrapAddr _ hlt
    obtain ⟨t, h1, ht⟩ := writeWrapped_cons_device hfx hl hc b bs (hw.modeOk.trans hm) hv
    have hac : (if s.tr.j + 1 = 16 then Config.row1Start else incAddr s.dev.ac) = wrapAddr (pre.length + 1) := by
      rw [hj, hw.ac]
      split
      · rw [‹pre.length + 1 = 16›]
        rfl
      · exact incAddr_wrapAddr _ hlt ‹_›
    have hw1 : Wrapped d0 (pre ++ [b]) t.dev := by
      rw [ht, hac]
      exact hw.snoc hlt b
    obtain ⟨p, τ, d, h2, h3, h4⟩ := ih (pre ++ [b]) t (by rw [ht]; exact hl) (by rw [ht]; exact hc)
      (by rw [ht]; simp [hj]) hw1 (by simp; omega)
    refine ⟨p, τ, d, ?_, by simpa using h3, h4.trans (by rw [ht])⟩
    rw [h1, h2, ht]
    simp [wrapFrom]

/-- EMIT_WRAPPED on the good device: the clear, then the wrapped text (R117). -/
theorem emitWrapped_good {s : State} (str : List Byte) (hf : s.fsm = .ready) (hl : s.link = .device .good)
    (hs : s.dev.sdisp = false) (hclear : s.cfg.cmd.clear = 0x01#8) (hset : s.cfg.cmd.setDdram = 0x80#8) :
    ∃ d, exec (.emitWrapped str) s = .next
        { s.responded (clearCalls s.cfg ++ wrapCalls s.cfg (str.take 32)) ((str.take 32).length : Nat) .none with
          so := 0#6, dev := d }
      ∧ Wrapped s.dev.cleared (str.take 32) d := by
  have hmode : s.dev.cleared.modeOk = true := by simp [Device.modeOk, Device.cleared, hs]
  obtain ⟨p1, τ1, h1⟩ := clearSeq_device (s := accept (.emitWrapped str) s) Fixture.good_writesOk hl hclear
  obtain ⟨p2, τ2, d, h2, hd, hm⟩ := writeWrapped_device Fixture.good_writesOk hmode (str.take 32) []
    (loadBuffer (str.take 32) { accept (.emitWrapped str) s with
      calls := s.calls ++ clearCalls s.cfg, pos := p1, tr := τ1, so := 0#6, dev := s.dev.cleared })
    hl hset rfl (Wrapped.cleared s.dev) (by simp)
  refine ⟨d, ?_, hd⟩
  simp only [exec, execEmitWrapped, whenReady_ready hf, h1, Run.bind_done]
  refine (congrArg finish (Run.bind_of_done _ h2)).trans ?_
  rw [hm]
  simp [ret, respond, State.responded, wrapFrom_zero]

/-- Settles O53: the cells, the address and the frame of the device that holds the wrapped text. -/
theorem emitWrappedOnTheDeviceFillsTwoRows : Obligations.EmitWrappedOnTheDeviceFillsTwoRows := by
  unfold Obligations.EmitWrappedOnTheDeviceFillsTwoRows
  intro s str m hf hl hs hclear hset hm
  have hlen : (str.take 32).length = m := by rw [hm, List.length_take, Nat.min_comm]
  obtain ⟨d, h, hd⟩ := emitWrapped_good str hf hl hs hclear hset
  have hac : d.ac = wrapAddr m := hd.ac.trans (congrArg wrapAddr hlen)
  refine ⟨_, h, by rw [hlen]; rfl, rfl, rfl, rfl, hf, rfl, ?_, ?_, fun a => (hd.cells a).trans ?_⟩
  · exact congrArg Device.shift hd.frame
  · refine (congrArg BitVec.toNat hac).trans ((wrapAddr_toNat (by omega)).trans ?_)
    simp only [Nat.lt_succ_iff]
  · rw [wrapIndex]
    split
    · rfl
    · split
      · rfl
      · exact List.getD_eq_default _ _ (by omega)

end Sys2Proof.Machine

/-! ### INIT's self-test on the reference device (R63, R107, R143 to R146) -/

namespace Sys2Proof.Machine

/-! #### The cells in the order of the self-test -/

theorem validAddr_addrLin : ∀ c < 80, validAddr (addrLin c) = true := by decide

theorem lin_addrLin : ∀ c < 80, lin (addrLin c) = c := by decide

/-- The device moves through the cells in the order of their numbers, and from the last to the first (R56, R104). -/
theorem incAddr_addrLin : ∀ c < 80, incAddr (addrLin c) = addrLin ((c + 1) % 80) := by decide

theorem addrLin_inj {c e : Nat} (hc : c < 80) (he : e < 80) (h : addrLin c = addrLin e) : c = e := by
  rw [← lin_addrLin c hc, h, lin_addrLin e he]

/-! #### What the iterations leave on the device -/

/-- The device after one iteration of the self-test: the byte in the cell at the address, which is written, stepped back to,
and read (R143). -/
def Device.tested (b : Byte) (d : Device) : Device :=
  { d.stored b with rdCount := d.rdCount + 1 }

/-- The device `d` is `d0`, which was at address 0, after `i` iterations: each of the last 80 has left its byte in its
cell. -/
structure Tested (cfg : Config) (d0 : Device) (i : Nat) (d : Device) : Prop where
  frame : d = { d0 with ac := addrLin (i % 80), ddram := d.ddram, rdCount := d0.rdCount + i }
  wf    : d.ddram.wf
  cells : ∀ k, k < i → i ≤ k + 80 → d.cell (addrLin (k % 80)) = testByte cfg k

theorem Tested.start (cfg : Config) (d : Device) : Tested cfg d.cleared 0 d.cleared :=
  ⟨rfl, Memory.wf_nil, fun _ h => absurd h (by simp)⟩

theorem Tested.ac {cfg : Config} {d0 d : Device} {i : Nat} (h : Tested cfg d0 i d) : d.ac = addrLin (i % 80) := by
  rw [h.frame]

theorem Tested.valid {cfg : Config} {d0 d : Device} {i : Nat} (h : Tested cfg d0 i d) : validAddr d.ac = true := by
  rw [h.ac]
  exact validAddr_addrLin _ (by omega)

theorem Tested.modeOk {cfg : Config} {d0 d : Device} {i : Nat} (h : Tested cfg d0 i d) : d.modeOk = d0.modeOk := by
  rw [h.frame]
  rfl

theorem Tested.rdCount {cfg : Config} {d0 d : Device} {i : Nat} (h : Tested cfg d0 i d) : d.rdCount = d0.rdCount + i := by
  rw [h.frame]

/-- One more iteration overwrites the byte of the iteration 80 before it, if there was one. -/
theorem Tested.next {cfg : Config} {d0 d : Device} {i : Nat} (h : Tested cfg d0 i d) :
    Tested cfg d0 (i + 1) (d.tested (testByte cfg i)) := by
  refine ⟨?_, Device.stored_wf _ h.wf, fun k hk hk80 => ?_⟩
  · rw [Device.tested, Device.stored, h.ac, incAddr_addrLin _ (by omega), h.rdCount, h.frame]
    simp [Nat.add_assoc]
  · by_cases hki : k = i
    · rw [hki, ← h.ac]
      exact Device.stored_cell_same _ h.wf
    · have hne : addrLin (k % 80) ≠ d.ac := fun he => by
        have := addrLin_inj (by omega) (by omega) (he.trans h.ac)
        omega
      exact (Device.stored_cell_other _ hne).trans (h.cells k (by omega) (by omega))

/-! #### The loop -/

/-- The step back after a write returns to the cell written (R56), and the read moves on from there. -/
theorem Device.stored_back_fetched {d : Device} (b : Byte) (h : validAddr d.ac = true) :
    ((d.stored b).mapAc decAddr).ac = d.ac ∧ ((d.stored b).mapAc decAddr).fetched = d.tested b := by
  have hac : decAddr (incAddr d.ac) = d.ac := decAddr_incAddr d.ac h
  exact ⟨hac, congrArg (fun a => { d.tested b with ac := incAddr a }) hac⟩

/-- One iteration: the byte written stands in the cell read, so only the fixture can spoil the match. -/
theorem selfTestRound_device {fx : Fixture} {s : State} {d0 : Device} (hfx : fx.WritesOk) (hl : s.link = .device fx)
    (hc : s.cfg.cmd.cursorLeft = 0x10#8) (hm : d0.modeOk = true) (hd : Tested s.cfg d0 s.tr.i s.dev) :
    ∃ p τ, selfTestRound s = .done ()
        { s with
          calls := s.calls ++ roundCalls s.cfg s.tr.i, pos := p, tr := τ, dev := s.dev.tested (testByte s.cfg s.tr.i) }
      ∧ τ.i = s.tr.i + 1
      ∧ τ.cnt = if selfTestMatch s.tr.i (testByte s.cfg s.tr.i)
          (fx.readByte (d0.rdCount + s.tr.i) (testByte s.cfg s.tr.i)) then s.tr.cnt + 1 else s.tr.cnt := by
  have hmode : s.dev.modeOk = true := hd.modeOk.trans hm
  obtain ⟨b, hb⟩ : ∃ b, b = testByte s.cfg s.tr.i := ⟨_, rfl⟩
  obtain ⟨hback, hfetched⟩ := Device.stored_back_fetched b hd.valid
  have hread : ((s.dev.stored b).mapAc decAddr).cell s.dev.ac = b := Device.stored_cell_same b hd.wf
  have hleft : (s.dev.stored b).control s.cfg.cmd.cursorLeft = .ok Reply.zero ((s.dev.stored b).mapAc decAddr) := by
    rw [hc]
    rfl
  have h1 := writeData_device (s := loadTestByte s) hfx hl b hmode hd.valid
  have h2 := writeControl_device (s := answered (.writeData b) (s.dev.stored b) (loadTestByte s)) hfx hl hleft
  have h3 := readData_device (s := answered (.writeControl s.cfg.cmd.cursorLeft) ((s.dev.stored b).mapAc decAddr)
    (answered (.writeData b) (s.dev.stored b) (loadTestByte s))) hfx
    (by simpa using hl) (by simpa using hmode) (by rw [answered_dev, hback]; exact hd.valid)
  simp only [answered_dev, hfetched, hback, hread] at h3
  have hrun : selfTestRound s = .done () (countMatch (fx.readByte s.dev.rdCount b) (answered .readData (s.dev.tested b)
      (answered (.writeControl s.cfg.cmd.cursorLeft) ((s.dev.stored b).mapAc decAddr)
        (answered (.writeData b) (s.dev.stored b) (loadTestByte s))))) := by
    rw [selfTestRound, ← hb]
    exact (Run.bind_of_done _ h1).trans ((Run.bind_of_done _ h2).trans (Run.bind_of_done _ h3))
  rw [← hd.rdCount, hrun, hb]
  exact ⟨_, _, by simp [countMatch, setTr, answered, issue, loadTestByte, roundCalls, testByte]; exact ⟨rfl, rfl⟩,
    rfl, rfl⟩

/-- `n` iterations; `cnt` counts the reads that the fixture has not spoiled. -/
theorem selfTestLoop_device {fx : Fixture} {d0 : Device} (hfx : fx.WritesOk) (hm : d0.modeOk = true) (n : Nat) :
    ∀ s : State, s.link = .device fx → s.cfg.cmd.cursorLeft = 0x10#8 → Tested s.cfg d0 s.tr.i s.dev →
      ∃ p τ d, selfTestLoop n s = .done ()
          { s with
            calls := s.calls ++ (List.range' s.tr.i n).flatMap (roundCalls s.cfg), pos := p, tr := τ, dev := d }
        ∧ Tested s.cfg d0 (s.tr.i + n) d
        ∧ τ.cnt = s.tr.cnt + (List.range' s.tr.i n).countP (fun k =>
            selfTestMatch k (testByte s.cfg k) (fx.readByte (d0.rdCount + k) (testByte s.cfg k))) := by
  induction n with
  | zero => exact fun s _ _ hd => ⟨s.pos, s.tr, s.dev, by simp [selfTestLoop], hd, rfl⟩
  | succ n ih =>
    intro s hl hc hd
    obtain ⟨p1, τ1, h1, hi, hcnt⟩ := selfTestRound_device hfx hl hc hm hd
    obtain ⟨p, τ, d, h2, h3, h4⟩ := ih
      { s with
        calls := s.calls ++ roundCalls s.cfg s.tr.i, pos := p1, tr := τ1, dev := s.dev.tested (testByte s.cfg s.tr.i) }
      hl hc (by rw [hi]; exact hd.next)
    simp only [hi] at h2 h3 h4
    refine ⟨p, τ, d, ?_, ?_, ?_⟩
    · rw [selfTestLoop, h1, Run.bind_done, h2]
      simp [List.range'_succ]
    · rwa [show s.tr.i + (n + 1) = s.tr.i + 1 + n by omega]
    · rw [h4, hcnt, List.range'_succ, List.countP_cons]
      split <;> omega

/-! #### INIT with the standard record -/

/-- The mode programming does the effects of its four commands, one after the other (R142). -/
theorem programModes_device {fx : Fixture} {s : State} (hfx : fx.WritesOk) (hl : s.link = .device fx)
    {f1 f2 f3 f4 : Device → Device} (h1 : ∀ d : Device, d.control s.cfg.cmd.bootstrap = .ok Reply.zero (f1 d))
    (h2 : ∀ d : Device, d.control s.cfg.cmd.functionSet = .ok Reply.zero (f2 d))
    (h3 : ∀ d : Device, d.control s.cfg.cmd.displayCtrl = .ok Reply.zero (f3 d))
    (h4 : ∀ d : Device, d.control s.cfg.cmd.entryMode = .ok Reply.zero (f4 d)) :
    ∃ p, programModes s = .done ()
      { s with
        calls := s.calls ++ [.writeControl s.cfg.cmd.bootstrap, .writeControl s.cfg.cmd.functionSet,
          .writeControl s.cfg.cmd.displayCtrl, .writeControl s.cfg.cmd.entryMode],
        pos := p, dev := f4 (f3 (f2 (f1 s.dev))) } := by
  have hstep {t : State} {b : Byte} {f : Device → Device} (ht : t.link = s.link)
      (h : ∀ d : Device, d.control b = .ok Reply.zero (f d)) :
      writeControl b t = .done 0 (answered (.writeControl b) (f t.dev) t) := writeControl_device hfx (ht.trans hl) (h _)
  rw [programModes, hstep rfl h1, Run.bind_done, answered_cfg, hstep (by simp) h2, Run.bind_done, answered_cfg,
    answered_cfg, hstep (by simp) h3, Run.bind_done, answered_cfg, answered_cfg, answered_cfg, hstep (by simp) h4,
    Run.bind_done]
  exact ⟨_, by simp [answered, issue]; rfl⟩

/-- The device after INIT's mode programming with the bytes of R81: at address 0, in the modes of R26. -/
def Device.programmed (d : Device) : Device :=
  { d with ac := 0x00#7, shift := 0#6, idinc := true, sdisp := false, dcb := 0b111#3, fn := 0b010#3 }

/-- INIT up to the end of its self-test (R149): the calls made, the device left, and what the match count decides. -/
theorem initPhases_device {fx : Fixture} {s : State} (hfx : fx.WritesOk) (hl : s.link = .device fx)
    (hcmd : s.cfg.cmd = Cmd.standard) :
    ∃ p τ d, (initPhases s
        = if τ.cnt = 80 then
            initPass { s with calls := s.calls ++ initCalls s.cfg, so := 0#6, pos := p, tr := τ, dev := d }
          else initFail { s with calls := s.calls ++ initCalls s.cfg, so := 0#6, pos := p, tr := τ, dev := d })
      ∧ Tested s.cfg s.dev.programmed.cleared 81 d
      ∧ (τ.cnt = 80 ↔ ∀ k, k < 80 → fx.readByte (s.dev.rdCount + k) (testByte s.cfg k) = testByte s.cfg k) := by
  obtain ⟨p1, h1⟩ : ∃ p, programModes s = .done ()
      { s with
        calls := s.calls ++ [.writeControl s.cfg.cmd.bootstrap, .writeControl s.cfg.cmd.functionSet,
          .writeControl s.cfg.cmd.displayCtrl, .writeControl s.cfg.cmd.entryMode],
        pos := p, dev := s.dev.programmed } :=
    programModes_device (f1 := fun d => { d with ac := 0x00#7, shift := 0#6 }) (f2 := fun d => { d with fn := 0b010#3 })
      (f3 := fun d => { d with dcb := 0b111#3 }) (f4 := fun d => { d with idinc := true, sdisp := false }) hfx hl
      (fun d => by rw [hcmd]; rfl) (fun d => by rw [hcmd]; rfl) (fun d => by rw [hcmd]; rfl) (fun d => by rw [hcmd]; rfl)
  obtain ⟨p2, τ2, h2⟩ := clearSeq_device
    (s := { s with
      calls := s.calls ++ [.writeControl s.cfg.cmd.bootstrap, .writeControl s.cfg.cmd.functionSet,
        .writeControl s.cfg.cmd.displayCtrl, .writeControl s.cfg.cmd.entryMode],
      pos := p1, dev := s.dev.programmed }) hfx hl (by rw [hcmd]; rfl)
  obtain ⟨p3, τ3, d, h3, hd, hcnt⟩ := selfTestLoop_device (d0 := s.dev.programmed.cleared) hfx rfl 81
    (setTr (fun t => { t with cnt := 0, i := 0 })
      { s with
        calls := s.calls ++ [.writeControl s.cfg.cmd.bootstrap, .writeControl s.cfg.cmd.functionSet,
          .writeControl s.cfg.cmd.displayCtrl, .writeControl s.cfg.cmd.entryMode] ++ clearCalls s.cfg,
        pos := p2, tr := τ2, so := 0#6, dev := s.dev.programmed.cleared })
    hl (by exact congrArg Cmd.cursorLeft hcmd) (Tested.start _ _)
  refine ⟨p3, τ3, d, ?_, hd, ?_⟩
  · refine (Run.bind_of_done _ h1).trans ((Run.bind_of_done _ h2).trans ((Run.bind_of_done _ h3).trans ?_))
    simp only [show Config.selfTestPass = 80 from rfl]
    simp [initCalls, List.range_eq_range', setTr]
  · rw [hcnt, setTr_tr, setTr_cfg, Nat.zero_add, ← List.range_eq_range',
      show List.range 81 = List.range 80 ++ [80] from rfl, List.countP_append, show List.countP _ [80] = 0 from rfl,
      Nat.add_zero, countP_range_eq]
    refine forall_congr' fun k => imp_congr_right fun hk => ?_
    rw [selfTestMatch_iff]
    exact and_iff_right hk

/-- Settles O60: the spoiled read is no match, so the test fails, and the test pattern stays. -/
theorem initOnABadDeviceLeavesThePattern : Obligations.InitOnABadDeviceLeavesThePattern := by
  unfold Obligations.InitOnABadDeviceLeavesThePattern
  intro s calls i hf hl hcfg hi hbad
  obtain ⟨p, τ, d, h, hd, hcnt⟩ := initPhases_device (s := { accept .init s with fsm := .selfTesting })
    (Fixture.bad_writesOk calls) hl (by exact congrArg Config.cmd hcfg)
  have hfail : τ.cnt ≠ 80 := fun h80 => (Fixture.readByte_bad_eq_iff calls _ _).1 (hcnt.1 h80 i hi) hbad
  have hcell (k : Nat) (hk : k < 81) (hk0 : 1 ≤ k) : d.cell (addrLin (k % 80)) = BitVec.ofNat 8 (0x30 + k) := by
    rw [hd.cells k hk (by omega), accept_cfg, hcfg, BitVec.ofNat_add]
    rfl
  rw [if_neg hfail] at h
  have hexec : exec .init s = .next { s.responded (initCalls s.cfg) (-1) .selfTestFailure with
      so := 0#6, fsm := .uninitialized, dev := d } := by
    simp only [exec, execInit, if_neg hf, h]
    rfl
  refine ⟨_, hexec, by rw [State.responded, hcfg]; rfl, rfl, rfl, rfl, rfl, rfl, hd.ac, hcell 80 (by omega) (by omega),
    fun j hj hj80 => ?_⟩
  refine Eq.trans ?_ (hcell j (by omega) hj)
  rw [Nat.mod_eq_of_lt hj80]

end Sys2Proof.Machine

/-! ### Accepted bytes, command bytes, and the bytes the block sends (R71 to R74, R78 to R82, R84, R93) -/

namespace Sys2Proof

/-! #### What the decoder accepts is the encoding of what it answers -/

/-- The length field of a format S body is written as it was read (R73). -/
theorem lowByte_highByte_halfOf (lo hi : Byte) : lowByte (halfOf lo hi) = lo ∧ highByte (halfOf lo hi) = hi :=
  ⟨BitVec.extractLsb'_append_eq_right, BitVec.extractLsb'_append_eq_left⟩

theorem decodeB_bytes {mk : Byte → Instr} {bs : List Byte} {i : Instr} {rest : List Byte}
    (h : decodeB mk bs = .ok (i, rest)) : ∃ b, i = mk b ∧ bs = b :: rest := by
  unfold decodeB at h
  split at h
  · cases h
    exact ⟨_, rfl, rfl⟩
  · cases h

theorem decodeRC_bytes {mk : Byte → Byte → Instr} {bs : List Byte} {i : Instr} {rest : List Byte}
    (h : decodeRC mk bs = .ok (i, rest)) : ∃ row col, i = mk row col ∧ bs = row :: col :: rest := by
  unfold decodeRC at h
  split at h
  · cases h
    exact ⟨_, _, rfl, rfl⟩
  · cases h

/-- A code that names a colour is that colour's code (R77). -/
theorem codeOfColour_of_colourOfCode {cc : ColourCodes} {c : BitVec 3} {name : ColourName}
    (h : colourOfCode cc c = some name) : codeOfColour cc name = c := by
  unfold colourOfCode at h
  iterate 8
    rw [ite_eq_iff] at h
    obtain ⟨rfl, h⟩ | ⟨-, h⟩ := h
    · cases h
      rfl
  cases h

theorem decodeC_bytes {cfg : Config} {mk : ColourName → Instr} {bs : List Byte} {i : Instr} {rest : List Byte}
    (h : decodeC cfg mk bs = .ok (i, rest)) : ∃ name, i = mk name ∧ bs = (0#5 ++ codeOfColour cfg.colours name) :: rest := by
  have hbits (b : Byte) (hb : b.extractLsb' 3 5 = 0#5) : b = 0#5 ++ b.extractLsb' 0 3 := by
    revert b
    decide
  unfold decodeC at h
  split at h
  · split at h
    · rename_i hb
      split at h
      · rename_i hname
        cases h
        refine ⟨_, rfl, ?_⟩
        rw [codeOfColour_of_colourOfCode hname, ← hbits _ hb]
      · cases h
    · cases h
  · cases h

/-- A format S body is the length and the bytes of the string it holds. -/
theorem decodeS_bytes {mk : List Byte → Instr} {bs : List Byte} {i : Instr} {rest : List Byte}
    (h : decodeS mk bs = .ok (i, rest)) : ∃ str, i = mk str ∧ bs = encodeS str ++ rest := by
  unfold decodeS at h
  split at h
  · rename_i lo hi body
    split at h
    · cases h
    · rename_i hlong
      split at h
      · cases h
        refine ⟨_, rfl, ?_⟩
        have hlen : BitVec.ofNat 16 (body.take (halfOf lo hi).toNat).length = halfOf lo hi := by
          rw [List.length_take_of_le (Nat.le_of_not_lt hlong), BitVec.ofNat_toNat, BitVec.setWidth_eq]
        obtain ⟨hlo, hhi⟩ := lowByte_highByte_halfOf lo hi
        simp only [encodeS, hlen, hlo, hhi, List.cons_append, List.take_append_drop]
      · cases h
  · cases h

/-- The bytes the request decoder read are the encoding of the request it answers. -/
theorem decode_bytes {cfg : Config} {bs : List Byte} {i : Instr} {rest : List Byte}
    (h : decode cfg bs = .ok (i, rest)) : bs = encode cfg i ++ rest := by
  cases bs with
  | nil => cases h
  | cons op bs =>
    simp only [decode] at h
    rw [ite_eq_iff] at h; obtain ⟨rfl, h⟩ | ⟨-, h⟩ := h
    · cases h; rfl
    rw [ite_eq_iff] at h; obtain ⟨rfl, h⟩ | ⟨-, h⟩ := h
    · cases h; rfl
    rw [ite_eq_iff] at h; obtain ⟨rfl, h⟩ | ⟨-, h⟩ := h
    · cases h; rfl
    rw [ite_eq_iff] at h; obtain ⟨rfl, h⟩ | ⟨-, h⟩ := h
    · obtain ⟨b, rfl, rfl⟩ := decodeB_bytes h; rfl
    rw [ite_eq_iff] at h; obtain ⟨rfl, h⟩ | ⟨-, h⟩ := h
    · cases h; rfl
    rw [ite_eq_iff] at h; obtain ⟨rfl, h⟩ | ⟨-, h⟩ := h
    · obtain ⟨str, rfl, rfl⟩ := decodeS_bytes h; rfl
    rw [ite_eq_iff] at h; obtain ⟨rfl, h⟩ | ⟨-, h⟩ := h
    · obtain ⟨str, rfl, rfl⟩ := decodeS_bytes h; rfl
    rw [ite_eq_iff] at h; obtain ⟨rfl, h⟩ | ⟨-, h⟩ := h
    · obtain ⟨n, -, rfl, rfl⟩ := decodeW_ok h; rfl
    rw [ite_eq_iff] at h; obtain ⟨rfl, h⟩ | ⟨-, h⟩ := h
    · obtain ⟨row, col, rfl, rfl⟩ := decodeRC_bytes h; rfl
    rw [ite_eq_iff] at h; obtain ⟨rfl, h⟩ | ⟨-, h⟩ := h
    · obtain ⟨n, -, rfl, rfl⟩ := decodeW_ok h; rfl
    rw [ite_eq_iff] at h; obtain ⟨rfl, h⟩ | ⟨-, h⟩ := h
    · obtain ⟨name, rfl, rfl⟩ := decodeC_bytes h; rfl
    cases h -- a reserved opcode is rejected

/-- Settles O8. -/
theorem acceptedBytesAreTheEncoding : Obligations.AcceptedBytesAreTheEncoding := by
  unfold Obligations.AcceptedBytesAreTheEncoding
  intro cfg bs i rest h
  obtain ⟨hi, hw⟩ := decode_request h
  exact ⟨hi, hw, decode_bytes h⟩

/-! #### The command bytes -/

theorem decodeCommand_setDdramByte (a : Addr) : decodeCommand (setDdramByte a) = .ok (.setDdram a) := by
  revert a
  decide

/-- A command's instruction encodes to one byte, of that command's class (R80, R81). -/
theorem decodeCommand_encode_toInstr (cfg : Config) (c : Command) :
    ∃ b, encode cfg c.toInstr = [b] ∧ decodeCommand b = .ok c := by
  cases c with
  | clear => exact ⟨_, rfl, by decide⟩
  | home => exact ⟨_, rfl, by decide⟩
  | entryMode inc shift => exact ⟨_, rfl, by revert inc shift; decide⟩
  | displayCtrl disp cursor blink => exact ⟨_, rfl, by revert disp cursor blink; decide⟩
  | cursorShift right => cases right <;> exact ⟨_, rfl, by decide⟩
  | displayShift right => cases right <;> exact ⟨_, rfl, by decide⟩
  | functionSet len lines font => exact ⟨_, rfl, by revert len lines font; decide⟩
  | setDdram a => exact ⟨_, rfl, decodeCommand_setDdramByte a⟩

/-- Every device command but CMD_BOOTSTRAP is the instruction of a class. -/
theorem exists_toInstr_eq {i : Instr} (hi : i.isRequest = false) (hb : i ≠ .cmdBootstrap) :
    ∃ c : Command, c.toInstr = i := by
  cases i with
  | cmdClear => exact ⟨.clear, rfl⟩
  | cmdHome => exact ⟨.home, rfl⟩
  | cmdBootstrap => exact absurd rfl hb
  | cmdEntryMode inc shift => exact ⟨.entryMode inc shift, rfl⟩
  | cmdDisplayCtrl disp cursor blink => exact ⟨.displayCtrl disp cursor blink, rfl⟩
  | cmdCursorLeft => exact ⟨.cursorShift false, rfl⟩
  | cmdCursorRight => exact ⟨.cursorShift true, rfl⟩
  | cmdShiftLeft => exact ⟨.displayShift false, rfl⟩
  | cmdShiftRight => exact ⟨.displayShift true, rfl⟩
  | cmdFunctionSet len lines font => exact ⟨.functionSet len lines font, rfl⟩
  | cmdSetDdram a => exact ⟨.setDdram a, rfl⟩
  | _ => cases hi -- a request is no device command

/-- Settles O9: a device command other than CMD_BOOTSTRAP is the instruction of a class, whose byte reads back. -/
theorem commandByteDecodesToItself : Obligations.CommandByteDecodesToItself := by
  unfold Obligations.CommandByteDecodesToItself
  refine ⟨fun cfg i hi hb => ?_, _, .home, rfl, by decide, rfl⟩
  obtain ⟨c, hc⟩ := exists_toInstr_eq hi hb
  obtain ⟨b, hbyte, hd⟩ := decodeCommand_encode_toInstr cfg c
  exact ⟨b, c, hc ▸ hbyte, hd, hc⟩

/-- Settles O10, by running the two decoders. -/
theorem spelledOutWordsDecode : Obligations.SpelledOutWordsDecode := by
  unfold Obligations.SpelledOutWordsDecode
  exact ⟨rfl, rfl, rfl, rfl, rfl, rfl, rfl, rfl, rfl, rfl⟩

end Sys2Proof

namespace Sys2Proof.Machine

/-! #### The cells and their set-address bytes -/

/-- The cells are the two rows of 40 (R103). -/
theorem validAddr_iff (a : Addr) : validAddr a = true ↔ a.toNat ≤ 0x27 ∨ (0x40 ≤ a.toNat ∧ a.toNat ≤ 0x67) := by
  revert a
  decide

/-- `addr_of` on the columns CURSOR_GOTO lets through (R101). -/
theorem addrOf_toNat (row : Byte) {col : Byte} (hc : col.toNat ≤ 39) :
    (addrOf row col).toNat = if row = 0#8 then col.toNat else 0x40 + col.toNat := by
  unfold addrOf
  split
  · rw [BitVec.toNat_setWidth]
    omega
  · rw [BitVec.toNat_add, BitVec.toNat_setWidth, show Config.row1Start.toNat = 0x40 from rfl]
    omega

theorem validAddr_addrOf (row : Byte) {col : Byte} (hc : col.toNat ≤ 39) : validAddr (addrOf row col) = true := by
  rw [validAddr_iff, addrOf_toNat row hc]
  split <;> omega

theorem setDdramByte_toNat (a : Addr) : (setDdramByte a).toNat = 0x80 + a.toNat := by
  revert a
  decide

/-- Settles O12: the command is the device's set-DDRAM-address byte. -/
theorem setAddressByteIsOneThenTheAddress : Obligations.SetAddressByteIsOneThenTheAddress := by
  unfold Obligations.SetAddressByteIsOneThenTheAddress
  intro cmd a h
  rw [setAddressByte_eq h, setDdramByte_toNat]
  refine ⟨rfl, rfl, decodeCommand_setDdramByte a, fun ha => ?_⟩
  have hcell := (validAddr_iff a).1 ha
  omega

/-! #### The step at the request port -/

/-- Settles O3. -/
theorem stepRunsTheDecodedRequest : Obligations.StepRunsTheDecodedRequest := by
  unfold Obligations.StepRunsTheDecodedRequest
  intro s i rest ho hd
  cases hp : s.port with
  | nil => rw [hp] at hd; cases hd
  | cons b bs =>
    rw [hp] at hd
    simp [step, fetch, fetchRequest, ho.noReset, ho.notBusy, ho.noCommand, hp, hd]

/-! #### The calls a request makes -/

/-- A request that answers a next state has made calls of its kind, within its bound. -/
theorem request_calls {i : Instr} {s t : State} (hi : i.isRequest = true) (h : exec i s = .next t) :
    ∃ new, t.calls = s.calls ++ new ∧ new.length ≤ callBound i ∧ ∀ c ∈ new, callOk s.cfg i c := by
  rcases request_next hi h with ⟨-, -, rfl⟩ | ⟨-, ⟨m, hm, hr⟩ | hm⟩
  · exact ⟨[], by simp, by simp, by simp⟩
  · obtain ⟨new, hlen, hok, hcalls⟩ := hm.frame
    exact ⟨new, by rw [hr.at_rest.1, hcalls, startState_calls], hlen, hok⟩
  · obtain ⟨new, hlen, hok, hcalls⟩ := hm.frame
    exact ⟨new, by rw [hcalls, startState_calls], hlen, hok⟩

/-- A well-formed operand of 16 bits asks for at most 2^15 steps, and CURSOR_MOVE reads the address after them (R93). -/
theorem callBound_le {cfg : Config} {i : Instr} (hopw : cfg.opw = 16) (hw : i.wf cfg = true) : callBound i ≤ 32769 := by
  have hsteps {n : Int} (hn : fitsIn cfg.opw n = true) : n.natAbs ≤ 32768 := by
    have h2 : 2 * n.natAbs ≤ 2 ^ cfg.opw := magnitude_le hn
    rw [hopw] at h2
    omega
  cases i with
  | cursorMove n => exact Nat.succ_le_succ (hsteps hw)
  | displayShift n => exact (hsteps hw).trans (by decide)
  | _ => simp [callBound]

/-- With the standard record the set-address command of a cell is sendable. -/
theorem sendable_setAddressByte {a : Addr} (h : validAddr a = true) : Sendable (setAddressByte Config.standard.cmd a) :=
  Or.inr ⟨a, h, setAddressByte_standard a⟩

/-- EMIT's one call is NEWLINE or a data write (R112). -/
theorem sendable_of_emitCall {b x : Byte} (h : Call.writeControl b = emitCall Config.standard x) : Sendable b := by
  unfold emitCall at h
  split at h
  · cases h
    exact sendable_setAddressByte (by decide)
  · cases h

/-- With the standard record every command byte among an operation's calls is one of the record's bytes, or the set-address
command of a cell: a row's start, or CURSOR_GOTO's target (R84). -/
theorem callOk_sendable {i : Instr} {b : Byte} (h : callOk Config.standard i (.writeControl b)) : Sendable b := by
  cases i with
  | init =>
    obtain rfl | rfl | rfl | rfl | rfl | rfl : b = Config.standard.cmd.bootstrap ∨ b = Config.standard.cmd.functionSet
        ∨ b = Config.standard.cmd.displayCtrl ∨ b = Config.standard.cmd.entryMode ∨ b = Config.standard.cmd.clear
        ∨ b = Config.standard.cmd.cursorLeft := by simpa [callOk] using h
    all_goals exact Or.inl (by decide)
  | clear =>
    obtain rfl : b = Config.standard.cmd.clear := by simpa [callOk, clearCalls] using h
    exact Or.inl (by decide)
  | home =>
    obtain rfl : b = Config.standard.cmd.home := by simpa [callOk] using h
    exact Or.inl (by decide)
  | emit x => exact sendable_of_emitCall h
  | emitLineClear =>
    obtain rfl | rfl : b = setAddressByte Config.standard.cmd 0x00#7 ∨ b = setAddressByte Config.standard.cmd 0x40#7 := by
      simpa [callOk] using h
    · exact sendable_setAddressByte (by decide)
    · exact sendable_setAddressByte (by decide)
  | emitFormatted str =>
    obtain ⟨x, -, hx⟩ := h
    exact sendable_of_emitCall hx
  | emitWrapped str =>
    obtain rfl | rfl : b = Config.standard.cmd.clear ∨ b = setAddressByte Config.standard.cmd Config.row1Start := by
      simpa [callOk, clearCalls] using h
    · exact Or.inl (by decide)
    · exact sendable_setAddressByte (by decide)
  | cursorMove n =>
    obtain rfl | rfl : b = Config.standard.cmd.cursorRight ∨ b = Config.standard.cmd.cursorLeft := by
      simpa [callOk] using h
    all_goals exact Or.inl (by decide)
  | cursorGoto row col =>
    obtain ⟨-, hcol, rfl⟩ : row.toNat ≤ 2 ∧ col.toNat ≤ 39 ∧ b = setAddressByte Config.standard.cmd (addrOf row col) := by
      simpa [callOk] using h
    exact sendable_setAddressByte (validAddr_addrOf row hcol)
  | displayShift n =>
    obtain rfl | rfl : b = Config.standard.cmd.shiftRight ∨ b = Config.standard.cmd.shiftLeft := by
      simpa [callOk] using h
    all_goals exact Or.inl (by decide)
  | setColour name => simp [callOk] at h -- port writes only
  | _ => cases h -- a device command makes no calls

/-- Settles O20, by what the calls of an operation can be and how many. -/
theorem onlyListedCommandBytesAreSent : Obligations.OnlyListedCommandBytesAreSent := by
  unfold Obligations.OnlyListedCommandBytesAreSent
  intro i s t hi hw hcfg h
  obtain ⟨new, hcalls, hlen, hok⟩ := request_calls hi h
  have hbound : callBound i ≤ 32769 := callBound_le (congrArg Config.opw hcfg) hw
  rw [hcfg] at hok
  exact ⟨new, hcalls, hlen.trans hbound, fun b hb => callOk_sendable (hok _ hb)⟩

end Sys2Proof.Machine

/-! ### The operations that store nothing (R57 to R62, R95) -/

namespace Sys2Proof.Machine

/-- The calls that store nothing on the device: every one but the data write (R61) and the clear command (R57). -/
def Call.storesNothing : Call → Bool
  | .writeControl b => decide (decodeCommand b ≠ .ok .clear)
  | .writeData _ => false
  | .readData | .readAddress | .busyWait | .writePort0 _ _ | .writePort1 _ => true

/-- Of the commands, the clear command alone writes the DDRAM (R57 to R61). -/
theorem Device.run_ddram {d e : Device} {c : Command} {r : Reply} (hc : c ≠ .clear) (h : d.run c = .ok r e) :
    e.ddram = d.ddram := by
  cases c with
  | clear => exact absurd rfl hc
  | setDdram a =>
    rw [Device.run_setDdram] at h
    split at h
    · cases h; rfl
    · cases h
  | _ => cases h; rfl

theorem Device.control_ddram {d e : Device} {b : Byte} {r : Reply} (hb : decodeCommand b ≠ .ok .clear)
    (h : d.control b = .ok r e) : e.ddram = d.ddram := by
  unfold Device.control at h
  split at h
  · rename_i c hd
    exact Device.run_ddram (fun hc => hb (hc ▸ hd)) h
  · cases h; rfl
  · cases h

theorem Device.answer_ddram {d e : Device} {c : Call} {r : Reply} (hc : c.storesNothing = true) (h : d.answer c = .ok r e) :
    e.ddram = d.ddram := by
  cases c with
  | writeControl b => exact Device.control_ddram (of_decide_eq_true hc) h
  | writeData b => cases hc
  | readData =>
    simp only [Device.answer, Device.readData] at h
    split at h
    · split at h
      · cases h; rfl
      · cases h
    · cases h
  | _ => cases h; rfl

/-- A request whose calls store nothing leaves the DDRAM as it was, ended or hung, on any transport. -/
theorem request_ddram {i : Instr} {s t : State} (hi : i.isRequest = true)
    (hc : ∀ c, callOk s.cfg i c → c.storesNothing = true) (h : exec i s = .next t) : t.dev.ddram = s.dev.ddram := by
  rcases request_next hi h with ⟨-, -, rfl⟩ | ⟨-, hend⟩
  · rfl
  · exact hend.device (Q := fun d => d.ddram = s.dev.ddram)
      (fun _ c _ _ hok hd hr => (Device.answer_ddram (hc c hok) hr).trans hd) rfl

/-- HOME, CURSOR_MOVE, CURSOR_GOTO, DISPLAY_SHIFT and SET_COLOUR. -/
def MovesOrColours (i : Instr) : Prop :=
  i = .home ∨ (∃ n, i = .cursorMove n) ∨ (∃ row col, i = .cursorGoto row col) ∨ (∃ n, i = .displayShift n)
    ∨ ∃ name, i = .setColour name

theorem MovesOrColours.isRequest {i : Instr} (hi : MovesOrColours i) : i.isRequest = true := by
  obtain rfl | ⟨n, rfl⟩ | ⟨row, col, rfl⟩ | ⟨n, rfl⟩ | ⟨name, rfl⟩ := hi
  all_goals rfl

/-- A set-address command stores nothing (R61). -/
theorem storesNothing_setAddressByte (a : Addr) :
    (Call.writeControl (setAddressByte Config.standard.cmd a)).storesNothing = true := by
  rw [show setAddressByte Config.standard.cmd a = setDdramByte a from setAddressByte_standard a, Call.storesNothing,
    decodeCommand_setDdramByte]
  rfl

/-- With the standard record these operations send the home command, the steps of the cursor and of the display, and
set-address commands; they read the address, and they write the ports (R119, R136, R156). -/
theorem MovesOrColours.storesNothing {i : Instr} {c : Call} (hi : MovesOrColours i) (h : callOk Config.standard i c) :
    c.storesNothing = true := by
  obtain rfl | ⟨n, rfl⟩ | ⟨row, col, rfl⟩ | ⟨n, rfl⟩ | ⟨name, rfl⟩ := hi
  · obtain rfl : c = .writeControl Config.standard.cmd.home := h
    rfl
  · obtain rfl | rfl | rfl : c = .writeControl Config.standard.cmd.cursorRight
        ∨ c = .writeControl Config.standard.cmd.cursorLeft ∨ c = .readAddress := by simpa [callOk] using h
    all_goals rfl
  · obtain ⟨-, -, rfl | rfl⟩ : row.toNat ≤ 2 ∧ col.toNat ≤ 39
        ∧ (c = .writeControl (setAddressByte Config.standard.cmd (addrOf row col)) ∨ c = .readAddress) := by
      simpa [callOk] using h
    · exact storesNothing_setAddressByte _
    · rfl
  · obtain rfl | rfl : c = .writeControl Config.standard.cmd.shiftRight
        ∨ c = .writeControl Config.standard.cmd.shiftLeft := by simpa [callOk] using h
    all_goals rfl
  · obtain rfl | rfl : c = .writePort0 (channelsOf name).red (channelsOf name).green
        ∨ c = .writePort1 (channelsOf name).blue := by simpa [callOk] using h
    all_goals rfl

/-- Settles O55: none of the calls stores; and `so`, `fsm` and `chan` have other writers than the two cursor operations. -/
theorem movesAndColoursStoreNothing : Obligations.MovesAndColoursStoreNothing := by
  unfold Obligations.MovesAndColoursStoreNothing
  intro i s t hcfg h hi
  have hmoves : MovesOrColours i := hi
  refine ⟨fun a => ?_, fun hcursor => ?_⟩
  · have hddram : t.dev.ddram = s.dev.ddram :=
      request_ddram hmoves.isRequest (fun c hc => hmoves.storesNothing (hcfg ▸ hc)) h
    rw [Device.cell, hddram, Device.cell]
  · obtain ⟨hfsm, hchan, hso, -⟩ := eachRegisterHasItsWriters i s t h
    obtain ⟨n, rfl⟩ | ⟨row, col, rfl⟩ := hcursor
    all_goals exact ⟨hso (by simp) (by simp) (by simp) (by simp) (by simp), hfsm (by simp), hchan (by simp)⟩

end Sys2Proof.Machine

/-! ### The address model (R101 to R104) -/

namespace Sys2Proof.Machine

/-- Row and column are the two fields of the address (R102). -/
theorem rowcolOf_eq (a : Addr) : rowcolOf a = (a.toNat / 64, a.toNat % 64) := by
  rw [rowcolOf, BitVec.extractLsb'_toNat, BitVec.extractLsb'_toNat, Nat.shiftRight_eq_div_pow,
    Nat.mod_eq_of_lt (a := a.toNat / 2 ^ 6) (by omega)]
  rfl

/-- Settles O13: `addr_of` adds the column to the start of the row, and no column reaches the row bit. -/
theorem addressModelPlacesRowsAndColumns : Obligations.AddressModelPlacesRowsAndColumns := by
  unfold Obligations.AddressModelPlacesRowsAndColumns
  intro row col _ hcol
  refine ⟨addrOf_toNat row hcol, validAddr_addrOf row hcol, ?_⟩
  rw [rowcolOf_eq, addrOf_toNat row hcol]
  split
  · exact Prod.ext (by omega) (by omega)
  · exact Prod.ext (by omega) (by omega)

/-- Every cell has a number below 80, and is the cell of that number (R104). -/
theorem addrLin_lin : ∀ a : Addr, validAddr a = true → lin a < 80 ∧ addrLin (lin a) = a := by decide

/-- Settles O14: `lin` and `addr_lin` are inverse to each other between the cells and their numbers. -/
theorem linearViewIsABijectionOfTheCells : Obligations.LinearViewIsABijectionOfTheCells := by
  unfold Obligations.LinearViewIsABijectionOfTheCells
  exact ⟨validAddr_iff, fun c hc => ⟨validAddr_addrLin c hc, lin_addrLin c hc⟩, addrLin_lin⟩

end Sys2Proof.Machine

/-! ### EMIT_FORMATTED on the good device: the text fed byte by byte (R107, R115) -/

namespace Sys2Proof.Machine

/-! #### What EMIT's body leaves on the device -/

theorem Device.emitted_frame (cfg : Config) (b : Byte) (d : Device) :
    d.emitted cfg b = { d with ac := (d.emitted cfg b).ac, ddram := (d.emitted cfg b).ddram } := by
  unfold Device.emitted
  split
  · rfl
  · rfl

theorem Device.emitted_ac (cfg : Config) (b : Byte) (d : Device) :
    (d.emitted cfg b).ac = if isControl cfg b then Config.row1Start else incAddr d.ac := by
  rw [Device.emitted, apply_ite Device.ac]
  rfl

theorem Device.emitted_modeOk (cfg : Config) (b : Byte) (d : Device) : (d.emitted cfg b).modeOk = d.modeOk := by
  rw [d.emitted_frame cfg b]
  rfl

theorem Device.emitted_valid (cfg : Config) (b : Byte) {d : Device} (h : validAddr d.ac = true) :
    validAddr (d.emitted cfg b).ac = true := by
  rw [Device.emitted_ac]
  split
  · decide
  · exact validAddr_incAddr _ h

theorem Device.emitted_wf (cfg : Config) (b : Byte) {d : Device} (h : d.ddram.wf) : (d.emitted cfg b).ddram.wf := by
  unfold Device.emitted
  split
  · exact h
  · exact Device.stored_wf b h

theorem Device.emitted_cell (cfg : Config) (b : Byte) {d : Device} (h : d.ddram.wf) (a : Addr) :
    (d.emitted cfg b).cell a = if isControl cfg b then d.cell a else if a = d.ac then b else d.cell a := by
  unfold Device.emitted
  split
  · rfl
  · split
    · rw [‹a = d.ac›]
      exact Device.stored_cell_same b h
    · exact Device.stored_cell_other b ‹_›

/-! #### What a text leaves on the device -/

/-- The device after a text, each byte through EMIT's body (R115). -/
def Device.typed (cfg : Config) : List Byte → Device → Device
  | [], d => d
  | b :: bs, d => Device.typed cfg bs (d.emitted cfg b)

theorem Device.typed_frame (cfg : Config) (bs : List Byte) (d : Device) :
    d.typed cfg bs = { d with ac := (d.typed cfg bs).ac, ddram := (d.typed cfg bs).ddram } := by
  induction bs generalizing d with
  | nil => rfl
  | cons b bs ih => rw [Device.typed, ih, d.emitted_frame cfg b]

theorem Device.typed_ac (cfg : Config) (bs : List Byte) (d : Device) : (d.typed cfg bs).ac = textEnd cfg bs d.ac := by
  induction bs generalizing d with
  | nil => rfl
  | cons b bs ih => rw [Device.typed, ih, Device.emitted_ac, textEnd]

theorem Device.typed_cell (cfg : Config) (bs : List Byte) {d : Device} (h : d.ddram.wf) (a : Addr) :
    (d.typed cfg bs).cell a = textCell cfg bs d.ac a (d.cell a) := by
  induction bs generalizing d with
  | nil => rfl
  | cons b bs ih =>
    rw [Device.typed, ih (Device.emitted_wf cfg b h), Device.emitted_ac, Device.emitted_cell cfg b h, textCell]
    split
    · rfl
    · rfl

/-- The bytes of the buffer, fed to EMIT's body (R115). -/
theorem emitAll_device {fx : Fixture} (hfx : fx.WritesOk) (bs : List Byte) :
    ∀ s : State, s.link = .device fx → s.dev.modeOk = true → validAddr s.dev.ac = true → s.cfg.cmd.setDdram = 0x80#8 →
      ∃ p τ, emitAll bs s = .done ()
          { s with
            calls := s.calls ++ bs.map (emitCall s.cfg), pos := p, tr := τ, dev := s.dev.typed s.cfg bs }
        ∧ τ.m = s.tr.m := by
  induction bs with
  | nil => exact fun s _ _ _ _ => ⟨s.pos, s.tr, by simp [emitAll, Device.typed], rfl⟩
  | cons b bs ih =>
    intro s hl hm hv hc
    obtain ⟨p, τ, h, hτ⟩ := ih
      (setTr (fun t => { t with j := t.j + 1 })
        (setTr (fun t => { t with s := 0 }) (answered (emitCall s.cfg b) (s.dev.emitted s.cfg b) s)))
      hl ((s.dev.emitted_modeOk s.cfg b).trans hm) (Device.emitted_valid s.cfg b hv) hc
    refine ⟨p, τ, ?_, hτ⟩
    rw [emitAll, emitWrite_device hfx hl b hm hv (fun _ => hc), Run.bind_done, h]
    simp [setTr, answered, issue, Device.typed]

/-- EMIT_FORMATTED on the good device answers the number of bytes processed (R115). -/
theorem emitFormatted_good {s : State} (str : List Byte) (hf : s.fsm = .ready) (hs : s.OnDevice)
    (hc : s.cfg.cmd.setDdram = 0x80#8) :
    exec (.emitFormatted str) s = .next
      { s.responded ((str.take 80).map (emitCall s.cfg)) ((str.take 80).length : Nat) .none with
        dev := s.dev.typed s.cfg (str.take 80) } := by
  obtain ⟨p, τ, h, hm⟩ := emitAll_device Fixture.good_writesOk (str.take 80)
    (loadBuffer (str.take 80) (accept (.emitFormatted str) s)) hs.link hs.mode hs.valid hc
  simp only [exec, execEmitFormatted, whenReady_ready hf]
  refine (congrArg finish (Run.bind_of_done _ h)).trans ?_
  rw [hm]
  rfl

/-- Settles O52: the device holds the text typed from its address on. -/
theorem emitFormattedOnTheDeviceTypesTheText : Obligations.EmitFormattedOnTheDeviceTypesTheText := by
  unfold Obligations.EmitFormattedOnTheDeviceTypesTheText
  intro s str hf hs hwf hc
  refine ⟨_, emitFormatted_good str hf hs hc, ?_, Device.typed_ac _ _ _, Device.typed_cell _ _ hwf⟩
  rw [List.length_take, Nat.min_comm, Device.typed_frame]

end Sys2Proof.Machine

/-! ### EMIT_LINE_CLEAR on the good device: 16 spaces from the start of the row (R107, R113) -/

namespace Sys2Proof.Machine

/-! #### The start of the row, and the cells from there -/

theorem rowStart_eq : ∀ a : Addr, rowStart a = if a.toNat < 0x40 then 0x00#7 else 0x40#7 := by decide

theorem validAddr_rowStart : ∀ a : Addr, validAddr (rowStart a) = true := by decide

/-- No step from the start of a row leaves its first 16 cells (R56). -/
theorem incAddr_iterate_rowStart (a : Addr) : ∀ k < 16, (incAddr^[k] (rowStart a)).toNat = (rowStart a).toNat + k := by
  rw [rowStart_eq]
  split
  · decide
  · decide

/-! #### A byte stored again and again -/

theorem Device.iterate_stored_frame (v : Byte) (n : Nat) (d : Device) :
    (Device.stored v)^[n] d = { d with ac := incAddr^[n] d.ac, ddram := ((Device.stored v)^[n] d).ddram } := by
  induction n generalizing d with
  | zero => rfl
  | succ n ih =>
    rw [Function.iterate_succ_apply, ih]
    rfl

/-- The byte stands in the `n` cells passed, and no other cell has changed. -/
theorem Device.iterate_stored_cell (v : Byte) (n : Nat) {d : Device} (h : d.ddram.wf) (a : Addr) :
    ((Device.stored v)^[n] d).cell a = if ∃ k < n, incAddr^[k] d.ac = a then v else d.cell a := by
  have hac (k : Nat) : ((Device.stored v)^[k] d).ac = incAddr^[k] d.ac := by rw [Device.iterate_stored_frame]
  have hwf (k : Nat) : ((Device.stored v)^[k] d).ddram.wf := by
    induction k with
    | zero => exact h
    | succ k ih =>
      rw [Function.iterate_succ_apply']
      exact Device.stored_wf v ih
  induction n with
  | zero => simp
  | succ n ih =>
    rw [Function.iterate_succ_apply']
    by_cases ha : a = incAddr^[n] d.ac
    · rw [if_pos ⟨n, n.lt_succ_self, ha.symm⟩, ha, ← hac]
      exact Device.stored_cell_same v (hwf n)
    · have hiff : (∃ k < n + 1, incAddr^[k] d.ac = a) ↔ ∃ k < n, incAddr^[k] d.ac = a := by
        rw [Nat.exists_lt_succ_right]
        exact or_iff_left (Ne.symm ha)
      rw [Device.stored_cell_other v (by rwa [hac]), ih]
      simp only [hiff]

/-- The device with `n` bytes `v` written from the address `a` on, and back at that address. -/
def Device.filled (v : Byte) (n : Nat) (a : Addr) (d : Device) : Device :=
  { (Device.stored v)^[n] { d with ac := a } with ac := a }

theorem Device.filled_frame (v : Byte) (n : Nat) (a : Addr) (d : Device) :
    d.filled v n a = { d with ac := a, ddram := (d.filled v n a).ddram } := by
  rw [Device.filled, Device.iterate_stored_frame]

theorem Device.filled_cell (v : Byte) (n : Nat) (a : Addr) {d : Device} (h : d.ddram.wf) (x : Addr) :
    (d.filled v n a).cell x = if ∃ k < n, incAddr^[k] a = x then v else d.cell x :=
  Device.iterate_stored_cell v n (d := { d with ac := a }) h x

/-- From the start of a row, those are its first 16 cells. -/
theorem Device.filled_rowStart_cell (v : Byte) (r : Addr) {d : Device} (h : d.ddram.wf) (a : Addr) :
    (d.filled v 16 (rowStart r)).cell a
      = if (rowStart r).toNat ≤ a.toNat ∧ a.toNat < (rowStart r).toNat + 16 then v else d.cell a := by
  have hcells : (∃ k < 16, incAddr^[k] (rowStart r) = a)
      ↔ (rowStart r).toNat ≤ a.toNat ∧ a.toNat < (rowStart r).toNat + 16 := by
    constructor
    · rintro ⟨k, hk, rfl⟩
      rw [incAddr_iterate_rowStart r k hk]
      omega
    · rintro ⟨hlo, hhi⟩
      refine ⟨a.toNat - (rowStart r).toNat, by omega, BitVec.eq_of_toNat_eq ?_⟩
      rw [incAddr_iterate_rowStart r _ (by omega)]
      omega
  rw [Device.filled_cell v 16 _ h]
  simp only [hcells]

/-! #### The three phases -/

/-- `n` spaces written, with status 0 each (R113). -/
theorem blankCells_device {fx : Fixture} (hfx : fx.WritesOk) (n : Nat) :
    ∀ s : State, s.link = .device fx → s.dev.modeOk = true → validAddr s.dev.ac = true → s.tr.sum = 0 →
      ∃ p τ, blankCells n s = .done ()
          { s with
            calls := s.calls ++ List.replicate n (.writeData s.cfg.chSpace), pos := p, tr := τ,
            dev := (Device.stored s.cfg.chSpace)^[n] s.dev }
        ∧ τ.sum = 0 ∧ τ.tgt = s.tr.tgt := by
  induction n with
  | zero => exact fun s _ _ _ h0 => ⟨s.pos, s.tr, by simp [blankCells], h0, rfl⟩
  | succ n ih =>
    intro s hl hm hv h0
    obtain ⟨p, τ, h, hsum, htgt⟩ := ih
      (addStatus 0 (answered (.writeData s.cfg.chSpace) (s.dev.stored s.cfg.chSpace) s))
      hl hm (validAddr_incAddr _ hv) (by simp [h0])
    refine ⟨p, τ, ?_, hsum, htgt⟩
    rw [blankCells, writeData_device hfx hl _ hm hv, Run.bind_done, h]
    simp [addStatus, setTr, answered, issue, List.replicate_succ]

/-- Home, blank, home, each call with status 0 (R113). -/
theorem lineClearPhases_device {fx : Fixture} {s : State} (hfx : fx.WritesOk) (hl : s.link = .device fx)
    (hm : s.dev.modeOk = true) (hc : s.cfg.cmd.setDdram = 0x80#8) (hv : validAddr s.tr.tgt = true) :
    ∃ p τ, lineClearPhases s = .done ()
        { s with
          calls := s.calls ++ (.writeControl (setAddressByte s.cfg.cmd s.tr.tgt)
            :: List.replicate 16 (.writeData s.cfg.chSpace) ++ [.writeControl (setAddressByte s.cfg.cmd s.tr.tgt)]),
          pos := p, tr := τ, dev := s.dev.filled s.cfg.chSpace 16 s.tr.tgt }
      ∧ τ.sum = 0 := by
  obtain ⟨p, τ, h, hsum, htgt⟩ := blankCells_device hfx 16
    (setTr (fun t => { t with sum := 0 })
      (answered (.writeControl (setAddressByte s.cfg.cmd s.tr.tgt)) { s.dev with ac := s.tr.tgt } s))
    hl hm hv rfl
  simp only [setTr_tr, answered_tr] at htgt
  refine ⟨p.map (fun q => { q with ix := q.ix + 1 }), { τ with sum := 0 }, ?_, rfl⟩
  rw [lineClearPhases, writeControl_device hfx hl (control_setAddress _ hc hv), Run.bind_done]
  refine (Run.bind_of_done _ h).trans ?_
  simp only [htgt, setTr_cfg, answered_cfg]
  rw [writeControl_device hfx (by exact hl) (control_setAddress _ hc hv), Run.bind_done]
  simp [addStatus, setTr, answered, issue, hsum, htgt, Device.filled]

/-- EMIT_LINE_CLEAR on the good device answers 0 (R113). -/
theorem emitLineClear_good {s : State} (hf : s.fsm = .ready) (hs : s.OnDevice) (hc : s.cfg.cmd.setDdram = 0x80#8) :
    exec .emitLineClear s = .next
      { s.responded (.readAddress :: lineClearCalls s.cfg s.dev.ac) 0 .none with
        dev := s.dev.filled s.cfg.chSpace 16 (rowStart s.dev.ac) } := by
  obtain ⟨p, τ, h, hsum⟩ := lineClearPhases_device
    (s := setTr (fun t => { t with a := s.dev.ac, tgt := rowStart s.dev.ac })
      (issue .readAddress (accept .emitLineClear s)))
    Fixture.good_writesOk hs.link hs.mode hc (validAddr_rowStart s.dev.ac)
  simp only [exec, execEmitLineClear, whenReady_ready hf]
  rw [readAddress_good (by exact hs.link), Run.bind_done]
  refine (congrArg finish (Run.bind_of_done _ h)).trans ?_
  simp [retStatus, hsum, ret, respond, State.responded, setTr, issue, accept, lineClearCalls, rowStart, Config.row1Start]

/-- Settles O51: the row's first 16 cells are filled, and the address is back at their start. -/
theorem emitLineClearOnTheDeviceBlanksSixteenCells : Obligations.EmitLineClearOnTheDeviceBlanksSixteenCells := by
  unfold Obligations.EmitLineClearOnTheDeviceBlanksSixteenCells
  intro s start hf hs hwf hc hstart
  obtain rfl : start = rowStart s.dev.ac := hstart.trans (rowStart_eq _).symm
  have hcell (a : Addr) := Device.filled_rowStart_cell s.cfg.chSpace s.dev.ac hwf a
  exact ⟨_, emitLineClear_good hf hs hc, narrow_zero _, rfl, rfl, rfl, rfl, rfl, Device.filled_frame _ _ _ _,
    fun a hlo hhi => (hcell a).trans (if_pos ⟨hlo, hhi⟩), fun a ha => (hcell a).trans (if_neg ha)⟩

end Sys2Proof.Machine

/-! ### CURSOR_GOTO and INIT on the good device (R107, R128, R149) -/

namespace Sys2Proof.Machine

/-- The consistent answer of CURSOR_GOTO: whether the column is beyond the visible ones (R128). -/
theorem gotoAnswer_of_eq (col : Byte) {s : State} (h : s.tr.a = s.tr.tgt) :
    gotoAnswer col s = ret (if 15 < col.toNat then 1 else 0) s := by
  rw [gotoAnswer, if_pos h]
  by_cases hvis : visible col = true
  · rw [if_pos hvis, if_neg (Nat.not_lt.2 ((visible_iff col).1 hvis))]
  · rw [if_neg hvis, if_pos (Nat.not_le.1 fun h => hvis ((visible_iff col).2 h))]

/-- Settles O57: the address read back is the one that was set, so only the column decides the answer. -/
theorem cursorGotoOnTheDeviceSucceeds : Obligations.CursorGotoOnTheDeviceSucceeds := by
  unfold Obligations.CursorGotoOnTheDeviceSucceeds
  intro s row col hf hl hc hrow hcol
  have hvalid : ¬gotoInvalid row col = true := fun h => by
    have := (gotoInvalid_iff row col).1 h
    omega
  simp only [exec, execCursorGoto, whenReady_ready hf, if_neg hvalid]
  rw [accept_cfg, writeControl_device
      (s := setTr (fun t => { t with tgt := addrOf row col }) (accept (.cursorGoto row col) s))
      Fixture.good_writesOk hl (control_setAddress _ hc (validAddr_addrOf row hcol)),
    Run.bind_done, readAddress_good (by exact hl), Run.bind_done, gotoAnswer_of_eq col (by rfl)]
  simp [ret, respond, State.responded, setTr, issue, answered, accept]

/-- INIT outside Ready on the good device passes: no read is spoiled, so all 80 that count match (R144, R145). -/
theorem init_good {s : State} (hf : s.fsm ≠ .ready) (hl : s.link = .device .good) (hcfg : s.cfg = Config.standard) :
    ∃ d, exec .init s = .next
        { s.responded (initCalls s.cfg ++ clearCalls s.cfg) 0 .none with so := 0#6, fsm := .ready, dev := d.cleared }
      ∧ Tested s.cfg s.dev.programmed.cleared 81 d := by
  obtain ⟨p, τ, d, h, hd, hcnt⟩ := initPhases_device (s := { accept .init s with fsm := .selfTesting })
    Fixture.good_writesOk hl (by exact congrArg Config.cmd hcfg)
  rw [if_pos (hcnt.2 fun _ _ => rfl)] at h
  obtain ⟨p', τ', hclear⟩ := clearSeq_device
    (s := { accept .init s with
      fsm := .selfTesting, calls := s.calls ++ initCalls s.cfg, so := 0#6, pos := p, tr := τ, dev := d })
    Fixture.good_writesOk hl (by exact congrArg (fun c => c.cmd.clear) hcfg)
  refine ⟨d, ?_, hd⟩
  simp only [exec, execInit, if_neg hf, h]
  refine (congrArg finish (Run.bind_of_done _ hclear)).trans ?_
  simp [ret, respond, State.responded]

theorem initCalls_length (cfg : Config) : (initCalls cfg).length = 249 := by
  simp [initCalls, clearCalls, roundCalls, List.length_flatMap]

/-- Settles O59: the modes are those that INIT programmed, and the second clear blanks the cells. -/
theorem initOnTheDeviceSucceeds : Obligations.InitOnTheDeviceSucceeds := by
  unfold Obligations.InitOnTheDeviceSucceeds
  intro s hf hl hcfg
  obtain ⟨d, h, hd⟩ := init_good hf hl hcfg
  refine ⟨_, h, narrow_zero _, rfl, rfl, rfl, rfl, rfl, rfl, rfl, ?_, fun _ => rfl, rfl, rfl, rfl, ?_, ?_, ?_⟩
  · rw [List.length_append, initCalls_length]
    rfl
  · exact congrArg Device.sdisp hd.frame
  · exact congrArg Device.dcb hd.frame
  · exact congrArg Device.fn hd.frame

end Sys2Proof.Machine

/-! ### Character output under an oracle that answers (R111 to R117, R119) -/

namespace Sys2Proof.Machine

/-- The last step of an operation whose result is a status or a sum: one response for both outcomes (R40, R162). -/
theorem retStatus_eq (st : Int) (s : State) :
    retStatus st s = .done () (respond st (if st = 0 then .none else .transportFailure) s) := by
  unfold retStatus
  by_cases h : st = 0
  · rw [if_pos h, if_pos h, h]
    rfl
  · rw [if_neg h, if_neg h]
    rfl

/-- Settles O25: the body of EMIT makes its one call, and the status that call answered decides the response. -/
theorem emitSendsOneWriteAndEchoes : Obligations.EmitSendsOneWriteAndEchoes := by
  unfold Obligations.EmitSendsOneWriteAndEchoes
  intro s b r rest hf ⟨hl, hr⟩
  simp only [exec, execEmit, whenReady_ready hf]
  rw [emitWrite_oracle (s := accept (.emit b) s) (by exact hl) (by exact hr), Run.bind_done, accept_cfg]
  by_cases hst : narrow s.cfg.resw r.status = 0
  · simp only [if_pos hst]
    rfl
  · simp only [if_neg hst]
    rfl

/-- A list of at least two elements, taken apart at both ends. -/
theorem exists_cons_append_singleton {α : Type} {n : Nat} {l : List α} (h : l.length = n + 2) :
    ∃ a m b, l = a :: m ++ [b] ∧ m.length = n := by
  obtain ⟨a, m, rfl⟩ := List.exists_cons_of_length_eq_add_one h
  obtain rfl | ⟨m, b, rfl⟩ := m.eq_nil_or_concat
  · simp at h
  · exact ⟨a, m, b, by simp, by simpa using h⟩

/-- Settles O26: after the address has come back, the three phases leave the sum of the 18 statuses. -/
theorem emitLineClearHomesBlanksHomes : Obligations.EmitLineClearHomesBlanksHomes := by
  unfold Obligations.EmitLineClearHomesBlanksHomes
  intro s r ws rest hf ⟨hl, hr⟩ hlen
  obtain ⟨w, ms, z, rfl, hms⟩ := exists_cons_append_singleton (n := 16) hlen
  obtain ⟨p, τ, h, hsum⟩ := lineClearPhases_oracle (w := w) (z := z) (ms := ms) (rest := rest)
    (s := setTr (fun t => { t with a := r.addr, tgt := rowStart r.addr })
      { issue .readAddress (accept .emitLineClear s) with replies := some w :: (ms.map some ++ some z :: rest) })
    hl rfl hms
  simp only [exec, execEmitLineClear, whenReady_ready hf]
  rw [readAddress_oracle (s := accept .emitLineClear s) (r := r) (rest := some w :: (ms.map some ++ some z :: rest))
    (by exact hl) (hr.trans (by simp)), Run.bind_done]
  refine (congrArg finish (Run.bind_of_done _ h)).trans ?_
  rw [retStatus_eq, hsum]
  simp [respond, State.responded, setTr, issue, accept, rowStart, Config.row1Start]

/-- Settles O27: each of the leading 80 bytes makes EMIT's call, and `m` still counts them after the last. -/
theorem emitFormattedFeedsEachByte : Obligations.EmitFormattedFeedsEachByte := by
  unfold Obligations.EmitFormattedFeedsEachByte
  intro s str rs rest hf ⟨hl, hr⟩ hlen
  have hbuf : (str.take 80).length = min str.length 80 := List.length_take.trans (Nat.min_comm _ _)
  obtain ⟨p, τ, h, hm⟩ := emitAll_oracle (str.take 80) (loadBuffer (str.take 80) (accept (.emitFormatted str) s)) rs rest
    hl hr (hlen.trans hbuf.symm)
  simp only [exec, execEmitFormatted, whenReady_ready hf]
  refine (congrArg finish (Run.bind_of_done _ h)).trans ?_
  rw [hm, ← hbuf]
  rfl

/-- The wrapped text makes one call for each byte and one for the newline after the 16th (R117). -/
theorem wrapCalls_length (cfg : Config) (bs : List Byte) :
    (wrapCalls cfg bs).length = bs.length + if 16 ≤ bs.length then 1 else 0 := by
  simp only [wrapCalls, List.length_append, List.length_map, List.length_take, List.length_drop, apply_ite List.length,
    List.length_singleton, List.length_nil]
  omega

/-- Settles O28: two answers go to the clear sequence, the others to the wrapped text. -/
theorem emitWrappedClearsThenWrapsAfterSixteen : Obligations.EmitWrappedClearsThenWrapsAfterSixteen := by
  unfold Obligations.EmitWrappedClearsThenWrapsAfterSixteen
  intro s str rs rest hf ⟨hl, hr⟩ hlen
  have hbuf : (str.take 32).length = min str.length 32 := List.length_take.trans (Nat.min_comm _ _)
  obtain ⟨w, rs, rfl⟩ := List.exists_cons_of_length_pos (l := rs) (by omega)
  rw [List.length_cons] at hlen
  obtain ⟨x, rs, rfl⟩ := List.exists_cons_of_length_pos (l := rs) (by omega)
  rw [List.length_cons] at hlen
  have hrs : rs.length = (wrapFrom s.cfg 0 (str.take 32)).length := by
    have hsixteen : 16 ≤ min str.length 32 ↔ 16 ≤ str.length := by omega
    simp only [wrapFrom_zero, wrapCalls_length, hbuf, hsixteen]
    omega
  obtain ⟨p1, τ1, h1⟩ := clearSeq_oracle (s := accept (.emitWrapped str) s) hl hr
  obtain ⟨p2, τ2, h2, hm⟩ := writeWrapped_oracle (str.take 32)
    (loadBuffer (str.take 32) { accept (.emitWrapped str) s with
      calls := s.calls ++ clearCalls s.cfg, replies := rs.map some ++ rest, pos := p1, tr := τ1, so := 0#6 })
    rs rest hl rfl hrs
  simp only [exec, execEmitWrapped, whenReady_ready hf]
  refine (congrArg finish ((Run.bind_of_done _ h1).trans (Run.bind_of_done _ h2))).trans ?_
  rw [hm, ← hbuf]
  simp [ret, respond, State.responded, wrapFrom_zero]

end Sys2Proof.Machine

/-! ### The cursor and scroll operations, under an oracle that answers and on any transport (R126 to R136) -/

namespace Sys2Proof.Machine

/-! #### CURSOR_MOVE -/

theorem cursorByte_eq (cfg : Config) (n : Int) :
    cursorByte cfg n = if 0 < n then cfg.cmd.cursorRight else cfg.cmd.cursorLeft := by
  simp only [cursorByte, isForward_iff]

/-- Settles O29: the steps take the first `|n|` answers, and the address read back is in the last. -/
theorem cursorMoveStepsThenReadsBack : Obligations.CursorMoveStepsThenReadsBack := by
  unfold Obligations.CursorMoveStepsThenReadsBack
  intro s n ws r rest hf ⟨hl, hr⟩ hlen
  obtain ⟨p, τ, h⟩ := repeatControl_oracle (cursorByte s.cfg n) (magnitude n)
    (setTr (fun t => { t with k := magnitude n }) (accept (.cursorMove n) s)) ws (some r :: rest) hl
    (hr.trans (by simp)) hlen
  simp only [exec, execCursorMove, whenReady_ready hf]
  rw [accept_cfg, h, Run.bind_done, readAddress_oracle (r := r) (rest := rest) (by exact hl) rfl, Run.bind_done]
  simp [ret, respond, State.responded, setTr, issue, accept, cursorByte_eq, magnitude]

/-! #### CURSOR_GOTO -/

theorem not_gotoInvalid {row col : Byte} (hcol : col.toNat ≤ 39) (hrow : row.toNat ≤ 2) :
    ¬gotoInvalid row col = true := by
  rw [gotoInvalid_iff]
  omega

/-- The three answers of CURSOR_GOTO as one response (R128). -/
theorem gotoAnswer_eq (col : Byte) (s : State) :
    gotoAnswer col s = .done () (respond (if s.tr.a ≠ s.tr.tgt then -1 else if 15 < col.toNat then 1 else 0)
      (if s.tr.a ≠ s.tr.tgt then .addressConsistencyError else .none) s) := by
  by_cases h : s.tr.a = s.tr.tgt
  · rw [gotoAnswer_of_eq col h, if_neg (not_not.2 h), if_neg (not_not.2 h)]
    rfl
  · rw [gotoAnswer, if_neg h, if_pos h, if_pos h]
    rfl

/-- Settles O31: the address in the second answer is compared with the one that was set. -/
theorem cursorGotoSetsThenChecksTheAddress : Obligations.CursorGotoSetsThenChecksTheAddress := by
  unfold Obligations.CursorGotoSetsThenChecksTheAddress
  intro s row col w r rest hf ⟨hl, hr⟩ hcol hrow
  simp only [exec, execCursorGoto, whenReady_ready hf, if_neg (not_gotoInvalid hcol hrow)]
  rw [writeControl_oracle (r := w) (rest := some r :: rest) (by exact hl) (by exact hr), Run.bind_done,
    readAddress_oracle (r := r) (rest := rest) (by exact hl) rfl, Run.bind_done, gotoAnswer_eq]
  simp [respond, State.responded, setTr, issue, accept]

theorem CallFrame.calls {c : Call} {s t : State} (h : CallFrame c s t) : t.calls = s.calls ++ [c] := by
  rw [h.frame]
  rfl

theorem CallFrame.busy {c : Call} {s t : State} (h : CallFrame c s t) : t.busy = s.busy := by
  rw [h.frame]
  rfl

/-- A call whose answer is handed on has the frame of the call. -/
theorem call_hand_callFrame {α : Type} {c : Call} {s : State} (g : Reply → State → α) :
    ((call c s).bind fun r s1 => .done (g r s1) s1).Post (fun _ t => CallFrame c s t) (CallFrame c s) :=
  call_seq (fun _ _ h => h) (fun _ h => h)

/-- What CURSOR_GOTO, started in `s`, leaves once the row and the column have passed: at least one call, and no response of
the kind ValidationError. -/
def GotoPassed (s t : State) : Prop :=
  (t.busy = false → t.diag ≠ .validationError) ∧ ∃ c new, t.calls = s.calls ++ c :: new

/-- A hang makes no response. -/
theorem GotoPassed.of_busy {s t : State} {c : Call} {new : List Call} (hb : t.busy = true)
    (hc : t.calls = s.calls ++ c :: new) : GotoPassed s t :=
  ⟨fun h => by simp [hb] at h, c, new, hc⟩

/-- The two calls of CURSOR_GOTO and its answer, on any transport: it hangs in one of the calls, or it responds with None or
AddressConsistencyError. -/
theorem gotoCalls_passed {s : State} (b col : Byte) (hb : s.busy = true) :
    ((writeControl b s).bind fun _ s1 => (readAddress s1).bind fun a s2 =>
        gotoAnswer col (setTr (fun t => { t with a := a }) s2)).Post (fun _ t => GotoPassed s t) (GotoPassed s) := by
  refine Run.Post.seq (Run.Post.mono (call_hand_callFrame (c := .writeControl b) _) (fun _ _ h => h)
    fun t ht => .of_busy (ht.busy.trans hb) ht.calls) fun _ t ht => ?_
  have hcalls {u : State} (hu : CallFrame .readAddress t u) : u.calls = s.calls ++ [.writeControl b, .readAddress] := by
    rw [hu.calls, ht.calls, List.append_assoc]
    rfl
  refine Run.Post.seq (Run.Post.mono (call_hand_callFrame (c := .readAddress) _) (fun _ _ h => h)
    fun u hu => .of_busy (hu.busy.trans (ht.busy.trans hb)) (hcalls hu)) fun a u hu => ?_
  rw [gotoAnswer_eq, Run.post_done]
  refine ⟨fun _ => ?_, _, _, hcalls (u := u) hu⟩
  change (if _ then Diag.addressConsistencyError else Diag.none) ≠ _
  split
  · decide
  · decide

/-- Settles O30: the validation comes before the first call, and no later answer is a ValidationError. -/
theorem cursorGotoRejectsOutOfRange : Obligations.CursorGotoRejectsOutOfRange := by
  unfold Obligations.CursorGotoRejectsOutOfRange
  intro s row col hf
  simp only [exec, execCursorGoto, whenReady_ready hf]
  refine ⟨fun hout => ?_, fun hcol hrow t ht => ?_⟩
  · rw [if_pos ((gotoInvalid_iff row col).2 hout)]
    simp [raise, respond, State.responded, accept]
  · rw [if_neg (not_gotoInvalid hcol hrow)] at ht
    exact finish_next (P := GotoPassed s) ht (gotoCalls_passed _ col rfl)

/-! #### DISPLAY_SHIFT -/

theorem shiftByte_eq (cfg : Config) (n : Int) :
    shiftByte cfg n = if 0 < n then cfg.cmd.shiftRight else cfg.cmd.shiftLeft := by
  simp only [shiftByte, isForward_iff]

/-- The offset stored and the offset answered are the floored remainder of the accumulator (R131). -/
theorem storeScroll_eq (s : State) :
    storeScroll s = .done ()
      (respond (s.tr.acc % 40) .none { s with so := BitVec.ofInt 6 (s.tr.acc % 40) }) := by
  rw [storeScroll, scrollReduce_toNat, scrollReduce_eq]
  rfl

/-- Settles O32: the accumulator starts at `so` and takes `|n|` steps of the sign of `n`. -/
theorem displayShiftCountsModuloForty : Obligations.DisplayShiftCountsModuloForty := by
  unfold Obligations.DisplayShiftCountsModuloForty
  intro s n ws rest hf ⟨hl, hr⟩ hlen
  obtain ⟨p, τ, h, hacc⟩ := repeatShift_oracle (shiftByte s.cfg n) (scrollDelta n) (magnitude n)
    (setTr (fun t => { t with acc := s.so.toNat, k := magnitude n }) (accept (.displayShift n) s)) ws rest hl hr hlen
  rw [magnitude_mul_scrollDelta, setTr_tr] at hacc
  simp only [exec, execDisplayShift, whenReady_ready hf]
  rw [accept_cfg, accept_so, h, Run.bind_done, storeScroll_eq, hacc]
  simp [respond, State.responded, setTr, accept, shiftByte_eq, magnitude]

/-- The accumulator after `n` steps, on any transport (R131). -/
theorem repeatShift_acc (c : Byte) (d : Int) (n : Nat) : ∀ s : State,
    (repeatShift c d n s).Post (fun _ t => t.tr.acc = s.tr.acc + n * d) (fun _ => True) := by
  induction n with
  | zero => exact fun s => by simp [repeatShift]
  | succ n ih =>
    intro s
    refine Run.Post.seq (call_hand_tr (c := .writeControl c) (fun r t => narrow t.cfg.resw r.status)) fun _ t ht => ?_
    refine Run.Post.mono (ih _) (fun _ u hu => ?_) (fun _ h => h)
    rw [hu, setTr_tr, ht]
    push_cast
    ring

/-- A DISPLAY_SHIFT that completes leaves the offset moved by `n`, on any transport (R131). -/
theorem displayShift_so {s t : State} {n : Int} (h : exec (.displayShift n) s = .next t) (hb : t.busy = false) :
    t.so = scrollReduce (s.so.toNat + n) := by
  simp only [exec, execDisplayShift] at h
  obtain ⟨-, h⟩ := whenReady_next h
  refine finish_next (P := fun t => t.busy = false → t.so = scrollReduce (s.so.toNat + n)) h ?_ hb
  have hloop := (repeatShift_framed (C := fun _ => True) (c := shiftByte s.cfg n) trivial (scrollDelta n) (magnitude n)
    (setTr (fun t => { t with acc := s.so.toNat, k := magnitude n }) (accept (.displayShift n) s))).and
    (repeatShift_acc (shiftByte s.cfg n) (scrollDelta n) (magnitude n) _)
  refine Run.Post.seq (Run.Post.mono hloop (fun _ _ h => h.2) fun u hu hub => ?_) fun _ u hacc _ => ?_
  · rw [hu.1.busy] at hub
    cases hub
  · refine congrArg scrollReduce ?_
    rw [hacc, magnitude_mul_scrollDelta]
    rfl

/-- Settles O33: the two moves cancel modulo 40, and an offset below 40 is its own remainder. -/
theorem shiftAndShiftBackRestoresTheOffset : Obligations.ShiftAndShiftBackRestoresTheOffset := by
  unfold Obligations.ShiftAndShiftBackRestoresTheOffset
  intro s t u n hlt h1 hb1 h2 hb2
  calc u.so = scrollReduce ((scrollReduce (s.so.toNat + n)).toNat + -n) := by
        rw [displayShift_so h2 hb2, displayShift_so h1 hb1]
    _ = scrollReduce s.so.toNat := by
        rw [scrollReduce_toNat, scrollReduce_eq, scrollReduce_eq, Int.emod_add_emod, Int.add_neg_cancel_right]
    _ = s.so := scrollReduce_of_lt hlt

/-! #### CLEAR and HOME -/

/-- Settles O34: the clear sequence takes both answers and hands on the status in the first. -/
theorem clearResetsScrollAndPassesTheStatus : Obligations.ClearResetsScrollAndPassesTheStatus := by
  unfold Obligations.ClearResetsScrollAndPassesTheStatus
  intro s w x rest hf ⟨hl, hr⟩
  obtain ⟨p, τ, h⟩ := clearSeq_oracle (s := accept .clear s) hl hr
  simp only [exec, execClear, whenReady_ready hf]
  rw [h, Run.bind_done, retStatus_eq, accept_cfg]
  simp [respond, State.responded, accept, clearCalls]

/-- Settles O35: the one call's status decides the response. -/
theorem homeResetsScrollAndPassesTheStatus : Obligations.HomeResetsScrollAndPassesTheStatus := by
  unfold Obligations.HomeResetsScrollAndPassesTheStatus
  intro s w rest hf ⟨hl, hr⟩
  simp only [exec, execHome, whenReady_ready hf]
  rw [writeControl_oracle (r := w) (rest := rest) (by exact hl) (by exact hr), Run.bind_done, retStatus_eq,
    accept_cfg]
  simp [respond, State.responded, setTr, issue, accept]

end Sys2Proof.Machine

/-! ### INIT's two entries, its self-test under an oracle that answers, and how Ready is left (R141 to R149, R173) -/

namespace Sys2Proof.Machine

/-- Settles O36: the answer of a block that is Ready comes before the first call. -/
theorem secondInitIsANoOp : Obligations.SecondInitIsANoOp := by
  unfold Obligations.SecondInitIsANoOp
  intro s hf
  simp only [exec, execInit, if_pos hf]
  simp [ret, respond, State.responded, accept]

/-- No instruction that answers a next state leaves Ready: INIT of a Ready block does nothing, and no other writes `fsm`. -/
theorem exec_keeps_ready {i : Instr} {s t : State} (hf : s.fsm = .ready) (h : exec i s = .next t) : t.fsm = .ready := by
  by_cases hi : i = .init
  · subst hi
    rw [secondInitIsANoOp s hf] at h
    cases h
    exact hf
  · exact ((eachRegisterHasItsWriters i s t h).1 hi).trans hf

/-- Settles O17, by the ways in which a step answers a next state: but for the reset event, it runs one instruction or writes
none of the block's registers. -/
theorem readyIsLeftOnlyByReset : Obligations.ReadyIsLeftOnlyByReset := by
  unfold Obligations.ReadyIsLeftOnlyByReset
  intro s t h hf hr
  cases step_next h with
  | reset hreq => rw [hr] at hreq; cases hreq
  | noClass => exact hf
  | command _ _ _ _ ht => exact exec_keeps_ready (s := { s with command := none }) hf ht
  | wait => exact hf
  | @request _ after _ _ _ ht => exact exec_keeps_ready (s := { s with port := after }) hf ht

/-! #### The self-test -/

/-- The state of INIT, started in `s`, after the answers to its first 249 calls: `rest` is what is left of the answers. -/
def afterSelfTest (s : State) (rest : List (Option Reply)) (p : Option Position) (τ : Transient) : State :=
  { accept .init s with
    fsm := .selfTesting, calls := s.calls ++ initCalls s.cfg, replies := rest, so := 0#6, pos := p, tr := τ }

/-- INIT outside Ready after its first 249 answers: the match count decides between the pass and the failure, and it is 80
exactly when the first 80 reads returned the bytes just written (R144, R149). -/
theorem init_oracle {s : State} {rs : List Reply} {rest : List (Option Reply)} (hf : s.fsm ≠ .ready) (ha : s.Answers rs rest)
    (hn : rs.length = 249) :
    ∃ p τ, exec .init s = finish
        (if τ.cnt = 80 then initPass (afterSelfTest s rest p τ) else initFail (afterSelfTest s rest p τ))
      ∧ (τ.cnt = 80 ↔ ∀ k, k < 80 → echoOf rs k = s.cfg.chZero + BitVec.ofNat 8 k) := by
  obtain ⟨hl, hr⟩ := ha
  obtain ⟨p, τ, h, hcnt⟩ := initPhases_oracle (s := { accept .init s with fsm := .selfTesting }) hl hr hn
  refine ⟨p, τ, ?_, hcnt⟩
  simp only [exec, execInit, if_neg hf]
  exact congrArg finish h

/-- The self-test's reads are among the first 249 answers, whatever answers come after them. -/
theorem echoOf_append {rs : List Reply} (hn : rs.length = 249) (more : List Reply) {i : Nat} (hi : i < 80) :
    echoOf (rs ++ more) i = echoOf rs i := by
  rw [echoOf, List.getD_append _ _ _ _ (by omega), echoOf]

/-- Settles O37: the first 249 answers pass the self-test, and the last two go to the second clear. -/
theorem initPassesOnEightyEchoes : Obligations.InitPassesOnEightyEchoes := by
  unfold Obligations.InitPassesOnEightyEchoes
  intro s rs rest hf ⟨hl, hr⟩ hn hecho
  obtain ⟨w, x, hwx⟩ := List.length_eq_two.1 (show (rs.drop 249).length = 2 by simp [hn])
  have hfirst : (rs.take 249).length = 249 := by simp [hn]
  have hsplit : rs = rs.take 249 ++ [w, x] := by rw [← hwx, List.take_append_drop]
  rw [hsplit] at hr hecho
  obtain ⟨p, τ, h, hcnt⟩ := init_oracle (rest := some w :: some x :: rest) hf ⟨hl, hr.trans (by simp)⟩ hfirst
  rw [if_pos (hcnt.2 fun k hk => (echoOf_append hfirst _ hk).symm.trans (hecho k hk))] at h
  obtain ⟨p', τ', hclear⟩ := clearSeq_oracle (s := afterSelfTest s (some w :: some x :: rest) p τ) hl rfl
  refine (h.trans (congrArg finish (Run.bind_of_done _ hclear))).trans ?_
  simp [ret, respond, State.responded, afterSelfTest]

/-- Settles O38: one wrong echo keeps the match count from 80, so the failure answers without a further call. -/
theorem initFailsOnOneWrongEcho : Obligations.InitFailsOnOneWrongEcho := by
  unfold Obligations.InitFailsOnOneWrongEcho
  intro s rs rest i hf ha hn hi hecho
  obtain ⟨p, τ, h, hcnt⟩ := init_oracle hf ha hn
  rw [if_neg fun h80 => hecho (hcnt.1 h80 i hi)] at h
  exact h.trans rfl

end Sys2Proof.Machine

/-! ### The colour table and SET_COLOUR (R155, R156) -/

namespace Sys2Proof.Machine

/-- Settles O39, by running the code lookup and the table on the eight codes. -/
theorem colourTableByCode : Obligations.ColourTableByCode := by
  unfold Obligations.ColourTableByCode
  rfl

/-- Settles O40: the selection stands before the two port writes, which take both answers and leave the sum of their
statuses for the response. -/
theorem setColourPushesBothPorts : Obligations.SetColourPushesBothPorts := by
  unfold Obligations.SetColourPushesBothPorts
  intro s name p q rest hf ⟨hl, hr⟩
  obtain ⟨x, τ, h, hsum⟩ :=
    pushColour_oracle (c := channelsOf name) (s := selectColour (channelsOf name) (accept (.setColour name) s)) hl hr
  rw [selectColour_cfg, accept_cfg] at hsum
  simp only [exec, execSetColour, whenReady_ready hf]
  rw [h, Run.bind_done, retStatus_eq, hsum]
  rfl

end Sys2Proof.Machine

/-! ### Illegal requests, the ready gate, and the error kinds of a response (R78, R161, R166, R167, R174) -/

namespace Sys2Proof

/-! #### What the decoder rejects (R78) -/

theorem halfOf_toNat (lo hi : Byte) : (halfOf lo hi).toNat = lo.toNat + 256 * hi.toNat := by
  have hlo := lo.isLt
  rw [halfOf, BitVec.toNat_append, ← Nat.shiftLeft_add_eq_or_of_lt hlo, Nat.shiftLeft_eq]
  omega

/-- A byte that is none of the record's opcodes is rejected. -/
theorem decode_reserved {cfg : Config} {op : Byte} (rest : List Byte) (h : op ∉ cfg.opcodes.toList) :
    decode cfg (op :: rest) = .error (.reservedOpcode op) := by
  simp only [Opcodes.toList, List.mem_cons, List.not_mem_nil, or_false, not_or] at h
  simp [decode, h]

/-- With opcodes that are told apart, each opcode with operands has its body read in its format (R71, R72). -/
theorem decode_operands {cfg : Config} (h : cfg.opcodes.toList.Nodup) (bs : List Byte) :
    decode cfg (cfg.opcodes.emit :: bs) = decodeB .emit bs
    ∧ decode cfg (cfg.opcodes.emitFormatted :: bs) = decodeS .emitFormatted bs
    ∧ decode cfg (cfg.opcodes.emitWrapped :: bs) = decodeS .emitWrapped bs
    ∧ decode cfg (cfg.opcodes.cursorMove :: bs) = decodeW cfg .cursorMove bs
    ∧ decode cfg (cfg.opcodes.cursorGoto :: bs) = decodeRC .cursorGoto bs
    ∧ decode cfg (cfg.opcodes.displayShift :: bs) = decodeW cfg .displayShift bs
    ∧ decode cfg (cfg.opcodes.setColour :: bs) = decodeC cfg .setColour bs := by
  have hne := pairwise_ne_of_nodup h
  simp only [Opcodes.toList, List.pairwise_cons, List.forall_mem_cons] at hne
  simp [decode, hne]

/-- The two string requests have one format. -/
theorem decode_string {cfg : Config} (h : cfg.opcodes.toList.Nodup) {op : Byte}
    (hop : op = cfg.opcodes.emitFormatted ∨ op = cfg.opcodes.emitWrapped) (bs : List Byte) :
    ∃ mk, decode cfg (op :: bs) = decodeS mk bs := by
  obtain ⟨-, hformatted, hwrapped, -⟩ := decode_operands h bs
  rcases hop with rfl | rfl
  · exact ⟨_, hformatted⟩
  · exact ⟨_, hwrapped⟩

theorem decodeC_strayBits (cfg : Config) (mk : ColourName → Instr) {b : Byte} (rest : List Byte)
    (h : b.extractLsb' 3 5 ≠ 0#5) : decodeC cfg mk (b :: rest) = .error .strayColourBits :=
  if_neg h

theorem decodeS_zeroInString (mk : List Byte → Instr) {lo hi : Byte} {str : List Byte} (rest : List Byte)
    (hlen : str.length = lo.toNat + 256 * hi.toNat) (hz : 0x00#8 ∈ str) :
    decodeS mk (lo :: hi :: (str ++ rest)) = .error .zeroInString := by
  have hL : (halfOf lo hi).toNat = str.length := (halfOf_toNat lo hi).trans hlen.symm
  have hlong : ¬(str ++ rest).length < str.length := by simp
  have hall : ¬str.all (fun b => b != 0#8) = true := fun hall => by simpa using List.all_eq_true.1 hall _ hz
  rw [decodeS, hL, if_neg hlong, List.take_left, if_neg hall]

theorem decodeS_cut (mk : List Byte → Instr) {lo hi : Byte} {str : List Byte}
    (h : str.length < lo.toNat + 256 * hi.toNat) : decodeS mk (lo :: hi :: str) = .error .tooShort := by
  rw [decodeS, if_pos (h.trans_eq (halfOf_toNat lo hi).symm)]

theorem decodeB_short (mk : Byte → Instr) {bs : List Byte} (h : bs.length < 1) : decodeB mk bs = .error .tooShort := by
  rw [List.length_eq_zero_iff.1 (Nat.lt_one_iff.1 h), decodeB]

theorem decodeC_short (cfg : Config) (mk : ColourName → Instr) {bs : List Byte} (h : bs.length < 1) :
    decodeC cfg mk bs = .error .tooShort := by
  rw [List.length_eq_zero_iff.1 (Nat.lt_one_iff.1 h), decodeC]

theorem decodeS_short (mk : List Byte → Instr) {bs : List Byte} (h : bs.length < 2) : decodeS mk bs = .error .tooShort := by
  match bs, h with
  | [], _ => rfl
  | [_], _ => rfl

theorem decodeRC_short (mk : Byte → Byte → Instr) {bs : List Byte} (h : bs.length < 2) :
    decodeRC mk bs = .error .tooShort := by
  match bs, h with
  | [], _ => rfl
  | [_], _ => rfl

/-- The operand field has the fewest bytes that hold `OPW` bits (R71). -/
theorem decodeW_short {cfg : Config} (mk : Int → Instr) {bs : List Byte} (h : 8 * bs.length < cfg.opw) :
    decodeW cfg mk bs = .error .tooShort := by
  have hread : readLE (operandBytes cfg) bs = none := (readLE_none _ _).2 (by unfold operandBytes; omega)
  rw [decodeW, hread]

/-- A request with operands that ends before its format does is rejected (R71, R78). -/
theorem decode_short {cfg : Config} (h : cfg.opcodes.toList.Nodup) {op : Byte} {bs : List Byte}
    (hs : (op = cfg.opcodes.emit ∨ op = cfg.opcodes.setColour) ∧ bs.length < 1
      ∨ (op = cfg.opcodes.emitFormatted ∨ op = cfg.opcodes.emitWrapped ∨ op = cfg.opcodes.cursorGoto) ∧ bs.length < 2
      ∨ (op = cfg.opcodes.cursorMove ∨ op = cfg.opcodes.displayShift) ∧ 8 * bs.length < cfg.opw) :
    decode cfg (op :: bs) = .error .tooShort := by
  obtain ⟨hemit, hformatted, hwrapped, hmove, hgoto, hshift, hcolour⟩ := decode_operands h bs
  obtain ⟨rfl | rfl, hs⟩ | ⟨rfl | rfl | rfl, hs⟩ | ⟨rfl | rfl, hs⟩ := hs
  · exact hemit.trans (decodeB_short _ hs)
  · exact hcolour.trans (decodeC_short _ _ hs)
  · exact hformatted.trans (decodeS_short _ hs)
  · exact hwrapped.trans (decodeS_short _ hs)
  · exact hgoto.trans (decodeRC_short _ hs)
  · exact hmove.trans (decodeW_short _ hs)
  · exact hshift.trans (decodeW_short _ hs)

/-- The opcodes of R72 are 0x00 to 0x0A. -/
theorem Opcodes.lt_of_mem_standard : ∀ op ∈ Opcodes.standard.toList, op.toNat < 0x0B := by decide

end Sys2Proof

namespace Sys2Proof.Machine

/-! #### The refusals -/

/-- An open block refuses the bytes at its request port that the decoder rejects, whatever `fsm` is (R167, R169). -/
theorem step_illegalRequest {s : State} {op : Byte} {rest : List Byte} {e : DecodeError} (ho : s.Open)
    (hp : s.port = op :: rest) (hd : decode s.cfg (op :: rest) = .error e) : step s = .refused .illegalRequest := by
  simp [step, fetch, fetchRequest, ho.noReset, ho.notBusy, ho.noCommand, hp, hd]

/-- Settles O11: the decoder rejects the bytes of each clause, and the step never reaches the ready gate. -/
theorem illegalRequestsAreRefused : Obligations.IllegalRequestsAreRefused := by
  unfold Obligations.IllegalRequestsAreRefused
  rintro s _ ho rfl hops
  refine ⟨fun op rest hp hop => ?_, fun b rest hp hb => ?_, fun op lo hi str rest hop hp hlen hz => ?_,
    fun op lo hi str hop hp hlen => ?_, fun op rest hp hs => ?_⟩
  · have hreserved : op ∉ s.cfg.opcodes.toList := by
      rcases hop with hop | ⟨hstd, hop⟩
      · exact hop
      · exact fun hmem => Nat.not_lt.2 hop (Opcodes.lt_of_mem_standard op (hstd ▸ hmem))
    exact step_illegalRequest ho hp (decode_reserved rest hreserved)
  · obtain ⟨-, -, -, -, -, -, hcolour⟩ := decode_operands hops (b :: rest)
    exact step_illegalRequest ho hp (hcolour.trans (decodeC_strayBits _ _ rest hb))
  · obtain ⟨mk, hd⟩ := decode_string hops hop (lo :: hi :: (str ++ rest))
    exact step_illegalRequest ho hp (hd.trans (decodeS_zeroInString mk rest hlen hz))
  · obtain ⟨mk, hd⟩ := decode_string hops hop (lo :: hi :: str)
    exact step_illegalRequest ho hp (hd.trans (decodeS_cut mk hlen))
  · exact step_illegalRequest ho hp (decode_short hops hs)

/-- Settles O15: the meaning of every request but INIT is a body behind the ready gate, which is shut. -/
theorem requestsBeforeReadyAreRefused : Obligations.RequestsBeforeReadyAreRefused := by
  unfold Obligations.RequestsBeforeReadyAreRefused
  intro i s hi hne hf
  unfold exec
  cases i with
  | init => exact absurd rfl hne
  | clear => exact whenReady_notReady hf
  | home => exact whenReady_notReady hf
  | emit b => exact whenReady_notReady hf
  | emitLineClear => exact whenReady_notReady hf
  | emitFormatted str => exact whenReady_notReady hf
  | emitWrapped str => exact whenReady_notReady hf
  | cursorMove n => exact whenReady_notReady hf
  | cursorGoto row col => exact whenReady_notReady hf
  | displayShift n => exact whenReady_notReady hf
  | setColour name => exact whenReady_notReady hf
  | _ => cases hi -- a device command is no request

/-! #### The kinds a response carries -/

theorem Responds.diag {i : Instr} {m t : State} (h : Responds i m t) : t.diag ∈ allowedDiag i := by
  obtain ⟨_, _, hd, ht⟩ := h.response
  rw [ht]
  exact hd

/-- Settles O19: the responses of the operations carry listed kinds, and a hang leaves `busy` at 1. -/
theorem responsesCarryOnlyTheListedKinds : Obligations.ResponsesCarryOnlyTheListedKinds := by
  unfold Obligations.ResponsesCarryOnlyTheListedKinds
  intro i s t hi h hb
  rcases request_next hi h with ⟨rfl, -, rfl⟩ | ⟨-, ⟨m, -, hr⟩ | hm⟩
  · exact List.mem_cons_self
  · exact hr.diag
  · have hbusy : t.busy = true := hm.busy.trans (startState_busy i s)
    rw [hbusy] at hb
    cases hb

end Sys2Proof.Machine

/-! ### The reset state and the reset event (R185, R186) -/

namespace Sys2Proof.Machine

@[simp] theorem Fsm.isReady_uninitialized : Fsm.uninitialized.isReady = false := rfl

/-- A waiting reset event goes before everything else, a call the block is stuck in included (log 13). -/
theorem step_reset {s : State} (hr : s.resetReq = true) : step s = .next (resetEvent s) := by
  simp [step, fetch, hr]

/-- Settles O1: each register at the value `State.reset` writes out, `diag` through the code table of R76. -/
theorem resetStateIsUninitializedAndIdle : Obligations.ResetStateIsUninitializedAndIdle := by
  unfold Obligations.ResetStateIsUninitializedAndIdle
  exact ⟨rfl, Fsm.isReady_uninitialized, rfl, rfl, rfl, rfl, rfl⟩

/-- Settles O2: the step is the reset event, and the laws of `resetEvent` give each register and each part kept. -/
theorem resetEventRestoresTheBlockOnly : Obligations.ResetEventRestoresTheBlockOnly := by
  unfold Obligations.ResetEventRestoresTheBlockOnly
  intro s hr
  refine ⟨resetEvent s, step_reset hr, ?_⟩
  simp

end Sys2Proof.Machine
